-- ==== Sys2Proof/Word.lean ====
section
/-!
DEFINITION. The bit-level types of EMUSC-CORE: bytes, 64-bit words, and the two IEEE 754 data formats the spec names
(00_scope.md R14: every real value is a binary64, every bank element a binary32).
The arithmetic of the two formats stands in Machine/Float.lean.
-/

namespace Sys2Proof

/-- A byte of the PCM ROM space or of a serialised stream (20_memory.md R49, R52, R53). -/
abbrev Byte := BitVec 8

/-- A command word or a response word (30_encoding.md R68, R74, R75). -/
abbrev Word := BitVec 64

/-- A real value of the spec's type `R`: an IEEE 754 binary64 datum, held as its 64-bit encoding (00_scope.md R14).
Equality of `R` is equality of encodings; the numerical comparisons are in Machine/Float.lean. -/
structure R where
  bits : BitVec 64
deriving DecidableEq, Repr, Inhabited

/-- An element of a sample bank: an IEEE 754 binary32 datum, held as its 32-bit encoding (10_state.md R34). -/
structure F32 where
  bits : BitVec 32
deriving DecidableEq, Repr, Inhabited

end Sys2Proof
end

