-- ==== Sys2Proof/Syntax.lean ====
section
/-!
DEFINITION. The commands of EMUSC-CORE: one constructor per row of spec/opcode_table.json (30_encoding.md R71), with the
operands the command uses, in the order of the assembler syntax (30_encoding.md R76). Every operand is an unsigned
integer (30_encoding.md R69); WellFormed.lean gives the widths of the fields that carry them. A reserved field is no
operand: a word with a non-zero reserved field is no command (Decode.lean).
-/

namespace Sys2Proof

/-- A command. -/
inductive Instr where
  /-- R93 -/
  | nop
  /-- R94 -/
  | reset
  /-- R95: `SETFMT fs, channels` -/
  | setfmt (fs channels : Nat)
  /-- R96: `SETINTERP mode` -/
  | setinterp (mode : Nat)
  /-- R97: `SYSPARAM id, value` -/
  | sysparam (id value : Nat)
  /-- R98: `PARTPARAM part, id, value` -/
  | partparam (part id value : Nat)
  /-- R99: `DRUMPARAM map, key, field, value` -/
  | drumparam (map key field value : Nat)
  /-- R100: `SDT_WR s, field, value` -/
  | sdtWr (s field value : Nat)
  /-- R101: `PDT_WR q, field, value` -/
  | pdtWr (q field value : Nat)
  /-- R87: `DECODE s` -/
  | decode (s : Nat)
  /-- R102: `VSETUP v, field, value` -/
  | vsetup (v field value : Nat)
  /-- R111: `VSTART v, q` -/
  | vstart (v q : Nat)
  /-- R112: `VNOTEOFF v` -/
  | vnoteoff (v : Nat)
  /-- R113: `VKILL v` -/
  | vkill (v : Nat)
  /-- R114: `RDVOICE v` -/
  | rdvoice (v : Nat)
  /-- R149 -/
  | rdfault
  /-- R143 -/
  | frame
deriving DecidableEq, Repr

end Sys2Proof
end

