-- ==== Sys2Proof/WellFormed.lean ====
section
/-!
DEFINITION. When a command fits its 64-bit word: every operand lies in the field that carries it (30_encoding.md R68,
R69: `a` 8 bits, `b` 16 bits, `data` 32 bits; DRUMPARAM splits `b` into a 1-bit map and a 7-bit key). A command with an
operand that selects nothing or is out of its target's range is well formed: it faults when it runs (60_exceptions.md
R145).
-/

namespace Sys2Proof

/-- The operands of the command fit the fields of the word. -/
def Instr.wellFormed : Instr → Bool
  | .nop => true
  | .reset => true
  | .setfmt fs channels => decide (fs < 0x100000000) && decide (channels < 0x100)
  | .setinterp mode => decide (mode < 0x100000000)
  | .sysparam id value => decide (id < 0x100) && decide (value < 0x100000000)
  | .partparam part id value => decide (part < 0x10000) && decide (id < 0x100) && decide (value < 0x100000000)
  | .drumparam map key field value =>
    decide (map < 2) && decide (key < 128) && decide (field < 0x100) && decide (value < 0x100000000)
  | .sdtWr s field value => decide (s < 0x10000) && decide (field < 0x100) && decide (value < 0x100000000)
  | .pdtWr q field value => decide (q < 0x10000) && decide (field < 0x100) && decide (value < 0x100000000)
  | .decode s => decide (s < 0x10000)
  | .vsetup v field value => decide (v < 0x10000) && decide (field < 0x100) && decide (value < 0x100000000)
  | .vstart v q => decide (v < 0x10000) && decide (q < 0x100000000)
  | .vnoteoff v => decide (v < 0x10000)
  | .vkill v => decide (v < 0x10000)
  | .rdvoice v => decide (v < 0x10000)
  | .rdfault => true
  | .frame => true

end Sys2Proof
end

