-- ==== Sys2Proof/Decode.lean ====
section
/-!
DEFINITION. The command word (30_encoding.md R68 to R72): the decoder, total on every 64-bit word, which gives the
command or says why the word is none; the encoder; and the byte serialisation of words (20_memory.md R53).
-/

namespace Sys2Proof

/-- Why a word is no command. -/
inductive Reject where
  /-- the opcode is not assigned: the command faults with F_OPCODE (30_encoding.md R72) -/
  | opcode
  /-- a reserved field is not zero: the command faults with F_RSVD (30_encoding.md R70) -/
  | reserved
deriving DecidableEq, Repr

/-! ### The fields of a word (30_encoding.md R68, R69) -/

/-- `op = w[7:0]` -/
def opField (w : Word) : Nat := w.toNat % 256

/-- `a = w[15:8]` -/
def aField (w : Word) : Nat := w.toNat / 256 % 256

/-- `b = w[31:16]` -/
def bField (w : Word) : Nat := w.toNat / 65536 % 65536

/-- `data = w[63:32]` -/
def dataField (w : Word) : Nat := w.toNat / 4294967296

/-- `w = op | (a << 8) | (b << 16) | (data << 32)`; with fields in their ranges the union is the sum. -/
def packWord (op a b data : Nat) : Word :=
  BitVec.ofNat 64 (op + a * 256 + b * 65536 + data * 4294967296)

/-- The opcode map (30_encoding.md R71). -/
def Instr.opcode : Instr → Nat
  | .nop => 0x00
  | .reset => 0x01
  | .setfmt .. => 0x02
  | .setinterp .. => 0x03
  | .sysparam .. => 0x10
  | .partparam .. => 0x11
  | .drumparam .. => 0x12
  | .sdtWr .. => 0x20
  | .pdtWr .. => 0x21
  | .decode .. => 0x22
  | .vsetup .. => 0x30
  | .vstart .. => 0x31
  | .vnoteoff .. => 0x32
  | .vkill .. => 0x33
  | .rdvoice .. => 0x34
  | .rdfault => 0x35
  | .frame => 0x40

/-- A decoded command, if the reserved fields of its word are zero. -/
def unlessReserved (zero : Bool) (i : Instr) : Except Reject Instr :=
  if zero then .ok i else .error .reserved

/-- The command a word stands for. The opcode is looked at first, then the reserved fields (60_exceptions.md R145). -/
def decode (w : Word) : Except Reject Instr :=
  let a := aField w
  let b := bField w
  let data := dataField w
  match opField w with
  | 0x00 => unlessReserved (a == 0 && b == 0 && data == 0) .nop
  | 0x01 => unlessReserved (a == 0 && b == 0 && data == 0) .reset
  | 0x02 => unlessReserved (b == 0) (.setfmt data a)
  | 0x03 => unlessReserved (a == 0 && b == 0) (.setinterp data)
  | 0x10 => unlessReserved (b == 0) (.sysparam a data)
  | 0x11 => .ok (.partparam b a data)
  | 0x12 => unlessReserved (b / 256 == 0) (.drumparam (b / 128 % 2) (b % 128) a data)
  | 0x20 => .ok (.sdtWr b a data)
  | 0x21 => .ok (.pdtWr b a data)
  | 0x22 => unlessReserved (a == 0 && data == 0) (.decode b)
  | 0x30 => .ok (.vsetup b a data)
  | 0x31 => unlessReserved (a == 0) (.vstart b data)
  | 0x32 => unlessReserved (a == 0 && data == 0) (.vnoteoff b)
  | 0x33 => unlessReserved (a == 0 && data == 0) (.vkill b)
  | 0x34 => unlessReserved (a == 0 && data == 0) (.rdvoice b)
  | 0x35 => unlessReserved (a == 0 && b == 0 && data == 0) .rdfault
  | 0x40 => unlessReserved (a == 0 && b == 0 && data == 0) .frame
  | _ => .error .opcode

/-- The word of a command: the only encoding a legal command has (30_encoding.md R70, R71). -/
def encode (i : Instr) : Word :=
  match i with
  | .nop => packWord i.opcode 0 0 0
  | .reset => packWord i.opcode 0 0 0
  | .setfmt fs channels => packWord i.opcode channels 0 fs
  | .setinterp mode => packWord i.opcode 0 0 mode
  | .sysparam id value => packWord i.opcode id 0 value
  | .partparam part id value => packWord i.opcode id part value
  | .drumparam map key field value => packWord i.opcode field (map * 128 + key) value
  | .sdtWr s field value => packWord i.opcode field s value
  | .pdtWr q field value => packWord i.opcode field q value
  | .decode s => packWord i.opcode 0 s 0
  | .vsetup v field value => packWord i.opcode field v value
  | .vstart v q => packWord i.opcode 0 v q
  | .vnoteoff v => packWord i.opcode 0 v 0
  | .vkill v => packWord i.opcode 0 v 0
  | .rdvoice v => packWord i.opcode 0 v 0
  | .rdfault => packWord i.opcode 0 0 0
  | .frame => packWord i.opcode 0 0 0

/-! ### Byte serialisation (20_memory.md R53) -/

/-- A word as 8 bytes, least significant first. -/
def bytesOfWord (w : Word) : List Byte :=
  [w.extractLsb' 0 8, w.extractLsb' 8 8, w.extractLsb' 16 8, w.extractLsb' 24 8,
   w.extractLsb' 32 8, w.extractLsb' 40 8, w.extractLsb' 48 8, w.extractLsb' 56 8]

/-- The first word of a byte stream, and the bytes after it; none when fewer than 8 bytes are there. -/
def wordOfBytes : List Byte → Option (Word × List Byte)
  | b0 :: b1 :: b2 :: b3 :: b4 :: b5 :: b6 :: b7 :: rest =>
    some (b7 ++ b6 ++ b5 ++ b4 ++ b3 ++ b2 ++ b1 ++ b0, rest)
  | _ => none

/-- The command at the head of a byte stream, and the bytes after it; none when the stream is short or the word is no
command. -/
def decodeBytes (bytes : List Byte) : Option (Instr × List Byte) :=
  match wordOfBytes bytes with
  | none => none
  | some (w, rest) =>
    match decode w with
    | .ok i => some (i, rest)
    | .error _ => none

/-- The word of an opcode-table row: the low `nbits` bits of `w`, every bit above them zero. -/
def tableWord (nbits w : Nat) : Word := BitVec.ofNat 64 (w % Nat.pow 2 nbits)

/-- The command this decoder reads from a table word laid out in bytes. -/
def decodeTableWord (nbits w : Nat) : Option Instr :=
  match decodeBytes (bytesOfWord (tableWord nbits w)) with
  | some (i, _) => some i
  | none => none

end Sys2Proof
end

