-- ==== Sys2Proof/Config.lean ====
section
/-!
DEFINITION. What an instance of EMUSC-CORE fixes (00_scope.md R7, 92_eei_decisions.md section 2): the parameters, as
plain data a state carries and no step changes, and the uninterpreted constants (no body) that stand for the functions
the spec leaves open. Every open function is chosen by a `Choice`: `reference` is the spec's own reference instance
(Machine/Reference.lean), `other n` is the n-th unknown function, about which nothing can be proved but the constraints the
spec puts on every value (Machine/Reference.lean keeps them). A claim about every state is a claim about every choice.
-/

namespace Sys2Proof

/-- The hardware generation `GEN` (00_scope.md R3). -/
inductive Generation where
  | sc55
  | sc55mk2
  | sc88
deriving DecidableEq, Repr, Inhabited

/-- The order SC55 < SC55mk2 < SC88 (00_scope.md R3). -/
def Generation.rank : Generation → Nat
  | .sc55 => 0
  | .sc55mk2 => 1
  | .sc88 => 2

/-- `NPART`: 16 parts, or 32 on the SC88 (00_scope.md R7). -/
def Generation.nPart : Generation → Nat
  | .sc55 => 16
  | .sc55mk2 => 16
  | .sc88 => 32

/-- Which real arithmetic an instance has: the reference IEEE 754 binary64, or the n-th unknown one
(`NUMERICS`, 00_scope.md R14, R15). -/
inductive Numerics where
  | reference
  | other (n : Nat)
deriving DecidableEq, Repr, Inhabited

/-- Which function an instance has where the spec leaves one open: the spec's reference instance, or the n-th unknown
one (00_scope.md R7). -/
inductive Choice where
  | reference
  | other (n : Nat)
deriving DecidableEq, Repr, Inhabited

/-- The parameters of an instance, fixed for its life (00_scope.md R7, 10_state.md R44). `OUT_SCALE` is fixed at 32767.0
and stands in Machine/Mixer.lean. -/
structure Params where
  /-- `GEN` -/
  gen : Generation
  /-- `NV`, the number of voice slots -/
  nv : Nat
  /-- `NS`, the number of sample descriptors -/
  ns : Nat
  /-- `NP`, the number of partial descriptors -/
  np : Nat
  /-- `NTV`, the number of TV parameter bytes of a partial -/
  ntv : Nat
  /-- `NIT`, the number of instrument-level TV bytes of a voice -/
  nit : Nat
  /-- `ROMSIZE`, the size of the PCM ROM space in bytes -/
  romSize : Nat
  /-- `NUMERICS` -/
  numerics : Numerics
  /-- `RIAA_MAP` -/
  riaaMap : Choice
  /-- `ENV` -/
  env : Choice
  /-- `LFO` -/
  lfo : Choice
  /-- `TVFMAP` -/
  tvfMap : Choice
  /-- `PANMAP` -/
  panMap : Choice
  /-- `PARTGAIN` -/
  partGain : Choice
  /-- `MPAN` -/
  mPan : Choice
  /-- `FINEVOL` -/
  fineVol : Choice
  /-- `SRCVAL` -/
  srcVal : Choice
  /-- `MTAB` -/
  mTab : Choice
deriving DecidableEq, Repr

/-- `NPART` of an instance. -/
def Params.nPart (p : Params) : Nat := p.gen.nPart

/-- The ranges of 00_scope.md R7. -/
def Params.legal (p : Params) : Bool :=
  decide (1 ≤ p.nv ∧ p.nv ≤ 256 ∧ 1 ≤ p.ns ∧ p.ns ≤ 65535 ∧ 1 ≤ p.np ∧ p.np ≤ 65535 ∧ p.ntv ≤ 192 ∧ p.nit ≤ 240 ∧
    (p.romSize = 0x100000 ∨ p.romSize = 0x200000 ∨ p.romSize = 0x300000))

/-! ### What the open functions work on -/

/-- The three envelope generators of a voice (10_state.md R40). -/
inductive Gen where
  | tvp
  | tvf
  | tva
deriving DecidableEq, Repr, Inhabited

/-- The two LFOs of a voice (10_state.md R41). -/
inductive LfoId where
  | lfo1
  | lfo2
deriving DecidableEq, Repr, Inhabited

/-- The stages of an envelope generator (44_envelopes.md R126). -/
inductive Stage where
  | attack
  | decay
  | approach
  | sustain
  | release
  | done
deriving DecidableEq, Repr, Inhabited

/-- The stage codes of 44_envelopes.md R126 and 30_encoding.md R74. -/
def Stage.code : Stage → Nat
  | .attack => 0
  | .decay => 1
  | .approach => 2
  | .sustain => 3
  | .release => 4
  | .done => 5

/-- The state of an envelope generator: stage, level, and the opaque value `aux` of the `ENV` configuration, coded as a
natural number (10_state.md R40; log entry 20). -/
structure EG where
  stage : Stage
  level : R
  aux : Nat
deriving DecidableEq, Repr, Inhabited

/-- The part registers the generators read (44_envelopes.md R124). -/
structure PartInputs where
  tvfCutoff : Nat
  tvfResonance : Nat
  envAttack : Nat
  envDecay : Nat
  envRelease : Nat
  vibRate : Nat
  vibDepth : Nat
  vibDelay : Nat
deriving DecidableEq, Repr, Inhabited

/-- The inputs of 44_envelopes.md R124 that a voice's generators share. The part registers are there when a voice starts
and at its refreshes, `modAcc(p, d)` for d = 0..10 at its refreshes only (41_parameters.md R91, R98,
70_reset_and_hazards.md R163; log entry 26); what a generator keeps of them between refreshes is in its own state. -/
structure VoiceInputs where
  key : Nat
  velocity : Nat
  drum : Bool
  tv : List Nat
  instTV : List Nat
  part : Option PartInputs
  modAcc : Option (List Int)
  fs : Nat
deriving DecidableEq, Repr, Inhabited

/-- What an envelope generator reads besides its own state: the shared inputs and the two LFO outputs
(44_envelopes.md R124). -/
structure EnvInputs where
  base : VoiceInputs
  out1 : R
  out2 : R
deriving DecidableEq, Repr, Inhabited

/-- The five coefficients of a biquad (40_decode_filters.md R79). -/
structure Coeffs where
  n0 : R
  n1 : R
  n2 : R
  d1 : R
  d2 : R
deriving DecidableEq, Repr, Inhabited

/-! ### The unknown functions. No body: nothing can be computed from them or proved of their values. -/

/-- The n-th unknown `NUMERICS`: the rounded operations and the transcendental functions (00_scope.md R14, R15). -/
opaque Config.numAdd (n : Nat) (x y : R) : R
opaque Config.numSub (n : Nat) (x y : R) : R
opaque Config.numMul (n : Nat) (x y : R) : R
opaque Config.numDiv (n : Nat) (x y : R) : R
opaque Config.numExp (n : Nat) (x : R) : R
opaque Config.numPow2 (n : Nat) (x : R) : R
opaque Config.numSin (n : Nat) (x : R) : R

/-- The n-th unknown `RIAA_MAP` (40_decode_filters.md R82). -/
opaque Config.riaa (n : Nat) : Coeffs

/-- The n-th unknown `ENV` (44_envelopes.md R125). -/
opaque Config.envInit (n : Nat) (g : Gen) (i : EnvInputs) : EG
opaque Config.envRefresh (n : Nat) (g : Gen) (i : EnvInputs) (e : EG) : EG
opaque Config.envTick (n : Nat) (g : Gen) (i : EnvInputs) (e : EG) : EG
opaque Config.envRelease (n : Nat) (g : Gen) (i : EnvInputs) (e : EG) : EG
opaque Config.envTvpPitch (n : Nat) (i : EnvInputs) (e : EG) : R
opaque Config.envTvfEnv (n : Nat) (i : EnvInputs) (e : EG) : R

/-- The n-th unknown `LFO` (44_envelopes.md R127). `x` is the state of the LFO, coded as a natural number (log entry
20). It reads no LFO output, neither its own nor the other LFO's, which R124 would let it (DESIGN CHOICE; log entry 30). -/
opaque Config.lfoInit (n : Nat) (l : LfoId) (i : VoiceInputs) : Nat
opaque Config.lfoRefresh (n : Nat) (l : LfoId) (i : VoiceInputs) (x : Nat) : Nat
opaque Config.lfoTick (n : Nat) (l : LfoId) (i : VoiceInputs) (x : Nat) : Nat
opaque Config.lfoOut (n : Nat) (l : LfoId) (i : VoiceInputs) (x : Nat) : R

/-- The n-th unknown `TVFMAP`, each function over the inputs 44_envelopes.md R130 lists for it: the part's TVFCutoff, the
partial and the instrument bytes and `modAcc(p, 1)`; `modAcc(p, 5)`; `modAcc(p, 9)`; the part's TVFResonance. -/
opaque Config.tvfBase (n cutoff : Nat) (tv instTV : List Nat) (modCutoff : Int) : R
opaque Config.tvfDepth1 (n : Nat) (modDepth : Int) : R
opaque Config.tvfDepth2 (n : Nat) (modDepth : Int) : R
opaque Config.tvfQ (n resonance : Nat) : R

/-- The n-th unknown `PANMAP(b, pp)` (44_envelopes.md R134). -/
opaque Config.panMap (n b pp : Nat) : R

/-- The n-th unknown `PARTGAIN(p)`, a function of the registers of the part, listed in the order of their ids
(45_mixer.md R139). -/
opaque Config.partGain (n : Nat) (regs : List Nat) : R

/-- The n-th unknown `MPAN(L, R, MasterPan)` (45_mixer.md R141). -/
opaque Config.mPan (n : Nat) (l r : R) (masterPan : Nat) : R × R

/-- The n-th unknown `FINEVOL(vol, fv)` (42_voice.md R108). -/
opaque Config.fineVol (n vol fv : Nat) : R

/-- The n-th unknown `SRCVAL(s, part)`, a function of the registers of the part, listed in the order of their ids
(41_parameters.md R90). -/
opaque Config.srcVal (n s : Nat) (regs : List Nat) : Int

/-- The n-th unknown `MTAB`: scale, limit and gain of a destination (41_parameters.md R90, R91). -/
opaque Config.mTabScale (n d : Nat) : Nat
opaque Config.mTabLimit (n d : Nat) : Nat
opaque Config.mTabGain (n d : Nat) : Nat

/-! ### Values the spec leaves unspecified -/

/-- The data of a bank element that no DECODE has written, "unspecified" by 10_state.md R34 (log entry 9). -/
opaque Config.bankUnspecified (s k : Nat) : F32

/-- The rows of the kernel tables `LIN` and `CUB` at an index outside 0..255: 43_oscillator.md R122 gives none, and R123 says
that binary64 reaches none (log entry 31). -/
opaque Config.linRowUnspecified (m : Int) : R × R
opaque Config.cubRowUnspecified (m : Int) : R × R × R × R

/-- The integer that `floor` or truncation of a NaN or an infinity gives: the spec states none (log entry 6). -/
opaque Config.intOfNonFinite (x : R) : Int

end Sys2Proof
end

