-- ==== Sys2Proof/Machine/Float.lean ====
section
/-!
DEFINITION. IEEE 754 binary64 and binary32 arithmetic on exact integers, round to nearest, ties to even, with
subnormals, infinities and NaNs (00_scope.md R14, 92_eei_decisions.md D6). Every operation unpacks its operands into
exact dyadic numbers, computes exactly, and rounds once. A NaN result is the one quiet NaN `R.nan` (log entry 4).
-/

namespace Sys2Proof

/-- What a datum stands for: not a number, an infinity, or the exact number (−1)^neg · m · 2^e. -/
inductive Datum where
  | nan
  | inf (neg : Bool)
  | fin (neg : Bool) (m : Nat) (e : Int)
deriving DecidableEq, Repr

/-- `m` divided by 2^k, rounded to nearest, ties to even; `k = 0` gives `m`. -/
def roundShift (m k : Nat) : Nat :=
  if k = 0 then m
  else
    let q := m >>> k
    let r := m % Nat.pow 2 k
    let half := Nat.pow 2 (k - 1)
    if half < r || (r == half && q % 2 == 1) then q + 1 else q

/-- The magnitude bits (sign excluded) of `m · 2^e` rounded to nearest even in the format with `p` significant bits,
least exponent `emin` and infinity `infBits`. -/
def roundBits (p : Nat) (emin : Int) (infBits m : Nat) (e : Int) : Nat :=
  if m = 0 then 0
  else
    let quantum : Int := max (e + Int.ofNat (Nat.log2 m + 1) - Int.ofNat p) emin
    let mant := if quantum ≤ e then m <<< (e - quantum).toNat else roundShift m (quantum - e).toNat
    min ((quantum - emin).toNat * Nat.pow 2 (p - 1) + mant) infBits

/-- `a · 2^(ea − e)` for `e ≤ ea`: a significand brought to a smaller exponent, with its sign. -/
def alignTo (neg : Bool) (a : Nat) (ea e : Int) : Int :=
  let x := Int.ofNat (a <<< (ea - e).toNat)
  if neg then -x else x

/-! ### binary64 -/

/-- The bits of binary64 infinity without its sign. -/
def infBits64 : Nat := 0x7FF0000000000000

/-- The datum with the given sign and magnitude bits. -/
def R.pack (neg : Bool) (mag : Nat) : R :=
  ⟨BitVec.ofNat 64 (if neg then 0x8000000000000000 + mag else mag)⟩

/-- The magnitude bits of a datum: its encoding without the sign bit. -/
def R.mag (x : R) : Nat := x.bits.toNat % 0x8000000000000000

/-- The sign bit of a datum. -/
def R.neg? (x : R) : Bool := Nat.ble 0x8000000000000000 x.bits.toNat

/-- The quiet NaN that every invalid operation of the model answers (log entry 4). -/
def R.nan : R := ⟨0x7FF8000000000000#64⟩

def R.inf (neg : Bool) : R := R.pack neg infBits64

/-- +0.0 -/
def R.zero : R := ⟨0#64⟩

/-- 1.0 -/
def R.one : R := ⟨0x3FF0000000000000#64⟩

/-- A NaN or not: the magnitude bits lie above infinity's. -/
def R.isNaN (x : R) : Bool := Nat.blt infBits64 x.mag

/-- `isFinite(x)` is false for infinities and NaNs (00_scope.md R14). -/
def R.isFinite (x : R) : Bool := Nat.blt x.mag infBits64

/-- +0.0 or −0.0. -/
def R.isZero (x : R) : Bool := x.mag == 0

/-- The exact number a datum stands for. -/
def R.unpack (x : R) : Datum :=
  let mag := x.mag
  if infBits64 < mag then .nan
  else if mag = infBits64 then .inf x.neg?
  else
    let ex := mag / 0x10000000000000
    let fr := mag % 0x10000000000000
    if ex = 0 then .fin x.neg? fr (-1074) else .fin x.neg? (0x10000000000000 + fr) (Int.ofNat ex - 1075)

/-- The binary64 value nearest (−1)^neg · m · 2^e. -/
def R.ofDyadic (neg : Bool) (m : Nat) (e : Int) : R :=
  R.pack neg (roundBits 53 (-1074) infBits64 m e)

/-- The binary64 value nearest (−1)^neg · (num/den) · 2^e, for `den ≠ 0`. The quotient is taken with at least 64 bits
and a sticky bit below them, so that one rounding of it is the rounding of the exact quotient. -/
def R.ofQuotient (neg : Bool) (num den : Nat) (e : Int) : R :=
  let k := 66 + Nat.log2 den
  let q := (num <<< k) / den
  let sticky := if (num <<< k) % den = 0 then 0 else 1
  R.ofDyadic neg (2 * q + sticky) (e - Int.ofNat k - 1)

/-- The binary64 value nearest the rational `num/den`: how the spec's decimal constants are read (00_scope.md R14). -/
def R.ofRat (num : Int) (den : Nat) : R := R.ofQuotient (decide (num < 0)) num.natAbs den 0

/-- `toR(n)`: the conversion of an integer (exact for every integer of the spec, 00_scope.md R14). -/
def R.ofInt (n : Int) : R := R.ofDyadic (decide (n < 0)) n.natAbs 0

/-- −x -/
def R.negate (x : R) : R := R.pack (!x.neg?) x.mag

/-- IEEE 754 addition. A zero sum is +0.0 unless both operands are negative zeros. -/
def R.add (x y : R) : R :=
  match x.unpack, y.unpack with
  | .nan, _ => R.nan
  | _, .nan => R.nan
  | .inf a, .inf b => if a = b then R.inf a else R.nan
  | .inf a, .fin .. => R.inf a
  | .fin .., .inf b => R.inf b
  | .fin a m ea, .fin b n eb =>
    let e := min ea eb
    let z := alignTo a m ea e + alignTo b n eb e
    if z = 0 then R.pack (a && b) 0 else R.ofDyadic (decide (z < 0)) z.natAbs e

/-- IEEE 754 subtraction: addition of the negated operand. -/
def R.sub (x y : R) : R := R.add x y.negate

/-- IEEE 754 multiplication. -/
def R.mul (x y : R) : R :=
  match x.unpack, y.unpack with
  | .nan, _ => R.nan
  | _, .nan => R.nan
  | .inf a, .inf b => R.inf (a != b)
  | .inf a, .fin b n _ => if n = 0 then R.nan else R.inf (a != b)
  | .fin a m _, .inf b => if m = 0 then R.nan else R.inf (a != b)
  | .fin a m ea, .fin b n eb => R.ofDyadic (a != b) (m * n) (ea + eb)

/-- IEEE 754 division. A finite non-zero number over zero is an infinity; 0/0 and ∞/∞ are NaN. -/
def R.div (x y : R) : R :=
  match x.unpack, y.unpack with
  | .nan, _ => R.nan
  | _, .nan => R.nan
  | .inf _, .inf _ => R.nan
  | .inf a, .fin b _ _ => R.inf (a != b)
  | .fin a _ _, .inf b => R.pack (a != b) 0
  | .fin a m ea, .fin b n eb =>
    if n = 0 then (if m = 0 then R.nan else R.inf (a != b))
    else R.ofQuotient (a != b) m n (ea - eb)

/-- The place of a number in the order of the numbers: the magnitude bits with the sign; both zeros are 0. -/
def R.key (x : R) : Int := if x.neg? then -Int.ofNat x.mag else Int.ofNat x.mag

/-- x < y; false when either is a NaN. -/
def R.lt (x y : R) : Bool := !x.isNaN && !y.isNaN && decide (x.key < y.key)

/-- x ≤ y; false when either is a NaN. -/
def R.le (x y : R) : Bool := !x.isNaN && !y.isNaN && decide (x.key ≤ y.key)

/-- Equality of values: the two zeros are equal, a NaN equals nothing (44_envelopes.md R131). -/
def R.eqv (x y : R) : Bool := !x.isNaN && !y.isNaN && decide (x.key = y.key)

/-- `floor(x)`: the greatest integer not above `x` (00_scope.md R14). Of a NaN or an infinity the spec states none: a
free value (log entry 6). -/
def R.floor (x : R) : Int :=
  match x.unpack with
  | .fin neg m e =>
    if 0 ≤ e then (let v := Int.ofNat (m <<< e.toNat); if neg then -v else v)
    else
      let k := (-e).toNat
      if neg then -Int.ofNat ((m + (Nat.pow 2 k - 1)) >>> k) else Int.ofNat (m >>> k)
  | _ => Config.intOfNonFinite x

/-- The integer part of `x`, rounded toward zero (45_mixer.md R142). Of a NaN or an infinity the spec states none: a
free value (log entry 6). -/
def R.trunc (x : R) : Int :=
  match x.unpack with
  | .fin neg m e =>
    let v := if 0 ≤ e then Int.ofNat (m <<< e.toNat) else Int.ofNat (m >>> (-e).toNat)
    if neg then -v else v
  | _ => Config.intOfNonFinite x

/-! ### binary32 -/

/-- The bits of binary32 infinity without its sign. -/
def infBits32 : Nat := 0x7F800000

/-- The binary32 datum with the given sign and magnitude bits. -/
def F32.pack (neg : Bool) (mag : Nat) : F32 :=
  ⟨BitVec.ofNat 32 (if neg then 0x80000000 + mag else mag)⟩

/-- The exact number a binary32 datum stands for. -/
def F32.unpack (x : F32) : Datum :=
  let neg := Nat.ble 0x80000000 x.bits.toNat
  let mag := x.bits.toNat % 0x80000000
  if infBits32 < mag then .nan
  else if mag = infBits32 then .inf neg
  else
    let ex := mag / 0x800000
    let fr := mag % 0x800000
    if ex = 0 then .fin neg fr (-149) else .fin neg (0x800000 + fr) (Int.ofNat ex - 150)

/-- `f32(x)`: rounding to binary32, round to nearest even; a value outside the range becomes ±infinity
(00_scope.md R14, 40_decode_filters.md R87). -/
def R.toF32 (x : R) : F32 :=
  match x.unpack with
  | .nan => ⟨0x7FC00000#32⟩
  | .inf neg => F32.pack neg infBits32
  | .fin neg m e => F32.pack neg (roundBits 24 (-149) infBits32 m e)

/-- The exact conversion of a binary32 value to `R` (20_memory.md R51). -/
def F32.toR (x : F32) : R :=
  match x.unpack with
  | .nan => R.nan
  | .inf neg => R.inf neg
  | .fin neg m e => R.ofDyadic neg m e

end Sys2Proof
end

