-- ==== Sys2Proof/Machine/Instance.lean ====
section
/-!
DEFINITION. The instance `State.reset` carries: the reference value of every parameter (00_scope.md R7, 92_eei_decisions.md
section 2; log entry 1).
-/

namespace Sys2Proof.Machine

/-- The reference values: SC55, `NV` = 24, `NS` = `NP` = 4, no TV bytes, one 1 MiB ROM, and the reference instance of
every open function. -/
def referenceParams : Params where
  gen := .sc55
  nv := 24
  ns := 4
  np := 4
  ntv := 0
  nit := 0
  romSize := 0x100000
  numerics := .reference
  riaaMap := .reference
  env := .reference
  lfo := .reference
  tvfMap := .reference
  panMap := .reference
  partGain := .reference
  mPan := .reference
  fineVol := .reference
  srcVal := .reference
  mTab := .reference

/-- The instance of the vectors of 95_test_vectors.md section 0: the reference with `NV` = 4. -/
def vectorParams : Params := { referenceParams with nv := 4 }

end Sys2Proof.Machine
end

