-- ==== Sys2Proof/Machine/Table.lean ====
section
/-!
DEFINITION. Sparse tables: a list of (key, entry) pairs in ONE canonical form, keys strictly rising and no entry equal to
what an unlisted key reads as. Every indexed piece of state (register files, descriptor tables, sample banks, voices,
the PCM ROM image) is one of them, so that equal contents are equal data. The laws are in Laws/Table.lean.
-/

namespace Sys2Proof.Machine

/-- A table of entries of type `α`. What an unlisted key reads as is an argument of the operations. -/
abbrev Table (α : Type) := List (Nat × α)

variable {α : Type}

/-- The entry at `k`. -/
def Table.read (dflt : Nat → α) : Table α → Nat → α
  | [], k => dflt k
  | (j, y) :: t, k => if j = k then y else Table.read dflt t k

/-- The table without the entries at `k`. -/
def Table.erase : Table α → Nat → Table α
  | [], _ => []
  | (j, y) :: t, k => if j = k then Table.erase t k else (j, y) :: Table.erase t k

/-- The pair `(k, x)` put before the first greater key. -/
def Table.insert (k : Nat) (x : α) : Table α → Table α
  | [] => [(k, x)]
  | (j, y) :: t => if j < k then (j, y) :: Table.insert k x t else (k, x) :: (j, y) :: t

/-- The table with `x` at `k`: writing what an unlisted key reads as removes the entry. -/
def Table.write [DecidableEq α] (dflt : Nat → α) (t : Table α) (k : Nat) (x : α) : Table α :=
  if x = dflt k then Table.erase t k else Table.insert k x (Table.erase t k)

/-- The table with the entry at every key below `n` replaced by `f` of the key and the entry, in ascending order. -/
def Table.updateBelow [DecidableEq α] (dflt : Nat → α) (f : Nat → α → α) : Nat → Table α → Table α
  | 0, t => t
  | n + 1, t =>
    let t' := Table.updateBelow dflt f n t
    Table.write dflt t' n (f n (Table.read dflt t' n))

/-- The key `j` is above `low`, if there is one. -/
def keyAbove (low : Option Nat) (j : Nat) : Bool :=
  match low with
  | none => true
  | some k => decide (k < j)

/-- Every key is above `low`, the keys rise strictly, and no entry is the default. -/
def Table.wfAbove [DecidableEq α] (dflt : Nat → α) (low : Option Nat) : Table α → Bool
  | [] => true
  | (j, y) :: t => keyAbove low j && decide (y ≠ dflt j) && Table.wfAbove dflt (some j) t

/-- The canonical form. -/
def Table.wf [DecidableEq α] (dflt : Nat → α) (t : Table α) : Bool := Table.wfAbove dflt none t

/-- The key of field `f` of entry `i` in a register file whose fields are numbered 0..255. -/
def regKey (i f : Nat) : Nat := i * 256 + f

end Sys2Proof.Machine
end

