-- ==== Sys2Proof/Machine/State.lean ====
section
/-!
DEFINITION. The state of EMUSC-CORE as plain data (10_state.md), why the machine may stop, and the state after hardware
reset (10_state.md R47, 70_reset_and_hazards.md R158). A register file holds, at the key of Machine/Table.lean's `regKey`,
the registers written since reset; an unlisted register reads as its reset value (Machine/Operands.lean, Machine/Ops.lean).
-/

namespace Sys2Proof.Machine

/-- A field of a descriptor table: its `written` bit and its data (10_state.md R32, R33). -/
structure Field where
  written : Bool
  data : Nat
deriving DecidableEq, Repr, Inhabited

/-- A sample bank: the `decoded` flag and the decoded elements (10_state.md R34). -/
structure Bank where
  decoded : Bool
  data : List F32
deriving DecidableEq, Repr, Inhabited

/-- The history of a biquad (40_decode_filters.md R79). -/
structure History where
  x1 : R
  x2 : R
  y1 : R
  y2 : R
deriving DecidableEq, Repr, Inhabited

/-- The key of the TVF coefficient cache: cutoff, quality and sample rate (10_state.md R42). -/
structure TvfKey where
  cutoff : R
  quality : R
  fs : Nat
deriving DecidableEq, Repr, Inhabited

/-- The TVF of a voice: history, coefficients, and the cache key or `none` (10_state.md R42). -/
structure Tvf where
  hist : History
  coeffs : Coeffs
  key : Option TvfKey
deriving DecidableEq, Repr, Inhabited

/-- The state of one voice slot (10_state.md R36 to R42). -/
structure Voice where
  /- status flags, R36 -/
  active : Bool
  finished : Bool
  releasing : Bool
  isLooping : Bool
  aborted : Bool
  /- latched from VS, R37 -/
  part : Nat
  key : Nat
  velocity : Nat
  drum : Bool
  map : Nat
  pan : Nat
  instTV : List Nat
  /- latched from PDT, R37 -/
  q : Nat
  coarsePitch : Nat
  finePitch : Nat
  pitchKeyFlw : Nat
  partialVolume : Nat
  tv : List Nat
  /- latched from SDT, R37 -/
  s : Nat
  sampleLen : Nat
  loopLen : Nat
  loopMode : Nat
  rootKey : Nat
  samplePitch : Nat
  sampleVolume : Nat
  fineVolume : Nat
  /- derived static values, R38 -/
  loopStart : Int
  loopEnd : Int
  keyShift : Int
  keyDiff : Int
  pkf : R
  cents : R
  staticPitch : R
  staticVolume : R
  /- oscillator, R39 -/
  phase : R
  refreshCnt : Nat
  pitchOffsetHz : R
  pitchExp : R
  /- envelope generators, R40 -/
  egTvp : EG
  egTvf : EG
  egTva : EG
  /- LFOs, R41: opaque values coded as natural numbers -/
  lfo1 : Nat
  lfo2 : Nat
  /- TVF, R42 -/
  tvf : Tvf
deriving DecidableEq, Repr, Inhabited

/-- The state of the machine. -/
structure State where
  /-- the command-stream position, R21 -/
  cp : Nat
  /-- the output sample rate, R22 -/
  fs : BitVec 32
  /-- the interpolation: 0 Nearest, 1 Linear, 2 Cubic, R23 -/
  interp : BitVec 2
  /-- the sticky fault register, R24 -/
  fault : BitVec 32
  /-- the record of the first fault, R25 -/
  faultCause : BitVec 8
  faultVoice : BitVec 8
  faultCmd : Word
  /-- the output stream, oldest first, R26 -/
  out : List (BitVec 16 × BitVec 16)
  /-- the response stream, oldest first, R26 -/
  resp : List Word
  /-- the system parameter registers, by id, R27 -/
  sys : Table Nat
  /-- the part parameter registers, by part and id, R28 -/
  part : Table Nat
  /-- `MATRIX`, by part; an entry lists destinations, each of them sources, R29 -/
  matrix : Table (List (List Int))
  /-- `PBF`, by part, R30 -/
  pbf : Table R
  /-- the drum table, by map·128 + key and field, R31 -/
  drum : Table Nat
  /-- the sample-descriptor table, by entry and field, R32 -/
  sdt : Table Field
  /-- the partial-descriptor table, by entry and field, R33 -/
  pdt : Table Field
  /-- the sample banks with their `decoded` flags, by sample, R34 -/
  bank : Table Bank
  /-- the voice setup registers, by voice and field, R35 -/
  vs : Table Nat
  /-- the voices, R36 to R42 -/
  voices : Table Voice
  /-- the parameters of the instance, which no step changes, R44 -/
  params : Params
  /-- the descrambled PCM ROM image, which no step changes, R44, R49 -/
  rom : List Host.Cell
  /-- the command words the port has accepted and the block has not executed, oldest first: the model's own field
  (20_memory.md R61, R63; log entry 10) -/
  port : List Word
deriving DecidableEq, Repr

/-- Why the machine stops. None of the spec's faults is one of these: those are recorded and the machine goes on
(60_exceptions.md R146, R147). -/
inductive Fault where
  /-- Raised by DECODE if it were to read the PCM ROM at or beyond `ROMSIZE`, an address that does not exist
  (20_memory.md R49). Safe: DECODE checks its range first (40_decode_filters.md R86), so no state raises it. -/
  | romOutside (address : Nat)
deriving DecidableEq, Repr

/-- Why an instruction is refused. -/
inductive Refusal where
  /-- Raised by exec's arm of an instruction that has no meaning yet. Safe. No arm of this model raises it. -/
  | notModelled (mnemonic : String)
deriving DecidableEq, Repr

/-- The fault causes (60_exceptions.md R144). -/
inductive Cause where
  | opcode
  | index
  | value
  | rsvd
  | unloaded
  | bankSel
  | romRange
  | noSample
  | loopGeom
  | busy
  | phase
  | numeric
deriving DecidableEq, Repr

/-- The state after hardware reset of the instance with the given parameters and ROM image (10_state.md R47). -/
def State.resetOf (params : Params) (rom : List Host.Cell) : State where
  cp := 0
  fs := 44100
  interp := 2
  fault := 0
  faultCause := 0
  faultVoice := 0xFF
  faultCmd := 0
  out := []
  resp := []
  sys := []
  part := []
  matrix := []
  pbf := []
  drum := []
  sdt := []
  pdt := []
  bank := []
  vs := []
  voices := []
  params := params
  rom := rom
  port := []

/-- The machine right after hardware reset, in the reference instance (log entry 1), with nothing listed in its ROM image
(log entry 7) and no command accepted. -/
def State.reset : State := State.resetOf referenceParams []

end Sys2Proof.Machine
end

