-- ==== Sys2Proof/Machine/Flags.lean ====
section
/-!
DEFINITION. The flag-like state: the bits of the FAULT register (10_state.md R24), the five status flags of a voice
(10_state.md R36), and the response words that report them (30_encoding.md R74, R75).
-/

namespace Sys2Proof.Machine

/-- The cause codes 1..12 (10_state.md R24, 60_exceptions.md R144). -/
def Cause.code : Cause → Nat
  | .opcode => 1
  | .index => 2
  | .value => 3
  | .rsvd => 4
  | .unloaded => 5
  | .bankSel => 6
  | .romRange => 7
  | .noSample => 8
  | .loopGeom => 9
  | .busy => 10
  | .phase => 11
  | .numeric => 12

/-- Code `c` corresponds to bit `c − 1` of FAULT (60_exceptions.md R144). -/
def Cause.bit (c : Cause) : BitVec 32 := 1#32 <<< (c.code - 1)

/-- A voice that ends: a completed TVA or a one-shot end (10_state.md R36, 43_oscillator.md R120, 44_envelopes.md R135). -/
def Voice.finish (v : Voice) : Voice := { v with finished := true, active := false }

/-- A voice that is aborted by a runtime fault (45_mixer.md R138). -/
def Voice.abort (v : Voice) : Voice := { v with aborted := true, active := false }

/-- What RESET does to a voice: every flag cleared, the TVA DONE at level 0.0, part and key 0 (41_parameters.md R94).
The other fields keep their values (log entry 16). -/
def Voice.softReset (v : Voice) : Voice :=
  { v with
    active := false, finished := false, releasing := false, isLooping := false, aborted := false
    egTva := { v.egTva with stage := .done, level := R.zero }
    part := 0, key := 0 }

/-- The RDVOICE word (30_encoding.md R74). -/
def Voice.statusWord (v : Voice) : Word :=
  v.egTva.level.toF32.bits ++ 0#8 ++ BitVec.ofNat 8 v.key ++ BitVec.ofNat 8 v.part
    ++ BitVec.ofNat 3 v.egTva.stage.code
    ++ BitVec.ofBool v.aborted ++ BitVec.ofBool v.isLooping ++ BitVec.ofBool v.releasing
    ++ BitVec.ofBool v.finished ++ BitVec.ofBool v.active

/-- The first RDFAULT word (30_encoding.md R75). -/
def State.faultWord (s : State) : Word := 0#16 ++ s.faultVoice ++ s.faultCause ++ s.fault

end Sys2Proof.Machine
end

