-- ==== Sys2Proof/Machine/Numerics.lean ====
section
/-!
DEFINITION. The real arithmetic of an instance (`NUMERICS`, 00_scope.md R14, R15): in the reference instance the
operations of Machine/Float.lean and correctly rounded `exp_R`, `pow2_R` and `sin_R`; in the n-th unknown instance the
uninterpreted constants of Config.lean. The reference transcendental functions compute a fixed-point approximation far
more precise than binary64 and round it once (log entry 5).
-/

namespace Sys2Proof

/-- The number of fraction bits of the fixed-point numbers below. -/
def fixBits : Nat := 320

/-- ln 2 · 2^320, rounded down. -/
def ln2Fixed : Nat :=
  0xb17217f7d1cf79abc9e3b39803f2f6af40f343267298b62d8a0d175b8baafa2be7b876206debac98

/-- The fraction bits with which 2π is held, enough to reduce every binary64 number by it. -/
def twoPiBits : Nat := 1400

/-- 2π · 2^1400, rounded down. -/
def twoPiFixed : Nat :=
  0x6487ed5110b4611a62633145c06e0e68948127044533e63a0105df531d89cd9128a5043cc71a026ef7ca8cd9e69d218d98158536f92f8a1ba7f09ab6b6a8e122f242dabb312f3f637a262174d31bf6b585ffae5b7a035bf6f71c35fdad44cfd2d74f9208be258ff324943328f6722d9ee1003e5c50b1df82cc6d241b0e2ae9cd348b1fd47e9267afc1b2ae91ee51d6cb0e3179ab1042a95dcf6a9483b84b4b36b3861aa7255e4c0278ba3604650c10a

/-- `m · 2^e` in fixed point with `k` fraction bits, rounded down. -/
def toFixed (k m : Nat) (e : Int) : Nat :=
  let sh := e + Int.ofNat k
  if 0 ≤ sh then m <<< sh.toNat else m >>> (-sh).toNat

/-- The terms `term`, `term·r/k`, `term·r²/(k·(k+1))`, … of an exponential series, added to `acc`. -/
def expTerms : Nat → Nat → Nat → Nat → Nat → Nat
  | 0, _, _, _, acc => acc
  | fuel + 1, k, term, r, acc =>
    let t := ((term * r) >>> fixBits) / k
    expTerms fuel (k + 1) t r (acc + t)

/-- e^r in fixed point, for 0 ≤ r < 1: the series to its 80th term, below the last fraction bit. -/
def expFixed (r : Nat) : Nat := expTerms 80 1 (Nat.pow 2 fixBits) r (Nat.pow 2 fixBits)

/-- Whole part and remainder of ±x by `unit`: `±x = n·unit + r` with `0 ≤ r < unit`. -/
def splitFixed (neg : Bool) (x unit : Nat) : Int × Nat :=
  let q := x / unit
  let r := x % unit
  if neg then (if r = 0 then (-Int.ofNat q, 0) else (-Int.ofNat (q + 1), unit - r)) else (Int.ofNat q, r)

/-- e^x, correctly rounded; exactly 1 at ±0 (00_scope.md R15, 92_eei_decisions.md D7). From 2^10 on the result has
overflowed or vanished. -/
def R.exp (x : R) : R :=
  match x.unpack with
  | .nan => R.nan
  | .inf neg => if neg then R.zero else R.inf false
  | .fin neg m e =>
    if m = 0 then R.one
    else if 10 ≤ e + Int.ofNat (Nat.log2 m) then (if neg then R.zero else R.inf false)
    else
      let (n, r) := splitFixed neg (toFixed fixBits m e) ln2Fixed
      R.ofDyadic false (expFixed r) (n - Int.ofNat fixBits)

/-- 2^x, correctly rounded; exact at every integer (00_scope.md R15). From 2^11 on the result has overflowed or
vanished. -/
def R.pow2 (x : R) : R :=
  match x.unpack with
  | .nan => R.nan
  | .inf neg => if neg then R.zero else R.inf false
  | .fin neg m e =>
    if m = 0 then R.one
    else if 11 ≤ e + Int.ofNat (Nat.log2 m) then (if neg then R.zero else R.inf false)
    else
      let (n, f) := splitFixed neg (toFixed fixBits m e) (Nat.pow 2 fixBits)
      R.ofDyadic false (expFixed ((f * ln2Fixed) >>> fixBits)) (n - Int.ofNat fixBits)

/-- The terms of the sine series with alternating signs, added to `acc`: each term is the one before it times
−r²/((k+1)(k+2)). -/
def sinTerms : Nat → Nat → Nat → Nat → Bool → Int → Int
  | 0, _, _, _, _, acc => acc
  | fuel + 1, k, term, r, sub, acc =>
    let t := ((((term * r) >>> twoPiBits) * r) >>> twoPiBits) / ((k + 1) * (k + 2))
    sinTerms fuel (k + 2) t r (!sub) (if sub then acc - Int.ofNat t else acc + Int.ofNat t)

/-- sin x, correctly rounded (00_scope.md R15); below 2^−27 it is x itself. -/
def R.sin (x : R) : R :=
  match x.unpack with
  | .nan => R.nan
  | .inf _ => R.nan
  | .fin neg m e =>
    if m = 0 then x
    else if e + Int.ofNat (Nat.log2 m) < -27 then x
    else
      let r := toFixed twoPiBits m e % twoPiFixed
      let v := sinTerms 240 1 r r true (Int.ofNat r)
      R.ofDyadic (neg != decide (v < 0)) v.natAbs (-Int.ofNat twoPiBits)

/-- The binary64 value nearest ln 2 (00_scope.md R15). -/
def LN2 : R := ⟨0x3FE62E42FEFA39EF#64⟩

/-- The binary64 value nearest π (00_scope.md R15). -/
def PI : R := ⟨0x400921FB54442D18#64⟩

/-! ### The operations of an instance -/

/-- One operand is a zero and neither is an infinity or a NaN: a sum, difference or product of the two is exact. -/
def exactAtZero (x y : R) : Bool := (x.isZero && y.isFinite) || (y.isZero && x.isFinite)

/-- `x + y`. Every instance gives the exact result where an operand is zero (log entry 3). -/
def Numerics.add (N : Numerics) (x y : R) : R :=
  match N with
  | .reference => R.add x y
  | .other n => if exactAtZero x y then R.add x y else Config.numAdd n x y

/-- `x − y` -/
def Numerics.sub (N : Numerics) (x y : R) : R :=
  match N with
  | .reference => R.sub x y
  | .other n => if exactAtZero x y then R.sub x y else Config.numSub n x y

/-- `x · y` -/
def Numerics.mul (N : Numerics) (x y : R) : R :=
  match N with
  | .reference => R.mul x y
  | .other n => if exactAtZero x y then R.mul x y else Config.numMul n x y

/-- `x / y`. Every instance gives zero where a zero is divided by a finite number that is not zero (log entry 3). -/
def Numerics.div (N : Numerics) (x y : R) : R :=
  match N with
  | .reference => R.div x y
  | .other n => if x.isZero && y.isFinite && !y.isZero then R.div x y else Config.numDiv n x y

/-- `exp_R(x)`: e^x. Every instance keeps `exp_R(±0) = 1` (41_parameters.md R92, 92_eei_decisions.md D7). -/
def Numerics.exp (N : Numerics) (x : R) : R :=
  match N with
  | .reference => R.exp x
  | .other n => if R.eqv x R.zero then R.one else Config.numExp n x

/-- `pow2_R(x)`: 2^x. -/
def Numerics.pow2 (N : Numerics) (x : R) : R :=
  match N with
  | .reference => R.pow2 x
  | .other n => Config.numPow2 n x

/-- `sin_R(x)`, for an LFO configuration to use; the reference LFO uses none (00_scope.md R15, 44_envelopes.md R127). -/
def Numerics.sin (N : Numerics) (x : R) : R :=
  match N with
  | .reference => R.sin x
  | .other n => Config.numSin n x

end Sys2Proof
end

