-- ==== Sys2Proof/Machine/Operands.lean ====
section
/-!
DEFINITION. What the field id `a` of a command selects (30_encoding.md R73): for each register file and descriptor table
the ids that are assigned, the greatest legal value of each, and its reset value (10_state.md R27, R28, R31, R32, R33,
R35). `none` is an id that is not assigned: a command that names it faults with F_INDEX.
-/

namespace Sys2Proof.Machine

/-! ### System parameters, R27 -/

/-- The greatest legal value of system parameter `id`. -/
def sysMax (id : Nat) : Option Nat :=
  if id = 0 then some 0xFFFF else if id ≤ 3 then some 127 else none

/-- The reset column: SystemTune 0x0400, MasterVolume 127, SystemKeyShift 0x40, MasterPan 0x40. -/
def sysReset (id : Nat) : Nat :=
  if id = 0 then 0x0400 else if id = 1 then 127 else if id ≤ 3 then 0x40 else 0

/-! ### Part parameters, R28 -/

/-- `bias[d]`: 0x40 on the pitch, cutoff, amplitude and rate destinations, 0 on the depth destinations
(41_parameters.md R89). -/
def bias (d : Nat) : Nat :=
  if d ≤ 3 ∨ d = 7 then 0x40 else 0

/-- The id of `DEPTH[s][d]`. -/
def depthId (s d : Nat) : Nat := 0x40 + 16 * s + d

/-- Whether `id` is one of the depth registers, s = 0..5 and d = 0..10. -/
def isDepthId (id : Nat) : Bool :=
  decide (0x40 ≤ id ∧ (id - 0x40) / 16 ≤ 5 ∧ (id - 0x40) % 16 ≤ 10)

/-- The greatest legal value of part parameter `id`. -/
def partMax (id : Nat) : Option Nat :=
  if id = 0x02 then some 0xFFFF
  else if id = 0x03 then some 0xFF
  else if id ≤ 0x1A then some 127
  else if id = 0x21 then some 16383
  else if 0x20 ≤ id ∧ id ≤ 0x25 then some 127
  else if isDepthId id then some 127
  else none

/-- The reset column of R28. -/
def partReset (id : Nat) : Nat :=
  if id = 0x02 then 0x4000
  else if id = 0x03 then 0x80
  else if id = 0x10 then 100
  else if id = 0x11 then 127
  else if id ≤ 0x1A then 0x40
  else if id = 0x21 then 8192
  else if isDepthId id then bias ((id - 0x40) % 16)
  else 0

/-- The ids of the part parameters, ascending. -/
def partIds : List Nat := (List.range 256).filter fun id => (partMax id).isSome

/-- Whether `id` is one of the six controller values, whose writes recompute the matrix (41_parameters.md R98). -/
def isControllerId (id : Nat) : Bool := decide (0x20 ≤ id ∧ id ≤ 0x25)

/-! ### The drum table, R31: field 0 is PlayKeyNumber, field 1 is RxNoteOff -/

def drumMax (field : Nat) : Option Nat :=
  if field = 0 then some 127 else if field = 1 then some 1 else none

/-- PlayKeyNumber of key `k` resets to `k`, RxNoteOff to 1. -/
def drumReset (key field : Nat) : Nat :=
  if field = 0 then key else if field = 1 then 1 else 0

/-! ### Sample descriptors, R32: address, sampleLen, loopLen, loopMode, rootKey, pitch, volume, fineVolume -/

def sdtMax (field : Nat) : Option Nat :=
  if field ≤ 2 then some 0xFFFFFF
  else if field = 3 then some 2
  else if field = 4 then some 127
  else if field = 5 then some 0xFFFF
  else if field = 6 then some 127
  else if field = 7 then some 0xFFFF
  else none

/-! ### Partial descriptors, R33: coarsePitch, finePitch, pitchKeyFlw, volume, breaks, samples, tv -/

def pdtMax (ntv field : Nat) : Option Nat :=
  if field ≤ 3 then some 127
  else if 0x10 ≤ field ∧ field ≤ 0x1F then some 127
  else if 0x20 ≤ field ∧ field ≤ 0x2F then some 0xFFFF
  else if 0x40 ≤ field ∧ field < 0x40 + ntv then some 0xFF
  else none

/-- Every field that must be written before the entry is loaded. -/
def pdtFields (ntv : Nat) : List Nat :=
  List.range 4 ++ (List.range 32).map (0x10 + ·) ++ (List.range ntv).map (0x40 + ·)

/-! ### Voice setup registers, R35: part, key, velocity, flags, instVolume, pan, instTV -/

def vsMax (p : Params) (field : Nat) : Option Nat :=
  if field = 0 then some (p.nPart - 1)
  else if field = 3 then some 3
  else if field ≤ 5 then some 127
  else if 0x10 ≤ field ∧ field < 0x10 + p.nit then some 0xFF
  else none

/-- The reset column of R35. -/
def vsReset (field : Nat) : Nat :=
  if field = 0 then 0
  else if field = 1 then 60
  else if field = 2 then 127
  else if field = 3 then 0
  else if field = 4 then 127
  else if field = 5 then 64
  else 0

end Sys2Proof.Machine
end

