-- ==== Sys2Proof/Machine/Ops.lean ====
section
/-!
DEFINITION. The named operations every meaning is written over: reading and writing each piece of state, the PCM ROM and
the sample banks (20_memory.md), the streams, and taking a fault (60_exceptions.md R146, R147). There is no return from a
fault (60_exceptions.md R148): the next command simply runs.
-/

namespace Sys2Proof.Machine

/-! ### Register files -/

/-- `SYS[id]` -/
def State.sysReg (s : State) (id : Nat) : Nat := Table.read sysReset s.sys id

def State.setSysReg (s : State) (id x : Nat) : State := { s with sys := Table.write sysReset s.sys id x }

/-- `PART[p][id]` -/
def State.partReg (s : State) (p id : Nat) : Nat := Table.read (fun k => partReset (k % 256)) s.part (regKey p id)

def State.setPartReg (s : State) (p id x : Nat) : State :=
  { s with part := Table.write (fun k => partReset (k % 256)) s.part (regKey p id) x }

/-- The registers of part `p`, in the order of their ids: what an open function of `PART[p]` reads. -/
def State.partRegs (s : State) (p : Nat) : List Nat := partIds.map fun id => s.partReg p id

/-- What an unlisted drum-table register reads as. -/
def drumDefault (k : Nat) : Nat := drumReset (k / 256 % 128) (k % 256)

/-- `DT[m][k]`: field 0 is PlayKeyNumber, field 1 is RxNoteOff. -/
def State.drumReg (s : State) (m k field : Nat) : Nat := Table.read drumDefault s.drum (regKey (m * 128 + k) field)

def State.setDrumReg (s : State) (m k field x : Nat) : State :=
  { s with drum := Table.write drumDefault s.drum (regKey (m * 128 + k) field) x }

/-- `VS[v][field]` -/
def State.vsReg (s : State) (v field : Nat) : Nat := Table.read (fun k => vsReset (k % 256)) s.vs (regKey v field)

def State.setVsReg (s : State) (v field x : Nat) : State :=
  { s with vs := Table.write (fun k => vsReset (k % 256)) s.vs (regKey v field) x }

/-! ### Descriptor tables -/

/-- A field that has not been written. Its data is never read (10_state.md R46; log entry 14). -/
def unwritten (_ : Nat) : Field := { written := false, data := 0 }

/-- `SDT[s][field]` with its written bit -/
def State.sdtField (s : State) (i field : Nat) : Field := Table.read unwritten s.sdt (regKey i field)

/-- `SDT[s][field]` -/
def State.sdtData (s : State) (i field : Nat) : Nat := (s.sdtField i field).data

def State.setSdtField (s : State) (i field x : Nat) : State :=
  { s with sdt := Table.write unwritten s.sdt (regKey i field) { written := true, data := x } }

/-- An SDT entry is loaded when all eight written bits are set (10_state.md R32). -/
def State.sdtLoaded (s : State) (i : Nat) : Bool := (List.range 8).all fun f => (s.sdtField i f).written

/-- `PDT[q][field]` with its written bit -/
def State.pdtField (s : State) (q field : Nat) : Field := Table.read unwritten s.pdt (regKey q field)

/-- `PDT[q][field]` -/
def State.pdtData (s : State) (q field : Nat) : Nat := (s.pdtField q field).data

def State.setPdtField (s : State) (q field x : Nat) : State :=
  { s with pdt := Table.write unwritten s.pdt (regKey q field) { written := true, data := x } }

/-- A PDT entry is loaded when fields 0..3, all breaks, all samples and all `NTV` tv bytes are written (10_state.md R33). -/
def State.pdtLoaded (s : State) (q : Nat) : Bool :=
  (pdtFields s.params.ntv).all fun f => (s.pdtField q f).written

/-! ### Derived per-part values -/

/-- The all-zero controller matrix (10_state.md R29). -/
def zeroMatrix (_ : Nat) : List (List Int) := List.replicate 11 (List.replicate 6 0)

/-- `MATRIX[p][d][src]` -/
def State.matrixEntry (s : State) (p d src : Nat) : Int :=
  ((Table.read zeroMatrix s.matrix p).getD d []).getD src 0

def State.setMatrix (s : State) (p : Nat) (m : List (List Int)) : State :=
  { s with matrix := Table.write zeroMatrix s.matrix p m }

/-- `PBF[p]`; it resets to 1.0 (10_state.md R30). -/
def State.pbfOf (s : State) (p : Nat) : R := Table.read (fun _ => R.one) s.pbf p

def State.setPbf (s : State) (p : Nat) (x : R) : State :=
  { s with pbf := Table.write (fun _ => R.one) s.pbf p x }

/-! ### Voices -/

/-- A biquad history of zeros (40_decode_filters.md R79). -/
def History.zero : History := { x1 := R.zero, x2 := R.zero, y1 := R.zero, y2 := R.zero }

/-- A generator that has not been started: DONE at level 0.0, which the spec gives for the TVA (10_state.md R40). -/
def EG.idle : EG := { stage := .done, level := R.zero, aux := 0 }

/-- A voice slot after hardware reset: the flags, the TVA's stage and level, part and key as 10_state.md R47 gives them,
every field the spec leaves unspecified at zero (log entry 15). -/
def Voice.reset : Voice where
  active := false
  finished := false
  releasing := false
  isLooping := false
  aborted := false
  part := 0
  key := 0
  velocity := 0
  drum := false
  map := 0
  pan := 0
  instTV := []
  q := 0
  coarsePitch := 0
  finePitch := 0
  pitchKeyFlw := 0
  partialVolume := 0
  tv := []
  s := 0
  sampleLen := 0
  loopLen := 0
  loopMode := 0
  rootKey := 0
  samplePitch := 0
  sampleVolume := 0
  fineVolume := 0
  loopStart := 0
  loopEnd := 0
  keyShift := 0
  keyDiff := 0
  pkf := R.zero
  cents := R.zero
  staticPitch := R.zero
  staticVolume := R.zero
  phase := R.zero
  refreshCnt := 0
  pitchOffsetHz := R.zero
  pitchExp := R.zero
  egTvp := EG.idle
  egTvf := EG.idle
  egTva := EG.idle
  lfo1 := 0
  lfo2 := 0
  tvf := { hist := History.zero
           coeffs := { n0 := R.zero, n1 := R.zero, n2 := R.zero, d1 := R.zero, d2 := R.zero }
           key := none }

/-- `V[v]` -/
def State.voice (s : State) (v : Nat) : Voice := Table.read (fun _ => Voice.reset) s.voices v

def State.setVoice (s : State) (v : Nat) (x : Voice) : State :=
  { s with voices := Table.write (fun _ => Voice.reset) s.voices v x }

/-- Some voice slot below `NV` holds an active voice with the property. -/
def State.someActive (s : State) (p : Voice → Bool) : Bool :=
  (List.range s.params.nv).any fun v => (s.voice v).active && p (s.voice v)

/-- `V[v].EG[g]` -/
def Voice.eg (v : Voice) : Gen → EG
  | .tvp => v.egTvp
  | .tvf => v.egTvf
  | .tva => v.egTva

def Voice.setEg (v : Voice) (g : Gen) (e : EG) : Voice :=
  match g with
  | .tvp => { v with egTvp := e }
  | .tvf => { v with egTvf := e }
  | .tva => { v with egTva := e }

/-! ### The PCM ROM and the sample banks (20_memory.md R48 to R51) -/

/-- What an unlisted ROM address reads as (log entry 7). -/
def romDefault (_ : Nat) : Byte := 0

/-- The ROM image is in canonical form and lies inside the ROM space. -/
def Memory.wf (romSize : Nat) (rom : List Host.Cell) : Bool :=
  Table.wf romDefault rom && rom.all fun c => decide (c.1 < romSize)

/-- `MemRead(a, 1)`: one byte of the PCM ROM space. An address at or beyond `ROMSIZE` does not exist. -/
def State.romRead (s : State) (a : Nat) : Except Fault Byte :=
  if a < s.params.romSize then .ok (Table.read romDefault s.rom a) else .error (.romOutside a)

/-- The state whose ROM image holds `x` at `a`. No command does this: the image is a parameter, and this is how one is
built (10_state.md R44). An address that does not exist takes no byte. -/
def State.withRomByte (s : State) (a : Nat) (x : Byte) : State :=
  if a < s.params.romSize then { s with rom := Table.write romDefault s.rom a x } else s

/-- A bank after hardware reset: not decoded, no element written (10_state.md R34). -/
def emptyBank (_ : Nat) : Bank := { decoded := false, data := [] }

/-- `BANK[s]` with its `decoded` flag -/
def State.bankOf (s : State) (i : Nat) : Bank := Table.read emptyBank s.bank i

def State.setBank (s : State) (i : Nat) (b : Bank) : State := { s with bank := Table.write emptyBank s.bank i b }

/-- `BankRead(s, k)`: element `k`, exactly converted. An element no DECODE has written has unspecified data (10_state.md
R34; log entry 9). -/
def State.bankRead (s : State) (i k : Nat) : R :=
  ((s.bankOf i).data.getD k (Config.bankUnspecified i k)).toR

/-! ### The streams (10_state.md R26) -/

/-- `emitResp(w)` -/
def State.emitResp (s : State) (w : Word) : State := { s with resp := s.resp ++ [w] }

/-- `emitFrame(L, R)` -/
def State.emitFrame (s : State) (l r : BitVec 16) : State := { s with out := s.out ++ [(l, r)] }

/-! ### Faults -/

/-- `record(c, voice, w)`: the first fault since the last reset is kept, every fault sets its bit
(60_exceptions.md R146). -/
def record (c : Cause) (voice : BitVec 8) (w : Word) (s : State) : State :=
  { s with
    fault := s.fault ||| c.bit
    faultCause := if s.fault = 0 then BitVec.ofNat 8 c.code else s.faultCause
    faultVoice := if s.fault = 0 then voice else s.faultVoice
    faultCmd := if s.fault = 0 then w else s.faultCmd }

/-- Taking a command fault, `raise Fault(c, w)`: the fault is recorded with voice 0xFF, the command is abandoned, and
`cp` advances (60_exceptions.md R146, R147). -/
def raise (c : Cause) (w : Word) (s : State) : State :=
  let t := record c 0xFF w s
  { t with cp := t.cp + 1 }

/-- The end of a command `w` that started in `s`: its effect and `cp <- cp + 1`, or the fault it raises. -/
def finishCommand (w : Word) (s : State) : Except Cause State → Host.Outcome State Fault Refusal
  | .ok t => .next { t with cp := t.cp + 1 }
  | .error c => .next (raise c w s)

/-- The two checks of a write to a register or table field: an id that is not assigned faults with F_INDEX, a value above
the greatest legal one with F_VALUE (60_exceptions.md R145). -/
def checkField (limit : Option Nat) (value : Nat) (effect : State) : Except Cause State :=
  match limit with
  | none => .error .index
  | some m => if m < value then .error .value else .ok effect

end Sys2Proof.Machine
end

