-- ==== Sys2Proof/Machine/Faults.lean ====
section
/-!
DEFINITION. The command that reports the fault state (60_exceptions.md R149). Recording and taking a fault are in
Machine/Ops.lean.
-/

namespace Sys2Proof.Machine

/-- RDFAULT: report the fault state; the record does not change (R149). -/
def execRdfault (s : State) : Host.Outcome State Fault Refusal :=
  finishCommand (encode .rdfault) s (.ok ((s.emitResp s.faultWord).emitResp s.faultCmd))

end Sys2Proof.Machine
end

