-- ==== Sys2Proof/Machine/Reference.lean ====
section
/-!
DEFINITION. The functions the spec leaves open (00_scope.md R7), each with its reference instance (`T0`, 44_envelopes.md
R136, and the references of the other rules) and the unknown ones. Where the spec constrains every value of a function
(44_envelopes.md R126, 92_eei_decisions.md section 2), an unknown function's value is kept if it meets the constraint and
replaced by one that does if it does not, the reference's or, for a refresh, `settledRefresh`: every function that meets
the constraint is some unknown function, and no other is one (log entry 2).
-/

namespace Sys2Proof.Machine

/-- A value of an unknown function that meets its constraint, or the value that stands for one that does not. -/
def orReference {α : Type} (legal : Bool) (candidate reference : α) : α := if legal then candidate else reference

/-! ### Controller matrix: SRCVAL and MTAB (41_parameters.md R90, R91) -/

/-- The register of controller source `src` (41_parameters.md R88). -/
def sourceId (src : Nat) : Nat := 0x20 + src

/-- `SRCVAL(src, PART[p])`. Reference: the source register, and PitchBend >> 7 for source 1. -/
def srcVal (s : State) (p src : Nat) : Int :=
  match s.params.srcVal with
  | .reference => if src = 1 then Int.ofNat (s.partReg p 0x21 >>> 7) else Int.ofNat (s.partReg p (sourceId src))
  | .other n => Config.srcVal n src (s.partRegs p)

/-- `MTAB.scale[d]`, one of 1, 2 and 4. Reference: 1. -/
def mTabScale (c : Choice) (d : Nat) : Nat :=
  match c with
  | .reference => 1
  | .other n =>
    let k := Config.mTabScale n d
    orReference (k == 1 || k == 2 || k == 4) k 1

/-- `MTAB.limit[d]`. Reference: 2^31 − 1. -/
def mTabLimit (c : Choice) (d : Nat) : Nat :=
  match c with
  | .reference => 0x7FFFFFFF
  | .other n => Config.mTabLimit n d

/-- `MTAB.gain[d]`. Reference: 0x10000. -/
def mTabGain (c : Choice) (d : Nat) : Nat :=
  match c with
  | .reference => 0x10000
  | .other n => Config.mTabGain n d

/-! ### Volume, gain and pan laws -/

/-- `FINEVOL(vol, fv)`, finite. Reference: `toR(vol) + toR(fv − 1024) / 1000` (42_voice.md R108). -/
def fineVolRef (N : Numerics) (vol fv : Nat) : R :=
  N.add (R.ofInt vol) (N.div (R.ofInt (Int.ofNat fv - 1024)) (R.ofInt 1000))

def fineVol (p : Params) (vol fv : Nat) : R :=
  match p.fineVol with
  | .reference => fineVolRef p.numerics vol fv
  | .other n => let x := Config.fineVol n vol fv; orReference x.isFinite x (fineVolRef p.numerics vol fv)

/-- `PANMAP(b, pp)`, in [0, 1]. Reference: `toR(min(max(b + pp − 64, 0), 127)) / 127` (44_envelopes.md R134). -/
def panMapRef (N : Numerics) (b pp : Nat) : R :=
  N.div (R.ofInt (min (max (Int.ofNat b + Int.ofNat pp - 64) 0) 127)) (R.ofInt 127)

def panMap (p : Params) (b pp : Nat) : R :=
  match p.panMap with
  | .reference => panMapRef p.numerics b pp
  | .other n =>
    let x := Config.panMap n b pp
    orReference (R.le R.zero x && R.le x R.one) x (panMapRef p.numerics b pp)

/-- `PARTGAIN(p)`, finite. Reference: `(toR(Volume) / 127) · (toR(Expression) / 127)` (45_mixer.md R139). -/
def partGainRef (s : State) (p : Nat) : R :=
  let N := s.params.numerics
  N.mul (N.div (R.ofInt (s.partReg p 0x10)) (R.ofInt 127)) (N.div (R.ofInt (s.partReg p 0x11)) (R.ofInt 127))

def partGain (s : State) (p : Nat) : R :=
  match s.params.partGain with
  | .reference => partGainRef s p
  | .other n => let x := Config.partGain n (s.partRegs p); orReference x.isFinite x (partGainRef s p)

/-- What every `MPAN` keeps: finite results for finite arguments, and silence for silence, since a frame with no active
voice emits (0, 0) (92_eei_decisions.md D26, D49; log entry 2). -/
def legalPan (l r : R) (x : R × R) : Bool :=
  (!(l.isFinite && r.isFinite) || (x.1.isFinite && x.2.isFinite)) &&
    (!(l.isZero && r.isZero) || (x.1.isZero && x.2.isZero))

/-- `MPAN(L, R, MasterPan)`. Reference: the identity (45_mixer.md R141). -/
def mPan (c : Choice) (l r : R) (masterPan : Nat) : R × R :=
  match c with
  | .reference => (l, r)
  | .other n => let x := Config.mPan n l r masterPan; orReference (legalPan l r x) x (l, r)

/-! ### Envelope generators: ENV (44_envelopes.md R125, R126) -/

/-- A level every legal `ENV` may give generator `g`: finite, and not negative for the TVA (R125, R126.6). -/
def legalLevel (g : Gen) (x : R) : Bool := x.isFinite && (g != .tva || R.le R.zero x)

/-- R126.1: a generator starts in ATTACK, DECAY, APPROACH or SUSTAIN. -/
def legalInit (g : Gen) (e : EG) : Bool := decide (e.stage.code ≤ 3) && legalLevel g e.level

/-- R126.2 and R126.4: forward along ATTACK → DECAY → APPROACH → SUSTAIN, from RELEASE to DONE, DONE absorbing. -/
def forwardMove (old new : Stage) : Bool :=
  match old with
  | .release => new == .release || new == .done
  | .done => new == .done
  | _ => decide (old.code ≤ new.code) && decide (new.code ≤ 3)

/-- R126.5: the TVA enters DONE only from RELEASE and with level 0.0. -/
def tvaDoneAtZero (g : Gen) (old new : EG) : Bool :=
  g != .tva || old.stage == .done || new.stage != .done || new.level == R.zero

/-- R126.5: the TVA is not in RELEASE with a level at or below 0, as every tick and every
refresh of an unknown `ENV` leaves it (log entry 19). -/
def tvaReleasePositive (g : Gen) (new : EG) : Bool :=
  g != .tva || new.stage != .release || R.lt R.zero new.level

/-- R126.5: a TVA that a tick or a refresh finds in RELEASE with a level at or below 0 enters DONE (log entry 19). -/
def tvaReleaseEnds (g : Gen) (old new : EG) : Bool := tvaReleasePositive g old || new.stage == .done

/-- What a legal `ENV.refresh` or `ENV.tick` may answer (R126.2, R126.4 to R126.6). -/
def legalMove (g : Gen) (old new : EG) : Bool :=
  forwardMove old.stage new.stage && legalLevel g new.level && tvaDoneAtZero g old new && tvaReleaseEnds g old new &&
    tvaReleasePositive g new

/-- What a legal `ENV.release` may answer from a stage other than RELEASE and DONE (R126.3). -/
def legalRelease (g : Gen) (new : EG) : Bool := new.stage == .release && legalLevel g new.level

/-- `T0`: SUSTAIN, the TVA at level 1.0, the others at 0.0. -/
def t0Init (g : Gen) : EG :=
  { stage := .sustain, level := if g = .tva then R.one else R.zero, aux := 0 }

/-- `T0`: in RELEASE, stage DONE, and level 0.0 for the TVA; otherwise no change. -/
def t0Tick (g : Gen) (e : EG) : EG :=
  if e.stage = .release then { e with stage := .done, level := if g = .tva then R.zero else e.level } else e

/-- The refresh kept where an unknown `ENV.refresh` is not legal: no change, but a TVA in RELEASE with a level at or below
0 enters DONE with level 0.0 (R126.5; log entry 19). Under `T0` no TVA is in RELEASE at such a level. -/
def settledRefresh (g : Gen) (e : EG) : EG :=
  if tvaReleasePositive g e then e else { e with stage := .done, level := R.zero }

/-- `T0`: stage RELEASE. -/
def t0Release (e : EG) : EG := { e with stage := .release }

/-- `ENV.init(g, v)` -/
def envInit (c : Choice) (g : Gen) (i : EnvInputs) : EG :=
  match c with
  | .reference => t0Init g
  | .other n => let x := Config.envInit n g i; orReference (legalInit g x) x (t0Init g)

/-- `ENV.refresh(g, v)`. `T0`: no change. -/
def envRefresh (c : Choice) (g : Gen) (i : EnvInputs) (e : EG) : EG :=
  match c with
  | .reference => e
  | .other n => let x := Config.envRefresh n g i e; orReference (legalMove g e x) x (settledRefresh g e)

/-- `ENV.tick(g, v)` -/
def envTick (c : Choice) (g : Gen) (i : EnvInputs) (e : EG) : EG :=
  match c with
  | .reference => t0Tick g e
  | .other n => let x := Config.envTick n g i e; orReference (legalMove g e x) x (t0Tick g e)

/-- `ENV.release(g, v)`: from RELEASE or DONE it changes nothing (R126.3). -/
def envRelease (c : Choice) (g : Gen) (i : EnvInputs) (e : EG) : EG :=
  if e.stage = .release ∨ e.stage = .done then e
  else
    match c with
    | .reference => t0Release e
    | .other n => let x := Config.envRelease n g i e; orReference (legalRelease g x) x (t0Release e)

/-- `ENV.tvpPitch(v)`: any real, also a negative or non-finite one (44_envelopes.md R129). `T0`: 1.0. -/
def envTvpPitch (c : Choice) (i : EnvInputs) (e : EG) : R :=
  match c with
  | .reference => R.one
  | .other n => Config.envTvpPitch n i e

/-- `ENV.tvfEnv(v)` in Hz. `T0`: 0.0. -/
def envTvfEnv (c : Choice) (i : EnvInputs) (e : EG) : R :=
  match c with
  | .reference => R.zero
  | .other n => Config.envTvfEnv n i e

/-! ### LFO (44_envelopes.md R127). `T0`: no state, output 0.0. -/

/-- `LFO.init(v)` for LFO `l`. This and the other functions of `LFO` read the inputs of R124 but no LFO output: R124 lists
the two LFO outputs among the generators' inputs and R128 counts the LFOs among the generators, and that no LFO reads the
other's output is the model's choice (DESIGN CHOICE; log entry 30). -/
def lfoInit (c : Choice) (l : LfoId) (i : VoiceInputs) : Nat :=
  match c with
  | .reference => 0
  | .other n => Config.lfoInit n l i

/-- `LFO.refresh(n, v)`; `x` is the state of the LFO. -/
def lfoRefresh (c : Choice) (l : LfoId) (i : VoiceInputs) (x : Nat) : Nat :=
  match c with
  | .reference => x
  | .other n => Config.lfoRefresh n l i x

/-- `LFO.tick(n, v)` -/
def lfoTick (c : Choice) (l : LfoId) (i : VoiceInputs) (x : Nat) : Nat :=
  match c with
  | .reference => x
  | .other n => Config.lfoTick n l i x

/-- `LFO.out(n, v)`, finite. -/
def lfoOut (c : Choice) (l : LfoId) (i : VoiceInputs) (x : Nat) : R :=
  match c with
  | .reference => R.zero
  | .other n => let y := Config.lfoOut n l i x; orReference y.isFinite y R.zero

/-! ### TVFMAP (44_envelopes.md R130) -/

/-- `TVFMAP.base(v)` in Hz, from `PART[p].TVFCutoff`, the partial and instrument bytes and `modAcc(p, 1)`. `T0`: 8000.0. -/
def tvfBase (c : Choice) (cutoff : Nat) (tv instTV : List Nat) (modCutoff : Int) : R :=
  match c with
  | .reference => R.ofInt 8000
  | .other n => Config.tvfBase n cutoff tv instTV modCutoff

/-- `TVFMAP.depth1(v)` in Hz, from `modAcc(p, 5)`. `T0`: 0.0. -/
def tvfDepth1 (c : Choice) (modDepth : Int) : R :=
  match c with
  | .reference => R.zero
  | .other n => Config.tvfDepth1 n modDepth

/-- `TVFMAP.depth2(v)` in Hz, from `modAcc(p, 9)`. `T0`: 0.0. -/
def tvfDepth2 (c : Choice) (modDepth : Int) : R :=
  match c with
  | .reference => R.zero
  | .other n => Config.tvfDepth2 n modDepth

/-- `T0`: 0.7071067811865476. -/
def tvfQRef : R := ⟨0x3FE6A09E667F3BCD#64⟩

/-- `TVFMAP.q(v)`, from `PART[p].TVFResonance`: positive and finite in every instance, as R130 says. That this holds of
every `TVFMAP`, and not only of a well-behaved one, is the model's reading (DEDUCED; log entry 27): 92_eei_decisions.md
section 2 says "for a well-behaved filter", and 93_implementation_defined.md U17 speaks of `q = 0` or a non-finite one. -/
def tvfQ (c : Choice) (resonance : Nat) : R :=
  match c with
  | .reference => tvfQRef
  | .other n => let x := Config.tvfQ n resonance; orReference (R.lt R.zero x && x.isFinite) x tvfQRef

end Sys2Proof.Machine
end

