-- ==== Sys2Proof/Machine/Filters.lean ====
section
/-!
DEFINITION. The biquad, the low-pass coefficients, the RIAA de-emphasis cascade, the PCM expansion, and the DECODE command
(40_decode_filters.md).
-/

namespace Sys2Proof.Machine

/-! ### The biquad (R79, R80) -/

/-- `apply(B, x)`: the output sample and the new history. The products are rounded, then the sums left to right. -/
def biquad (N : Numerics) (c : Coeffs) (h : History) (x : R) : R × History :=
  let y := N.sub (N.sub (N.add (N.add (N.mul c.n0 x) (N.mul c.n1 h.x1)) (N.mul c.n2 h.x2)) (N.mul c.d1 h.y1))
    (N.mul c.d2 h.y2)
  (y, { x1 := x, x2 := h.x1, y1 := y, y2 := h.y1 })

/-! ### Low-pass coefficients (R81) -/

/-- `lpCoeffs(f, q, Fs)`, in the order of evaluation of R81. At an infinite `q` with a finite `f` that evaluation gives finite
coefficients, although a corner case of R81 says that a non-finite `q` gives non-finite ones: the model follows the
pseudocode, which R81 calls exact (DEDUCED; log entry 32). No `TVFMAP` of the model gives such a `q` (log entry 27). -/
def lpCoeffs (N : Numerics) (f q : R) (fs : Nat) : Coeffs :=
  let two := R.ofInt 2
  let four := R.ofInt 4
  let w := N.mul (N.mul two PI) f
  let t := N.div R.one (R.ofInt fs)
  let w2t2 := N.mul (N.mul w w) (N.mul t t)
  let a := N.mul (N.mul (N.div w q) two) t
  let d := N.add (N.add four a) w2t2
  let d1 := N.div (N.sub (N.mul two w2t2) (R.ofInt 8)) d
  let d2 := N.div (N.add (N.sub four a) w2t2) d
  let n0 := N.div w2t2 d
  let n1 := N.mul two n0
  { n0 := n0, n1 := n1, n2 := n0, d1 := d1, d2 := d2 }

/-! ### RIAA de-emphasis (R82, R83) -/

/-- `exp_R(−1 / (τ · 32000))` for the time constant τ. -/
def riaaRoot (N : Numerics) (tau : R) : R :=
  N.exp (N.div (R.ofInt (-1)) (N.mul tau (R.ofInt 32000)))

/-- The matched-z derivation: zeros at 318 µs and 3.18 µs, poles at 3180 µs and 75 µs, DC gain 15. -/
def riaaRef (N : Numerics) : Coeffs :=
  let z1 := riaaRoot N (R.ofRat 318 1000000)
  let z2 := riaaRoot N (R.ofRat 318 100000000)
  let p1 := riaaRoot N (R.ofRat 3180 1000000)
  let p2 := riaaRoot N (R.ofRat 75 1000000)
  let b0 := R.one
  let b1 := (N.add z1 z2).negate
  let b2 := N.mul z1 z2
  let d1 := (N.add p1 p2).negate
  let d2 := N.mul p1 p2
  let dc := N.div (N.add (N.add b0 b1) b2) (N.add (N.add R.one d1) d2)
  let g := N.div (R.ofInt 15) dc
  { n0 := N.mul g b0, n1 := N.mul g b1, n2 := N.mul g b2, d1 := d1, d2 := d2 }

/-- The coefficients `RIAA` of an instance, five finite numbers. -/
def riaaCoeffs (p : Params) : Coeffs :=
  match p.riaaMap with
  | .reference => riaaRef p.numerics
  | .other n =>
    let c := Config.riaa n
    orReference (c.n0.isFinite && c.n1.isFinite && c.n2.isFinite && c.d1.isFinite && c.d2.isFinite) c
      (riaaRef p.numerics)

/-! ### PCM expansion (R84, R85, R86) -/

/-- `bankBase(addr)`: the ROM byte address of a sample address, `none` where bits 23:20 select no bank. -/
def bankBase (addr : Nat) : Option Nat :=
  let sel := addr / 0x100000 % 16
  let offset := addr % 0x100000
  if sel = 0 then some offset
  else if sel = 1 ∨ sel = 2 then some (0x100000 + offset)
  else if sel = 4 then some (0x200000 + offset)
  else none

/-- `wrap32(v)`: 32-bit two's complement (00_scope.md R10). -/
def wrap32 (v : Int) : Int := (v + 2147483648) % 4294967296 - 2147483648

/-- The address of the nibble byte of data address `a`. -/
def nibbleAddress (a : Nat) : Nat := ((a &&& 0xFFFFF) >>> 5) ||| (a &&& 0xF00000)

/-- The shift of element `i`: the high nibble where bit 4 of `i` is set, else the low one. -/
def nibbleShift (nb : Byte) (i : Nat) : Nat := if i / 16 % 2 = 1 then nb.toNat / 16 else nb.toNat % 16

/-- The 32-bit value of a data byte and its shift. -/
def expandWord (data : Byte) (shift : Nat) : Int := wrap32 (data.toInt * Int.ofNat (Nat.pow 2 shift) * 16384)

/-- `expand(base, i)`: element `i` of the sample, before filtering. -/
def expand (s : State) (base i : Nat) : Except Fault R :=
  let a := base + i
  match s.romRead a with
  | .error f => .error f
  | .ok data =>
    match s.romRead (nibbleAddress a) with
    | .error f => .error f
    | .ok nb =>
      .ok (s.params.numerics.div (R.ofInt (expandWord data (nibbleShift nb i))) (R.ofInt 2147483648))

/-! ### DECODE (R87) -/

/-- Elements `i`, `i+1`, …, `n` of them, through the cascade of two biquads whose histories are `h1` and `h2`. -/
def decodeElements (s : State) (c : Coeffs) (base : Nat) : Nat → Nat → History → History → Except Fault (List F32)
  | 0, _, _, _ => .ok []
  | n + 1, i, h1, h2 =>
    match expand s base i with
    | .error f => .error f
    | .ok x =>
      let (y1, h1') := biquad s.params.numerics c h1 x
      let (y2, h2') := biquad s.params.numerics c h2 y1
      match decodeElements s c base n (i + 1) h1' h2' with
      | .error f => .error f
      | .ok rest => .ok (y2.toF32 :: rest)

/-- The checks of DECODE after its reserved fields, in the order of R87, and the base they find. F_BANKSEL is one of the
causes the command raises: the pseudocode of R84 writes it `raise Fault(F_BANKSEL, addr)`, and the model records no `addr`
(DEDUCED; log entry 29). -/
def decodeChecks (s : State) (i : Nat) : Except Cause Nat :=
  if s.params.ns ≤ i then .error .index
  else if !s.sdtLoaded i then .error .unloaded
  else if s.someActive fun v => v.s == i then .error .busy
  else
    match bankBase (s.sdtData i 0) with
    | none => .error .bankSel
    | some base => if s.params.romSize ≤ base + s.sdtData i 1 then .error .romRange else .ok base

/-- DECODE: expand and de-emphasise sample `i` into `BANK[i]`. Every fault of it, F_BANKSEL too, records the DECODE word in
FAULTCMD, as 10_state.md R25 and 60_exceptions.md R146 say of a command fault (log entry 29). -/
def execDecode (i : Nat) (s : State) : Host.Outcome State Fault Refusal :=
  match decodeChecks s i with
  | .error c => .next (raise c (encode (.decode i)) s)
  | .ok base =>
    match decodeElements s (riaaCoeffs s.params) base (s.sdtData i 1 + 1) 0 History.zero History.zero with
    | .error f => .fault f
    | .ok elements =>
      finishCommand (encode (.decode i)) s (.ok (s.setBank i { decoded := true, data := elements }))

end Sys2Proof.Machine
end

