-- ==== Sys2Proof/Machine/Parameters.lean ====
section
/-!
DEFINITION. The configuration, parameter and table commands and the two values they derive, the controller matrix and the
pitch-bend factor (41_parameters.md). The reserved fields of every command are checked by the decoder (Decode.lean,
Step.lean), before its meaning runs.
-/

namespace Sys2Proof.Machine

/-! ### Derived values -/

/-- `MATRIX[p][d][src]` as R90 computes it: truncating division. -/
def matrixValue (s : State) (p d src : Nat) : Int :=
  Int.tdiv ((Int.ofNat (s.partReg p (depthId src d)) - Int.ofNat (bias d)) * srcVal s p src)
    (Int.ofNat (mTabScale s.params.mTab d))

/-- The whole matrix of part `p`: destinations 0..10, each with sources 0..5. -/
def matrixOf (s : State) (p : Nat) : List (List Int) :=
  (List.range 11).map fun d => (List.range 6).map fun src => matrixValue s p d src

/-- `recomputeMatrix(p)` (R90) -/
def recomputeMatrix (p : Nat) (s : State) : State := s.setMatrix p (matrixOf s p)

/-- The sum of the six sources of destination `d` (R91). -/
def modSum (s : State) (p d : Nat) : Int :=
  (List.range 6).foldl (fun acc src => acc + s.matrixEntry p d src) 0

/-- `modAcc(p, d)` (R91): clamp the magnitude, multiply by the gain, shift right by 16, reattach the sign. -/
def modAcc (s : State) (p d : Nat) : Int :=
  let sum := modSum s p d
  let mag := min sum.natAbs (mTabLimit s.params.mTab d)
  let r := (mag * mTabGain s.params.mTab d) >>> 16
  if sum < 0 then -Int.ofNat r else Int.ofNat r

/-- The pitch-bend factor of bend `pb` and pitch control `pbpc` (R92). -/
def pbfValue (N : Numerics) (pb pbpc : Nat) : R :=
  N.exp (N.div (N.mul (N.mul (N.div (R.ofInt (Int.ofNat pb - 8192)) (R.ofInt 8192))
    (R.ofInt (Int.ofNat pbpc - 0x40))) LN2) (R.ofInt 12))

/-- `recomputePBF(p)` (R92): `PB_PitchControl` is `DEPTH[1][0]`. -/
def recomputePbf (p : Nat) (s : State) : State :=
  s.setPbf p (pbfValue s.params.numerics (s.partReg p 0x21) (s.partReg p (depthId 1 0)))

/-! ### Configuration commands -/

/-- NOP (R93) -/
def execNop (s : State) : Host.Outcome State Fault Refusal := finishCommand (encode .nop) s (.ok s)

/-- The parameter registers, the drum table and the voice setup registers at their reset columns. -/
def resetRegisters (s : State) : State := { s with sys := [], part := [], drum := [], vs := [] }

/-- Every voice stopped (R94). -/
def resetVoices (s : State) : State :=
  { s with voices := Table.updateBelow (fun _ => Voice.reset) (fun _ v => v.softReset) s.params.nv s.voices }

/-- `recomputeMatrix(p)` and `recomputePBF(p)` for every part below `n`, in ascending order. -/
def recomputeParts : Nat → State → State
  | 0, s => s
  | n + 1, s => recomputePbf n (recomputeMatrix n (recomputeParts n s))

/-- The fault record as after hardware reset. -/
def clearFaults (s : State) : State := { s with fault := 0, faultCause := 0, faultVoice := 0xFF, faultCmd := 0 }

/-- RESET: soft reset of parameters, voices and fault state (R94). -/
def execReset (s : State) : Host.Outcome State Fault Refusal :=
  finishCommand (encode .reset) s
    (.ok (clearFaults (recomputeParts s.params.nPart (resetVoices (resetRegisters s)))))

/-- SETFMT: set the output sample rate (R95). -/
def execSetfmt (fs channels : Nat) (s : State) : Host.Outcome State Fault Refusal :=
  finishCommand (encode (.setfmt fs channels)) s
    (if channels ≠ 2 ∨ fs < 128 then .error .value
     else if s.someActive fun _ => true then .error .busy
     else .ok { s with fs := BitVec.ofNat 32 fs })

/-- SETINTERP: select the interpolation (R96). -/
def execSetinterp (mode : Nat) (s : State) : Host.Outcome State Fault Refusal :=
  finishCommand (encode (.setinterp mode)) s
    (if 2 < mode then .error .value else .ok { s with interp := BitVec.ofNat 2 mode })

/-! ### Parameter commands -/

/-- SYSPARAM: write a system parameter (R97). -/
def execSysparam (id value : Nat) (s : State) : Host.Outcome State Fault Refusal :=
  finishCommand (encode (.sysparam id value)) s (checkField (sysMax id) value (s.setSysReg id value))

/-- What PARTPARAM does after its checks: the write, then the recomputations its id triggers (R98). -/
def partEffect (p id value : Nat) (s : State) : State :=
  let s1 := s.setPartReg p id value
  let s2 := if isControllerId id then recomputeMatrix p s1 else s1
  if id = 0x21 ∨ id = depthId 1 0 then recomputePbf p s2 else s2

/-- PARTPARAM: write a part parameter (R98). -/
def execPartparam (p id value : Nat) (s : State) : Host.Outcome State Fault Refusal :=
  finishCommand (encode (.partparam p id value)) s
    (if s.params.nPart ≤ p then .error .index else checkField (partMax id) value (partEffect p id value s))

/-- DRUMPARAM: write a drum-table field (R99). -/
def execDrumparam (map key field value : Nat) (s : State) : Host.Outcome State Fault Refusal :=
  finishCommand (encode (.drumparam map key field value)) s
    (checkField (drumMax field) value (s.setDrumReg map key field value))

/-! ### Table commands -/

/-- What SDT_WR does after its checks: the field and its written bit, and `decoded[s] <- 0`; the bank data stay
(R100, 10_state.md R34). -/
def sdtEffect (i field value : Nat) (s : State) : State :=
  (s.setSdtField i field value).setBank i { decoded := false, data := (s.bankOf i).data }

/-- SDT_WR: write one field of a sample descriptor (R100). -/
def execSdtWr (i field value : Nat) (s : State) : Host.Outcome State Fault Refusal :=
  finishCommand (encode (.sdtWr i field value)) s
    (if s.params.ns ≤ i then .error .index else checkField (sdtMax field) value (sdtEffect i field value s))

/-- PDT_WR: write one field of a partial descriptor (R101). -/
def execPdtWr (q field value : Nat) (s : State) : Host.Outcome State Fault Refusal :=
  finishCommand (encode (.pdtWr q field value)) s
    (if s.params.np ≤ q then .error .index
     else checkField (pdtMax s.params.ntv field) value (s.setPdtField q field value))

/-- VSETUP: write a voice setup register (R102). -/
def execVsetup (v field value : Nat) (s : State) : Host.Outcome State Fault Refusal :=
  finishCommand (encode (.vsetup v field value)) s
    (if s.params.nv ≤ v then .error .index else checkField (vsMax s.params field) value (s.setVsReg v field value))

end Sys2Proof.Machine
end

