-- ==== Sys2Proof/Machine/Envelopes.lean ====
section
/-!
DEFINITION. The generator half of a voice's frame: what the generators read, their initialisation, refresh, tick and
release, and the TVF coefficients with their cache (44_envelopes.md).
-/

namespace Sys2Proof.Machine

/-- The inputs of voice `v`'s generators that stay as they are between refreshes: its latched fields and `FS` (R124). -/
def frameInputs (s : State) (v : Voice) : VoiceInputs where
  key := v.key
  velocity := v.velocity
  drum := v.drum
  tv := v.tv
  instTV := v.instTV
  part := none
  modAcc := none
  fs := s.fs.toNat

/-- The part registers the generators of part `p` read (R124). -/
def partInputs (s : State) (p : Nat) : PartInputs where
  tvfCutoff := s.partReg p 0x12
  tvfResonance := s.partReg p 0x13
  envAttack := s.partReg p 0x14
  envDecay := s.partReg p 0x15
  envRelease := s.partReg p 0x16
  vibRate := s.partReg p 0x17
  vibDepth := s.partReg p 0x18
  vibDelay := s.partReg p 0x19

/-- The inputs at VSTART: those and the part registers. -/
def startInputs (s : State) (v : Voice) : VoiceInputs := { frameInputs s v with part := some (partInputs s v.part) }

/-- The inputs at a refresh: those and `modAcc(p, d)` for d = 0..10, which nothing else reads (41_parameters.md R91). -/
def refreshInputs (s : State) (v : Voice) : VoiceInputs :=
  { startInputs s v with modAcc := some ((List.range 11).map fun d => modAcc s v.part d) }

/-- The inputs of voice `v`'s envelope generators: the shared ones and the two LFO outputs (R124). -/
def envInputs (s : State) (i : VoiceInputs) (v : Voice) : EnvInputs :=
  { base := i, out1 := lfoOut s.params.lfo .lfo1 i v.lfo1, out2 := lfoOut s.params.lfo .lfo2 i v.lfo2 }

/-- `V[v].LFO[1], LFO[2] <- LFO.init(V[v])`, then `V[v].EG[g] <- ENV.init(g, V[v])` for TVP, TVF, TVA (42_voice.md R109). -/
def initGenerators (s : State) (v : Voice) : Voice :=
  let i := startInputs s v
  let v1 := { v with lfo1 := lfoInit s.params.lfo .lfo1 i, lfo2 := lfoInit s.params.lfo .lfo2 i }
  let e := envInputs s i v1
  { v1 with
    egTvp := envInit s.params.env .tvp e
    egTvf := envInit s.params.env .tvf e
    egTva := envInit s.params.env .tva e }

/-- The refresh of the generators: LFO1, LFO2, then TVP, TVF, TVA, which read the refreshed LFOs (R128). -/
def refreshGenerators (s : State) (v : Voice) : Voice :=
  let i := refreshInputs s v
  let v1 := { v with
    lfo1 := lfoRefresh s.params.lfo .lfo1 i v.lfo1
    lfo2 := lfoRefresh s.params.lfo .lfo2 i v.lfo2 }
  let e := envInputs s i v1
  { v1 with
    egTvp := envRefresh s.params.env .tvp e v.egTvp
    egTvf := envRefresh s.params.env .tvf e v.egTvf
    egTva := envRefresh s.params.env .tva e v.egTva }

/-- One frame of every generator: TVP, TVF, TVA, which read the LFOs of the frame, then LFO1, LFO2 (R133). -/
def tickGenerators (s : State) (v : Voice) : Voice :=
  let i := frameInputs s v
  let e := envInputs s i v
  { v with
    egTvp := envTick s.params.env .tvp e v.egTvp
    egTvf := envTick s.params.env .tvf e v.egTvf
    egTva := envTick s.params.env .tva e v.egTva
    lfo1 := lfoTick s.params.lfo .lfo1 i v.lfo1
    lfo2 := lfoTick s.params.lfo .lfo2 i v.lfo2 }

/-- `ENV.release(g, V[v])` for TVP, TVF, TVA; the LFOs are not affected (42_voice.md R112). -/
def releaseGenerators (s : State) (v : Voice) : Voice :=
  let e := envInputs s (frameInputs s v) v
  { v with
    egTvp := envRelease s.params.env .tvp e v.egTvp
    egTvf := envRelease s.params.env .tvf e v.egTvf
    egTva := envRelease s.params.env .tva e v.egTva }

/-- `tvpPitch(v)` (R129) -/
def tvpPitch (s : State) (v : Voice) : R :=
  envTvpPitch s.params.env (envInputs s (frameInputs s v) v) v.egTvp

/-- The TVF cutoff, its sums evaluated left to right; each function of `TVFMAP` reads the inputs R130 lists for it. -/
def tvfCutoff (s : State) (v : Voice) : R :=
  let N := s.params.numerics
  let i := envInputs s (refreshInputs s v) v
  let c := s.params.tvfMap
  let base := tvfBase c (s.partReg v.part 0x12) v.tv v.instTV (modAcc s v.part 1)
  N.add (N.add (N.add base (envTvfEnv s.params.env i v.egTvf)) (N.mul i.out1 (tvfDepth1 c (modAcc s v.part 5))))
    (N.mul i.out2 (tvfDepth2 c (modAcc s v.part 9)))

/-- The TVF quality, from the part's TVFResonance (R130). -/
def tvfQuality (s : State) (v : Voice) : R := tvfQ s.params.tvfMap (s.partReg v.part 0x13)

/-- Two cache keys are equal as values; a NaN equals nothing (R131). -/
def TvfKey.same (a b : TvfKey) : Bool := R.eqv a.cutoff b.cutoff && R.eqv a.quality b.quality && a.fs == b.fs

/-- The cache holds the coefficients of `k`. -/
def cacheHit (cached : Option TvfKey) (k : TvfKey) : Bool :=
  match cached with
  | none => false
  | some c => TvfKey.same c k

/-- The TVF coefficients brought up to date; the history is kept (R131). -/
def refreshTvf (s : State) (v : Voice) : Voice :=
  let k : TvfKey := { cutoff := tvfCutoff s v, quality := tvfQuality s v, fs := s.fs.toNat }
  if cacheHit v.tvf.key k then v
  else
    { v with tvf := { v.tvf with
        coeffs := lpCoeffs s.params.numerics k.cutoff k.quality k.fs
        key := some k } }

/-- `TVF.apply(x)`: the output and the voice with its new history (R132). -/
def tvfApply (s : State) (v : Voice) (x : R) : R × Voice :=
  let r := biquad s.params.numerics v.tvf.coeffs v.tvf.hist x
  (r.1, { v with tvf := { v.tvf with hist := r.2 } })

/-- `TVA.apply(y)`: the level from before the tick, then the tick (R133). -/
def tvaApply (s : State) (v : Voice) (y : R) : R × Voice :=
  (s.params.numerics.mul y v.egTva.level, tickGenerators s v)

/-- The completion test after the voice's pair is added to the mix (R135). -/
def completeVoice (v : Voice) : Voice := if v.egTva.stage = .done then v.finish else v

end Sys2Proof.Machine
end

