-- ==== Sys2Proof/Machine/Oscillator.lean ====
section
/-!
DEFINITION. The oscillator half of a voice's frame: the refresh period, the tuning factors, the pitch, the phase
accumulator with its loop modes, and the nearest, linear and cubic interpolators (43_oscillator.md).
-/

namespace Sys2Proof.Machine

/-- `P = floor(FS / 128)` (R115). -/
def refreshPeriod (s : State) : Nat := s.fs.toNat / 128

/-- `keyFreq(k) = 440 · pow2_R(toR(k − 69) / 12)` (R116). -/
def keyFreq (N : Numerics) (k : Nat) : R :=
  N.mul (R.ofInt 440) (N.pow2 (N.div (R.ofInt (Int.ofNat k - 69)) (R.ofInt 12)))

/-- `pitchOffsetHz` of key `k` and `PitchOffsetFine` (R117). -/
def pitchOffsetOf (N : Numerics) (k offsetFine : Nat) : R :=
  let kf := keyFreq N k
  N.div (N.add kf (N.div (R.ofInt (Int.ofNat offsetFine - 0x80)) (R.ofInt 10))) kf

/-- `pitchExp` of SystemTune, ScaleTuning and PitchFineTune (R117); 16.384 is the binary64 value nearest it. -/
def pitchExpOf (N : Numerics) (systemTune scaleTuning fineTune : Nat) : R :=
  let tune := R.ofInt (Int.ofNat systemTune - 0x400)
  let scale := R.ofInt ((Int.ofNat scaleTuning - 0x40) * 10)
  let fine := N.div (R.ofInt (Int.ofNat fineTune - 16384)) (R.ofRat 16384 1000)
  N.exp (N.div (N.mul (N.add (N.add tune scale) fine) LN2) (R.ofInt 12000))

/-- The two tuning factors of a voice brought up to date (R117). `ScaleTuning[i]` is part parameter 4 + i. -/
def refreshTuning (s : State) (v : Voice) : Voice :=
  let N := s.params.numerics
  { v with
    pitchOffsetHz := pitchOffsetOf N v.key (s.partReg v.part 0x03)
    pitchExp := pitchExpOf N (s.sysReg 0) (s.partReg v.part (0x04 + v.key % 12)) (s.partReg v.part 0x02) }

/-- The phase increment of one frame (R118). -/
def pitchOf (s : State) (v : Voice) (tvpPitch : R) : R :=
  let N := s.params.numerics
  N.mul (N.mul (N.mul (N.mul v.pitchExp v.pitchOffsetHz) (s.pbfOf v.part)) v.staticPitch) tvpPitch

/-- What advancing the phase comes to (R119). -/
inductive PhaseStep where
  /-- the voice goes on -/
  | running (v : Voice)
  /-- a one-shot voice has reached its end (R120) -/
  | oneShotEnd (v : Voice)
  /-- the phase is outside its range after the single wrap: F_PHASE -/
  | outOfRange (v : Voice)
deriving Repr

/-- `END = toR(sampleLen + 1)` (R119). -/
def Voice.endPhase (v : Voice) : R := R.ofInt (Int.ofNat v.sampleLen + 1)

/-- The phase check after the wrap, and the loop flag (R119). The comparisons are false for a NaN phase. -/
def settlePhase (v : Voice) (phase : R) : PhaseStep :=
  if R.le R.zero phase && R.lt phase v.endPhase then
    .running { v with
      phase := phase
      isLooping := v.isLooping || (v.loopMode != 2 && R.lt (R.ofInt v.loopStart) phase) }
  else .outOfRange { v with phase := phase }

/-- The phase advanced by `pitch`, with the single wrap of the loop modes (R119). A phase that is not finite is outside the
range in every loop mode, as the corner case of R119 and the F_PHASE row of 60_exceptions.md R144 say; the pseudocode of
R119 alone would end a one-shot voice there (DEDUCED; log entry 17). -/
def advancePhase (N : Numerics) (v : Voice) (pitch : R) : PhaseStep :=
  let phase := N.add v.phase pitch
  if phase.isFinite && R.le v.endPhase phase then
    if v.loopMode = 2 then .oneShotEnd { v with phase := phase }
    else settlePhase v (N.sub phase (R.ofInt (Int.ofNat v.loopLen + 1)))
  else settlePhase v phase

/-! ### Interpolation -/

/-- The bank index of neighbour position `j` (R121). -/
def tapIndex (v : Voice) (j : Int) : Nat :=
  if j < 0 then v.loopEnd.toNat
  else if j < v.loopEnd then j.toNat
  else (min (j - Int.ofNat v.loopLen) (Int.ofNat v.sampleLen)).toNat

/-- `tap(v, j)` (R121) -/
def tap (s : State) (v : Voice) (j : Int) : R := s.bankRead v.s (tapIndex v j)

/-- The index `m` names a row of the kernel tables (R122). -/
def kernelIndex (m : Int) : Bool := decide (0 ≤ m ∧ m < 256)

/-- The linear kernel row `m`: weights 1 − x and x at x = m/256 (R122). The tables have the rows 0..255, which the reference
arithmetic never leaves (R123); where another `NUMERICS` does, the spec gives no row and the weights are free values (DESIGN
CHOICE; log entry 31). -/
def linKernel (m : Int) : R × R :=
  if kernelIndex m then (R.ofRat (256 - m) 256, R.ofRat m 256) else Config.linRowUnspecified m

/-- The cubic kernel row `m`: the four-point Lagrange weights on the nodes −1, 0, 1, 2 at x = m/256, each the binary64
value nearest the exact rational, over the common denominators 6·256³ and 2·256³ (R122). Outside the rows 0..255 the weights
are free values, as those of `linKernel` (DESIGN CHOICE; log entry 31). -/
def cubKernel (m : Int) : R × R × R × R :=
  if kernelIndex m then
    (R.ofRat (-(m * (m - 256) * (m - 512))) 100663296,
     R.ofRat ((m + 256) * (m - 256) * (m - 512)) 33554432,
     R.ofRat (-((m + 256) * m * (m - 512))) 33554432,
     R.ofRat ((m + 256) * m * (m - 256)) 100663296)
  else Config.cubRowUnspecified m

/-- The integer part of the phase and its quantised fraction `floor((phase − k) · 256)` (R123). -/
def splitPhase (N : Numerics) (phase : R) : Int × Int :=
  let k := phase.floor
  (k, (N.mul (N.sub phase (R.ofInt k)) (R.ofInt 256)).floor)

/-- The linear interpolator (R123). -/
def readLinear (s : State) (v : Voice) (k m : Int) : R :=
  let N := s.params.numerics
  let w := linKernel m
  N.add (N.mul w.1 (tap s v k)) (N.mul w.2 (tap s v (k + 1)))

/-- The cubic interpolator (R123). -/
def readCubic (s : State) (v : Voice) (k m : Int) : R :=
  let N := s.params.numerics
  let w := cubKernel m
  N.add (N.add (N.add (N.mul w.1 (tap s v (k - 1))) (N.mul w.2.1 (tap s v k))) (N.mul w.2.2.1 (tap s v (k + 1))))
    (N.mul w.2.2.2 (tap s v (k + 2)))

/-- `readSample(v)`: the interpolator `INTERP` selects; 0 reads the bank without `tap` (R123). `INTERP` never holds 3
(10_state.md R23). -/
def readSample (s : State) (v : Voice) : R :=
  let km := splitPhase s.params.numerics v.phase
  if s.interp = 0 then s.bankRead v.s km.1.toNat
  else if s.interp = 1 then readLinear s v km.1 km.2
  else readCubic s v km.1 km.2

end Sys2Proof.Machine
end

