-- ==== Sys2Proof/Machine/Mixer.lean ====
section
/-!
DEFINITION. The voice step, the mixer, the master output stage, and the FRAME command (45_mixer.md).
-/

namespace Sys2Proof.Machine

/-! ### The voice step (R137, R138) -/

/-- What one frame of a voice comes to: the voice after it, its stereo pair, and the runtime fault it raised, if any. -/
structure VoiceOut where
  voice : Voice
  left : R
  right : R
  fault : Option Cause
deriving DecidableEq, Repr

/-- A voice that contributes (0.0, 0.0): one that has ended, or (with a fault) one that is aborted. -/
def silentOut (v : Voice) (fault : Option Cause) : VoiceOut :=
  { voice := v, left := R.zero, right := R.zero, fault := fault }

/-- `refresh voice v`: the tuning, the generators, the TVF coefficients (43_oscillator.md R117). -/
def refreshVoice (s : State) (v : Voice) : Voice := refreshTvf s (refreshGenerators s (refreshTuning s v))

/-- Steps 1 and 2: test and advance the refresh counter, and refresh where it was 0. -/
def refreshIfDue (s : State) (v : Voice) : Voice :=
  let v1 := { v with refreshCnt := (v.refreshCnt + 1) % refreshPeriod s }
  if v.refreshCnt = 0 then refreshVoice s v1 else v1

/-- The voice's stereo pair `(a · (1 − pan), a · pan)` (44_envelopes.md R134). -/
def panPair (N : Numerics) (a pan : R) : R × R := (N.mul a (N.sub R.one pan), N.mul a pan)

/-- Steps 5 to 11: read, scale by 0.65 and the static volume, filter, amplify, pan, and check for a non-finite pair. -/
def soundVoice (s : State) (v : Voice) : VoiceOut :=
  let N := s.params.numerics
  let x := N.mul (N.mul (readSample s v) (R.ofRat 65 100)) v.staticVolume
  let f := tvfApply s v x
  let a := tvaApply s f.2 f.1
  let lr := panPair N a.1 (panMap s.params v.pan (s.partReg v.part 0x1A))
  if lr.1.isFinite && lr.2.isFinite then { voice := a.2, left := lr.1, right := lr.2, fault := none }
  else silentOut a.2.abort (some .numeric)

/-- Step 4, after the phase has advanced: end the voice, abort it, or sound it. -/
def PhaseStep.out (sound : Voice → VoiceOut) : PhaseStep → VoiceOut
  | .oneShotEnd w => silentOut w.finish none
  | .outOfRange w => silentOut w.abort (some .phase)
  | .running w => sound w

/-- Steps 3 to 11, after the refresh. -/
def advanceVoice (s : State) (v : Voice) : VoiceOut :=
  (advancePhase s.params.numerics v (pitchOf s v (tvpPitch s v))).out (soundVoice s)

/-- `voiceStep(v)` (R137). -/
def voiceStep (s : State) (v : Voice) : VoiceOut := advanceVoice s (refreshIfDue s v)

/-! ### The mix (R139 to R142) -/

/-- The state of a frame in progress: the machine, `frameSilent`, and the accumulators of the parts. -/
structure Mix where
  st : State
  silent : Bool
  accL : Table R
  accR : Table R
deriving DecidableEq, Repr

/-- `accL[p]`, `accR[p]`: +0.0 where no voice has added to it. -/
def accAt (t : Table R) (p : Nat) : R := Table.read (fun _ => R.zero) t p

def accAdd (N : Numerics) (t : Table R) (p : Nat) (x : R) : Table R :=
  Table.write (fun _ => R.zero) t p (N.add (accAt t p) x)

/-- A runtime fault of voice `i` in the FRAME word (R138). -/
def recordRuntime (fault : Option Cause) (i : Nat) (s : State) : State :=
  match fault with
  | none => s
  | some c => record c (BitVec.ofNat 8 i) (encode .frame) s

/-- A voice after its step: tested for completion unless the step has ended it (R143). -/
def endVoice (v : Voice) : Voice := if v.active then completeVoice v else v

/-- The outcome `o` of slot `i`'s step added to the frame: its pair to its part, its fault to the record, its voice to the
slot (R143). -/
def mixInto (m : Mix) (i : Nat) (o : VoiceOut) : Mix where
  st := (recordRuntime o.fault i m.st).setVoice i (endVoice o.voice)
  silent := m.silent || o.fault.isSome
  accL := accAdd m.st.params.numerics m.accL o.voice.part o.left
  accR := accAdd m.st.params.numerics m.accR o.voice.part o.right

/-- Voice slot `i`'s part in the frame: nothing where it is not active (R143). -/
def mixVoice (m : Mix) (i : Nat) : Mix :=
  if (m.st.voice i).active then mixInto m i (voiceStep m.st (m.st.voice i)) else m

/-- Every voice slot in ascending order (R143). -/
def mixVoices (s : State) : Mix :=
  (List.range s.params.nv).foldl mixVoice { st := s, silent := false, accL := [], accR := [] }

/-- The sum of the parts, each scaled by its gain, in ascending order from +0.0 (R143). -/
def sumParts (s : State) (acc : Table R) : R :=
  (List.range s.params.nPart).foldl
    (fun sum p => s.params.numerics.add sum (s.params.numerics.mul (partGain s p) (accAt acc p))) R.zero

/-- The master gain `MasterVolume/127 · 32000/Fs` (R140). -/
def masterGain (s : State) (sum : R) : R :=
  let N := s.params.numerics
  N.div (N.mul (N.div (N.mul sum (R.ofInt (s.sysReg 1))) (R.ofInt 127)) (R.ofInt 32000)) (R.ofInt s.fs.toNat)

/-- `toInt16(x)` with `OUT_SCALE` = 32767.0: scale, saturate, truncate toward zero (R142). -/
def toInt16 (N : Numerics) (x : R) : BitVec 16 :=
  let y := N.mul x (R.ofInt 32767)
  if R.lt (R.ofInt 32767) y then BitVec.ofInt 16 32767
  else if R.lt y (R.ofInt (-32768)) then BitVec.ofInt 16 (-32768)
  else BitVec.ofInt 16 y.trunc

/-- The end of the frame: master gain and pan, the check of the mix, and the one pair emitted (R143). -/
def emitMix (m : Mix) : State :=
  let s := m.st
  let lr := mPan s.params.mPan (masterGain s (sumParts s m.accL)) (masterGain s (sumParts s m.accR)) (s.sysReg 3)
  if !(lr.1.isFinite && lr.2.isFinite) then (record .numeric 0xFF (encode .frame) s).emitFrame 0 0
  else if m.silent then s.emitFrame 0 0
  else s.emitFrame (toInt16 s.params.numerics lr.1) (toInt16 s.params.numerics lr.2)

/-- FRAME: produce one output frame (R143). -/
def execFrame (s : State) : Host.Outcome State Fault Refusal :=
  finishCommand (encode .frame) s (.ok (emitMix (mixVoices s)))

end Sys2Proof.Machine
end

