-- ==== Sys2Proof/Machine/Voices.lean ====
section
/-!
DEFINITION. Voice start, note-off, kill and status (42_voice.md).
-/

namespace Sys2Proof.Machine

/-! ### Construction steps -/

/-- Voice setup `v` plays a drum: bit 0 of its flags. -/
def setupDrum (s : State) (v : Nat) : Bool := decide (s.vsReg v 3 % 2 = 1)

/-- The drum map of voice setup `v`: bit 1 of its flags. -/
def setupMap (s : State) (v : Nat) : Nat := s.vsReg v 3 / 2 % 2

/-- A biased byte of part `p` or of the system: `byte − 0x40` (00_scope.md R16). -/
def centred (byte : Nat) : Int := Int.ofNat byte - 0x40

/-- Step 1, the static key shift (R103). -/
def keyShiftOf (s : State) (v : Nat) : Int :=
  let p := s.vsReg v 0
  let coarse := centred (s.partReg p 0x00)
  let partShift := centred (s.partReg p 0x01)
  if setupDrum s v = false then coarse + centred (s.sysReg 2) + partShift
  else if Generation.sc55mk2.rank ≤ s.params.gen.rank then coarse + partShift
  else coarse

/-- The least `j` in `n` entries from `j` on whose breakpoint is at least `t` or is the terminator 0x7F (R104). -/
def findBreak (s : State) (q : Nat) (t : Int) : Nat → Nat → Option Nat
  | 0, _ => none
  | n + 1, j =>
    let b := s.pdtData q (0x10 + j)
    if t ≤ Int.ofNat b ∨ b = 0x7F then some j else findBreak s q t n (j + 1)

/-- Step 2, the sample of partial `q` for the shifted key `t` (R104). -/
def resolveSample (s : State) (q : Nat) (t : Int) : Except Cause Nat :=
  match findBreak s q t 16 0 with
  | none => .error .noSample
  | some j =>
    let i := s.pdtData q (0x20 + j)
    if i = 0xFFFF then .error .noSample
    else if s.params.ns ≤ i then .error .index
    else .ok i

/-- Step 3, the effective key delta (R105). -/
def keyDiffOf (s : State) (v i : Nat) (keyShift : Int) : Int :=
  let key := s.vsReg v 1
  if setupDrum s v then Int.ofNat (s.drumReg (setupMap s v) key 0) - 0x3C + keyShift
  else Int.ofNat key + keyShift - Int.ofNat (s.sdtData i 4)

/-- Step 4, the pitch key follow (R106). -/
def pkfOf (N : Numerics) (pitchKeyFlw : Nat) : R :=
  if Int.ofNat pitchKeyFlw - 0x40 ≠ 10 then N.add R.one (N.div (R.ofInt (Int.ofNat pitchKeyFlw - 0x4A)) (R.ofInt 10))
  else R.one

/-- Step 5, the static pitch in cents, parenthesised as R107. -/
def centsOf (N : Numerics) (coarse fine pitch rootKey : Nat) (keyDiff : Int) (pkf : R) : R :=
  let key := N.mul (R.ofInt keyDiff) pkf
  let root := N.mul (R.ofInt (60 - Int.ofNat rootKey)) (N.sub R.one pkf)
  let semitones := N.add (N.add (R.ofInt (centred coarse)) key) root
  N.add (N.add (N.mul semitones (R.ofInt 100)) (R.ofInt (centred fine)))
    (N.div (R.ofInt (Int.ofNat pitch - 1024)) (R.ofInt 16))

/-- Step 5, the per-frame base phase increment (R107). -/
def staticPitchOf (N : Numerics) (cents : R) (fs : Nat) : R :=
  N.div (N.mul (N.pow2 (N.div cents (R.ofInt 1200))) (R.ofInt 32000)) (R.ofInt fs)

/-- `volconv(x) = 0.1·pow2_R(x / 36.7111) − 0.1` (R108). -/
def volconv (N : Numerics) (x : R) : R :=
  let tenth := R.ofRat 1 10
  N.sub (N.mul tenth (N.pow2 (N.div x (R.ofRat 367111 10000)))) tenth

/-- Step 6, the static volume (R108). -/
def staticVolumeOf (p : Params) (instVolume sampleVolume fineVolume partialVolume : Nat) : R :=
  let N := p.numerics
  N.mul (N.mul (volconv N (R.ofInt instVolume)) (volconv N (fineVol p sampleVolume fineVolume)))
    (volconv N (R.ofInt partialVolume))

/-- Step 7: what VSTART latches into `V[v]`, before the generators are bound (R109). -/
def latchVoice (s : State) (v q i : Nat) (old : Voice) : Voice :=
  let N := s.params.numerics
  let keyShift := keyShiftOf s v
  let keyDiff := keyDiffOf s v i keyShift
  let pkf := pkfOf N (s.pdtData q 2)
  let cents := centsOf N (s.pdtData q 0) (s.pdtData q 1) (s.sdtData i 5) (s.sdtData i 4) keyDiff pkf
  { old with
    part := s.vsReg v 0
    key := s.vsReg v 1
    velocity := s.vsReg v 2
    drum := setupDrum s v
    map := setupMap s v
    pan := s.vsReg v 5
    instTV := (List.range s.params.nit).map fun k => s.vsReg v (0x10 + k)
    q := q
    s := i
    coarsePitch := s.pdtData q 0
    finePitch := s.pdtData q 1
    pitchKeyFlw := s.pdtData q 2
    partialVolume := s.pdtData q 3
    tv := (List.range s.params.ntv).map fun k => s.pdtData q (0x40 + k)
    sampleLen := s.sdtData i 1
    loopLen := s.sdtData i 2
    loopMode := s.sdtData i 3
    rootKey := s.sdtData i 4
    samplePitch := s.sdtData i 5
    sampleVolume := s.sdtData i 6
    fineVolume := s.sdtData i 7
    loopStart := Int.ofNat (s.sdtData i 1) - Int.ofNat (s.sdtData i 2)
    loopEnd := Int.ofNat (s.sdtData i 1)
    keyShift := keyShift
    keyDiff := keyDiff
    pkf := pkf
    cents := cents
    staticPitch := staticPitchOf N cents s.fs.toNat
    staticVolume := staticVolumeOf s.params (s.vsReg v 4) (s.sdtData i 6) (s.sdtData i 7) (s.pdtData q 3)
    phase := R.zero
    refreshCnt := 0
    tvf := { old.tvf with hist := History.zero, key := none } }

/-- The started voice: latched, its generators bound, every flag cleared and `active` set (R109). -/
def startVoice (s : State) (v q i : Nat) : Voice :=
  { initGenerators s (latchVoice s v q i (s.voice v)) with
    finished := false, releasing := false, isLooping := false, aborted := false, active := true }

/-! ### Commands -/

/-- The checks of VSTART after its reserved field, in the order of R110, and the sample they find. -/
def startChecks (s : State) (v q : Nat) : Except Cause Nat :=
  if s.params.nv ≤ v then .error .index
  else if s.params.np ≤ q then .error .index
  else if !s.pdtLoaded q then .error .unloaded
  else
    match resolveSample s q (Int.ofNat (s.vsReg v 1) + keyShiftOf s v) with
    | .error c => .error c
    | .ok i =>
      if !s.sdtLoaded i || !(s.bankOf i).decoded then .error .unloaded
      else if s.sdtData i 1 < s.sdtData i 2 then .error .loopGeom
      else .ok i

/-- VSTART: start voice `v` with partial `q` (R111). -/
def execVstart (v q : Nat) (s : State) : Host.Outcome State Fault Refusal :=
  finishCommand (encode (.vstart v q)) s
    (match startChecks s v q with
     | .error c => .error c
     | .ok i => .ok (s.setVoice v (startVoice s v q i)))

/-- What VNOTEOFF does to a voice: nothing where it is inactive, releasing, or a drum whose key receives no note-off
(R112). -/
def noteOff (s : State) (v : Voice) : Voice :=
  if v.active = false ∨ v.releasing = true then v
  else if v.drum = true ∧ s.drumReg v.map v.key 1 = 0 then v
  else releaseGenerators s { v with releasing := true }

/-- VNOTEOFF: release voice `v` (R112). -/
def execVnoteoff (v : Nat) (s : State) : Host.Outcome State Fault Refusal :=
  finishCommand (encode (.vnoteoff v)) s
    (if s.params.nv ≤ v then .error .index else .ok (s.setVoice v (noteOff s (s.voice v))))

/-- VKILL: stop voice `v` at once (R113). -/
def execVkill (v : Nat) (s : State) : Host.Outcome State Fault Refusal :=
  finishCommand (encode (.vkill v)) s
    (if s.params.nv ≤ v then .error .index else .ok (s.setVoice v { s.voice v with active := false }))

/-- RDVOICE: report the status of voice `v` (R114). -/
def execRdvoice (v : Nat) (s : State) : Host.Outcome State Fault Refusal :=
  finishCommand (encode (.rdvoice v)) s
    (if s.params.nv ≤ v then .error .index else .ok (s.emitResp (s.voice v).statusWord))

end Sys2Proof.Machine
end

