-- ==== Sys2Proof/Machine/Dispatch.lean ====
section
/-!
DEFINITION. The dispatch: one arm per command, each one call of its meaning.
-/

namespace Sys2Proof.Machine

/-- What a command does in a state. -/
def exec (i : Instr) (s : State) : Host.Outcome State Fault Refusal :=
  match i with
  | .nop => Sys2Proof.Machine.execNop s
  | .reset => Sys2Proof.Machine.execReset s
  | .setfmt fs channels => Sys2Proof.Machine.execSetfmt fs channels s
  | .setinterp mode => Sys2Proof.Machine.execSetinterp mode s
  | .sysparam id value => Sys2Proof.Machine.execSysparam id value s
  | .partparam part id value => Sys2Proof.Machine.execPartparam part id value s
  | .drumparam map key field value => Sys2Proof.Machine.execDrumparam map key field value s
  | .sdtWr e field value => Sys2Proof.Machine.execSdtWr e field value s
  | .pdtWr q field value => Sys2Proof.Machine.execPdtWr q field value s
  | .decode e => Sys2Proof.Machine.execDecode e s
  | .vsetup v field value => Sys2Proof.Machine.execVsetup v field value s
  | .vstart v q => Sys2Proof.Machine.execVstart v q s
  | .vnoteoff v => Sys2Proof.Machine.execVnoteoff v s
  | .vkill v => Sys2Proof.Machine.execVkill v s
  | .rdvoice v => Sys2Proof.Machine.execRdvoice v s
  | .rdfault => Sys2Proof.Machine.execRdfault s
  | .frame => Sys2Proof.Machine.execFrame s

end Sys2Proof.Machine
end

