-- ==== Sys2Proof/Machine/Step.lean ====
section
/-!
DEFINITION. One step: the block takes the oldest command word its port has accepted and executes it whole
(20_memory.md R57, R61). With no word waiting it is idle and holds its whole state (60_exceptions.md R157).
-/

namespace Sys2Proof.Machine

/-- The fault a word that is no command raises (60_exceptions.md R144). -/
def rejectCause : Reject → Cause
  | .opcode => .opcode
  | .reserved => .rsvd

/-- The word `w`, taken from the port, executed. -/
def execWord (w : Word) (s : State) : Host.Outcome State Fault Refusal :=
  match decode w with
  | .ok i => exec i s
  | .error r => .next (raise (rejectCause r) w s)

/-- One step of the machine. -/
def step (s : State) : Host.Outcome State Fault Refusal :=
  match s.port with
  | [] => .next s
  | w :: rest => execWord w { s with port := rest }

/-- The state whose port has `w` (its low `nbits` bits, every bit above them zero) as the next word to execute. -/
def State.withFetchWord (s : State) (nbits w : Nat) : State := { s with port := tableWord nbits w :: s.port }

end Sys2Proof.Machine
end

