-- ==== Sys2Proof/Machine/Assembler.lean ====
section
/-!
DEFINITION. The assembler's language (30_encoding.md R76, R77): the names of ids and fields, the syntax of a line, and the
pseudo-instructions. A line stands for the commands it expands to; the block sees only their words.
-/

namespace Sys2Proof.Machine

/-! ### Pseudo-instructions (R77) -/

/-- `FRAMES n` -/
def framesPseudo (n : Nat) : List Instr := List.replicate n .frame

/-- Commands built by `f` from the field ids `first`, `first + 1`, … and the values. -/
def writeFields (f : Nat → Nat → Instr) (first : Nat) (values : List Nat) : List Instr :=
  values.zipIdx.map fun x => f (first + x.2) x.1

/-- `SDT_LOAD s, address, sampleLen, loopLen, loopMode, rootKey, pitch, volume, fineVolume` -/
def sdtLoad (s address sampleLen loopLen loopMode rootKey pitch volume fineVolume : Nat) : List Instr :=
  writeFields (.sdtWr s) 0 [address, sampleLen, loopLen, loopMode, rootKey, pitch, volume, fineVolume]

/-- `PDT_LOAD q, coarse, fine, pkf, volume, [b0..b15], [s0..s15], [t0..t(NTV−1)]` -/
def pdtLoad (q coarse fine pkf volume : Nat) (breaks samples tv : List Nat) : List Instr :=
  writeFields (.pdtWr q) 0 [coarse, fine, pkf, volume] ++ writeFields (.pdtWr q) 0x10 breaks
    ++ writeFields (.pdtWr q) 0x20 samples ++ writeFields (.pdtWr q) 0x40 tv

/-- `NOTEON v, part, key, velocity, q` -/
def noteOn (v part key velocity q : Nat) : List Instr :=
  [.vsetup v 0 part, .vsetup v 1 key, .vsetup v 2 velocity, .vstart v q]

/-- `BEND part, value` -/
def bendPseudo (part value : Nat) : List Instr := [.partparam part 0x21 value]

/-- `TUNE value` -/
def tunePseudo (value : Nat) : List Instr := [.sysparam 0 value]

/-! ### Names (R76, 10_state.md R27, R28, R31, R32, R33, R35) -/

/-- The mnemonic of a command (R71). -/
def mnemonicOf : Instr → String
  | .nop => "NOP"
  | .reset => "RESET"
  | .setfmt .. => "SETFMT"
  | .setinterp .. => "SETINTERP"
  | .sysparam .. => "SYSPARAM"
  | .partparam .. => "PARTPARAM"
  | .drumparam .. => "DRUMPARAM"
  | .sdtWr .. => "SDT_WR"
  | .pdtWr .. => "PDT_WR"
  | .decode .. => "DECODE"
  | .vsetup .. => "VSETUP"
  | .vstart .. => "VSTART"
  | .vnoteoff .. => "VNOTEOFF"
  | .vkill .. => "VKILL"
  | .rdvoice .. => "RDVOICE"
  | .rdfault => "RDFAULT"
  | .frame => "FRAME"

def modeNames : List (String × Nat) := [("NEAREST", 0), ("LINEAR", 1), ("CUBIC", 2)]

def sysNames : List (String × Nat) :=
  [("SystemTune", 0), ("MasterVolume", 1), ("SystemKeyShift", 2), ("MasterPan", 3)]

def partNames : List (String × Nat) :=
  [("PitchCoarseTune", 0x00), ("PartKeyShift", 0x01), ("PitchFineTune", 0x02), ("PitchOffsetFine", 0x03),
   ("Volume", 0x10), ("Expression", 0x11), ("TVFCutoff", 0x12), ("TVFResonance", 0x13), ("EnvAttack", 0x14),
   ("EnvDecay", 0x15), ("EnvRelease", 0x16), ("VibRate", 0x17), ("VibDepth", 0x18), ("VibDelay", 0x19), ("Pan", 0x1A),
   ("Modulation", 0x20), ("PitchBend", 0x21), ("ChannelPressure", 0x22), ("PolyKeyPressure", 0x23), ("CC1", 0x24),
   ("CC2", 0x25)]

def drumNames : List (String × Nat) := [("PlayKeyNumber", 0), ("RxNoteOff", 1)]

def sdtNames : List (String × Nat) :=
  [("address", 0), ("sampleLen", 1), ("loopLen", 2), ("loopMode", 3), ("rootKey", 4), ("pitch", 5), ("volume", 6),
   ("fineVolume", 7)]

def pdtNames : List (String × Nat) := [("coarsePitch", 0), ("finePitch", 1), ("pitchKeyFlw", 2), ("volume", 3)]

def vsNames : List (String × Nat) :=
  [("part", 0), ("key", 1), ("velocity", 2), ("flags", 3), ("instVolume", 4), ("pan", 5)]

/-- The indexed names of a table: name, id of element 0, number of elements. -/
def partArrays : List (String × Nat × Nat) := [("ScaleTuning", 0x04, 12)]
def pdtArrays : List (String × Nat × Nat) := [("breaks", 0x10, 16), ("samples", 0x20, 16), ("tv", 0x40, 192)]
def vsArrays : List (String × Nat × Nat) := [("instTV", 0x10, 240)]

/-! ### The syntax of a line (R76) -/

/-- The characters before the first `sep`, and after it; none without one. -/
def splitAtChar (sep : Char) : List Char → Option (List Char × List Char)
  | [] => none
  | c :: cs =>
    if c = sep then some ([], cs)
    else
      match splitAtChar sep cs with
      | none => none
      | some (a, b) => some (c :: a, b)

/-- The pieces between the separators. -/
def splitChars (sep : Char) : List Char → List (List Char)
  | [] => [[]]
  | c :: cs =>
    match splitChars sep cs with
    | [] => []
    | piece :: pieces => if c = sep then [] :: piece :: pieces else (c :: piece) :: pieces

def isBlank (c : Char) : Bool := c == ' ' || c == '\t' || c == '\r' || c == '\n'

/-- The text without blanks around it. -/
def trimBlanks (cs : List Char) : List Char := ((cs.dropWhile isBlank).reverse.dropWhile isBlank).reverse

/-- The line without its comment, which starts at `;`. -/
def dropComment (cs : List Char) : List Char := cs.takeWhile (· != ';')

/-- The value of a digit in `base`. -/
def digitValue (base : Nat) (c : Char) : Option Nat :=
  let n := c.toNat
  let d :=
    if 48 ≤ n ∧ n ≤ 57 then some (n - 48)
    else if 97 ≤ n ∧ n ≤ 102 then some (n - 87)
    else if 65 ≤ n ∧ n ≤ 70 then some (n - 55)
    else none
  match d with
  | none => none
  | some d => if d < base then some d else none

/-- The value of digits read after `acc`. -/
def digitsValue (base acc : Nat) : List Char → Option Nat
  | [] => some acc
  | c :: cs =>
    match digitValue base c with
    | none => none
    | some d => digitsValue base (acc * base + d) cs

/-- A number: decimal, or hexadecimal with the prefix `0x`. -/
def numberOf : List Char → Option Nat
  | [] => none
  | '0' :: 'x' :: d :: ds => digitsValue 16 0 (d :: ds)
  | c :: cs => digitsValue 10 0 (c :: cs)

/-- The number at a name. -/
def lookupName (cs : List Char) : List (String × Nat) → Option Nat
  | [] => none
  | (name, n) :: rest => if name.toList = cs then some n else lookupName cs rest

/-- `name[i]` with the name in the table and the index in its range. -/
def lookupArray (cs : List Char) (arrays : List (String × Nat × Nat)) : Option Nat :=
  match splitAtChar '[' cs with
  | none => none
  | some (name, rest) =>
    match splitAtChar ']' rest with
    | some (index, []) =>
      match lookupName name (arrays.map fun a => (a.1, a.2.1)), lookupName name (arrays.map fun a => (a.1, a.2.2)),
          numberOf index with
      | some first, some count, some i => if i < count then some (first + i) else none
      | _, _, _ => none
    | _ => none

/-- `DEPTH[s][d]` -/
def lookupDepth (cs : List Char) : Option Nat :=
  match splitChars '[' cs with
  | [name, s, d] =>
    match splitAtChar ']' s, splitAtChar ']' d with
    | some (s, []), some (d, []) =>
      match numberOf s, numberOf d with
      | some s, some d => if name = "DEPTH".toList ∧ s ≤ 5 ∧ d ≤ 10 then some (depthId s d) else none
      | _, _ => none
    | _, _ => none
  | _ => none

/-- The first of two readings that is one. -/
def orElseRead (a b : Option Nat) : Option Nat :=
  match a with
  | some n => some n
  | none => b

/-- An operand that may be a name of a table. -/
def namedOperand (names : List (String × Nat)) (arrays : List (String × Nat × Nat)) (cs : List Char) : Option Nat :=
  orElseRead (numberOf cs) (orElseRead (lookupName cs names) (lookupArray cs arrays))

/-- A part parameter's id. -/
def partOperand (cs : List Char) : Option Nat := orElseRead (namedOperand partNames partArrays cs) (lookupDepth cs)

/-- Every reading, if each is one. -/
def allRead : List (Option Nat) → Option (List Nat)
  | [] => some []
  | none :: _ => none
  | some n :: rest =>
    match allRead rest with
    | none => none
    | some ns => some (n :: ns)

/-- The operands as plain numbers. -/
def plainOperands (ops : List (List Char)) : Option (List Nat) := allRead (ops.map numberOf)

/-- The operands of a three-operand write: index, field (which may be a name), value. -/
def fieldOperands (field : List Char → Option Nat) : List (List Char) → Option (List Nat)
  | [index, f, value] => allRead [numberOf index, field f, numberOf value]
  | _ => none

/-- The operands without the brackets around lists. R77 writes the three lists of PDT_LOAD in brackets and does not say
what a line with brackets missing or misplaced means: the model drops every bracket, wherever it stands (DESIGN CHOICE; log
entry 28). -/
def unbracket (ops : List (List Char)) : List (List Char) :=
  ops.map fun o => trimBlanks (o.filter fun c => c != '[' && c != ']')

/-- The commands of a mnemonic and its operands (R76, R77). PDT_LOAD takes exactly 32 + `NTV` values after its fifth operand
and splits them into lists of 16, 16 and `NTV` by count alone, wherever the brackets stand (DESIGN CHOICE; log entry 28). -/
def assembleOperands (ntv : Nat) (mnemonic : List Char) (ops : List (List Char)) : Option (List Instr) :=
  let is (name : String) : Bool := name.toList = mnemonic
  if is "NOP" then if ops = [] then some [.nop] else none
  else if is "RESET" then if ops = [] then some [.reset] else none
  else if is "RDFAULT" then if ops = [] then some [.rdfault] else none
  else if is "FRAME" then if ops = [] then some [.frame] else none
  else if is "SETINTERP" then
    match ops with
    | [m] => (namedOperand modeNames [] m).map fun m => [.setinterp m]
    | _ => none
  else if is "SYSPARAM" then
    match ops with
    | [id, value] =>
      match namedOperand sysNames [] id, numberOf value with
      | some id, some value => some [.sysparam id value]
      | _, _ => none
    | _ => none
  else if is "PARTPARAM" then
    match fieldOperands partOperand ops with
    | some [part, id, value] => some [.partparam part id value]
    | _ => none
  else if is "DRUMPARAM" then
    match ops with
    | [m, k, f, value] =>
      match allRead [numberOf m, numberOf k, namedOperand drumNames [] f, numberOf value] with
      | some [m, k, f, value] => some [.drumparam m k f value]
      | _ => none
    | _ => none
  else if is "SDT_WR" then
    match fieldOperands (namedOperand sdtNames []) ops with
    | some [s, f, value] => some [.sdtWr s f value]
    | _ => none
  else if is "PDT_WR" then
    match fieldOperands (namedOperand pdtNames pdtArrays) ops with
    | some [q, f, value] => some [.pdtWr q f value]
    | _ => none
  else if is "VSETUP" then
    match fieldOperands (namedOperand vsNames vsArrays) ops with
    | some [v, f, value] => some [.vsetup v f value]
    | _ => none
  else if is "PDT_LOAD" then
    match plainOperands (unbracket (ops.filter fun o => o != "[]".toList)) with
    | some (q :: coarse :: fine :: pkf :: volume :: rest) =>
      if rest.length = 32 + ntv then
        some (pdtLoad q coarse fine pkf volume (rest.take 16) ((rest.drop 16).take 16) (rest.drop 32))
      else none
    | _ => none
  else
    match plainOperands ops with
    | none => none
    | some ns =>
      match ns with
      | [x] =>
        if is "DECODE" then some [.decode x]
        else if is "VNOTEOFF" then some [.vnoteoff x]
        else if is "VKILL" then some [.vkill x]
        else if is "RDVOICE" then some [.rdvoice x]
        else if is "FRAMES" then some (framesPseudo x)
        else if is "TUNE" then some (tunePseudo x)
        else none
      | [x, y] =>
        if is "SETFMT" then some [.setfmt x y]
        else if is "VSTART" then some [.vstart x y]
        else if is "BEND" then some (bendPseudo x y)
        else none
      | [v, part, key, velocity, q] => if is "NOTEON" then some (noteOn v part key velocity q) else none
      | [s, a, l, ll, lm, rk, p, vol, fv] => if is "SDT_LOAD" then some (sdtLoad s a l ll lm rk p vol fv) else none
      | _ => none

/-- The commands of one line: none where it is not in the language, or names a value that does not fit its field. -/
def assembleLine (ntv : Nat) (line : List Char) : Option (List Instr) :=
  let text := trimBlanks (dropComment line)
  let mnemonic := text.takeWhile fun c => !isBlank c
  let rest := trimBlanks (text.drop mnemonic.length)
  if text = [] then some []
  else
    match assembleOperands ntv mnemonic (if rest = [] then [] else (splitChars ',' rest).map trimBlanks) with
    | none => none
    | some is => if is.all Instr.wellFormed then some is else none

end Sys2Proof.Machine
end

