-- ==== Sys2Proof/Machine/Serial.lean ====
section
/-!
DEFINITION. The block's streams as bytes (20_memory.md R52, R53) and the formats a host assembles parameter values from
(20_memory.md R54). None of this is state: the block takes whole words and emits whole pairs and words.
-/

namespace Sys2Proof.Machine

/-! ### The output and response streams (R52, R53) -/

/-- One frame as four bytes: `L[7:0], L[15:8], R[7:0], R[15:8]` (R52). -/
def frameBytes (f : BitVec 16 × BitVec 16) : List Byte :=
  [f.1.extractLsb' 0 8, f.1.extractLsb' 8 8, f.2.extractLsb' 0 8, f.2.extractLsb' 8 8]

/-- `OUT` as bytes, in emission order (R52). -/
def State.outBytes (s : State) : List Byte := s.out.flatMap frameBytes

/-- `RESP` as bytes, each word least significant byte first (R53). -/
def State.respBytes (s : State) : List Byte := s.resp.flatMap bytesOfWord

/-- A command stream as bytes (R53). -/
def commandBytes (ws : List Word) : List Byte := ws.flatMap bytesOfWord

/-- The first `n` words of a byte stream and the bytes after them; none when the stream is short (R53). -/
def takeWords : Nat → List Byte → Option (List Word × List Byte)
  | 0, bytes => some ([], bytes)
  | n + 1, bytes =>
    match wordOfBytes bytes with
    | none => none
    | some (w, rest) =>
      match takeWords n rest with
      | none => none
      | some (ws, rest') => some (w :: ws, rest')

/-! ### The host's Settings formats (R54) -/

/-- "uint32 big-endian" -/
def uint32BE (b0 b1 b2 b3 : Byte) : Nat := ((b0.toNat * 256 + b1.toNat) * 256 + b2.toNat) * 256 + b3.toNat

/-- "uint16 big-endian" -/
def uint16BE (b0 b1 : Byte) : Nat := b0.toNat * 256 + b1.toNat

/-- "14-bit MIDI", the MSB at the lower offset: PitchBend and every 14-bit value. -/
def midi14 (b0 b1 : BitVec 7) : Nat := b0.toNat * 128 + b1.toNat

/-- "nibble-16", the first-stored nibble most significant: PitchOffsetFine. -/
def nibble16 (n0 n1 : BitVec 4) : Nat := n0.toNat * 16 + n1.toNat

/-- "32-nibble", the first-stored nibble most significant: SystemTune. -/
def nibble32 (n0 n1 n2 n3 : BitVec 4) : Nat := ((n0.toNat * 16 + n1.toNat) * 16 + n2.toNat) * 16 + n3.toNat

end Sys2Proof.Machine
end

