-- ==== Sys2Proof/Safety.lean ====
section
/-!
DEFINITION. The terms the claims use: the run of a program (70_reset_and_hazards.md R169), the merges of the two agents
(20_memory.md R63), the invariants of the machine, and what a frame and a decode come to, said once without the machine's
bookkeeping.
-/

namespace Sys2Proof.Machine

/-! ### Runs -/

/-- The run of a program, a finite sequence of command words, from a state (R169). -/
def runWords : List Word → State → Host.Outcome State Fault Refusal
  | [], s => .next s
  | w :: ws, s =>
    match execWord w s with
    | .next t => runWords ws t
    | .fault f => .fault f
    | .refused r => .refused r

/-- A clean end of a run (R169). -/
def State.clean (s : State) : Prop := s.fault = 0

/-- `c` is an interleaving of `a` and `b` that keeps the order of each (R63). -/
inductive Merge {α : Type} : List α → List α → List α → Prop
  | nil : Merge [] [] []
  | left {a b c : List α} (x : α) : Merge a b c → Merge (x :: a) b (x :: c)
  | right {a b c : List α} (x : α) : Merge a b c → Merge a (x :: b) (x :: c)

/-- The state with the words `ws` accepted by the port, after those it holds. -/
def State.accept (s : State) (ws : List Word) : State := { s with port := s.port ++ ws }

/-! ### Invariants -/

/-- Every indexed piece of state is in its one canonical form, and the parameters are legal (00_scope.md R7). -/
structure Canonical (s : State) : Prop where
  params : s.params.legal = true
  rom : Memory.wf s.params.romSize s.rom = true
  sys : Table.wf sysReset s.sys = true
  part : Table.wf (fun k => partReset (k % 256)) s.part = true
  matrix : Table.wf zeroMatrix s.matrix = true
  pbf : Table.wf (fun _ => R.one) s.pbf = true
  drum : Table.wf drumDefault s.drum = true
  sdt : Table.wf unwritten s.sdt = true
  pdt : Table.wf unwritten s.pdt = true
  bank : Table.wf emptyBank s.bank = true
  vs : Table.wf (fun k => vsReset (k % 256)) s.vs = true
  voices : Table.wf (fun _ => Voice.reset) s.voices = true

/-- Every register holds a value of its legal column (10_state.md R22, R23, R27, R28, R31, R32, R33, R35). -/
structure RegistersLegal (s : State) : Prop where
  fs : 128 ≤ s.fs.toNat
  interp : s.interp.toNat ≤ 2
  sys : ∀ id limit, sysMax id = some limit → s.sysReg id ≤ limit
  part : ∀ p id limit, partMax id = some limit → s.partReg p id ≤ limit
  drum : ∀ m k field limit, drumMax field = some limit → s.drumReg m k field ≤ limit
  sdt : ∀ i field limit, sdtMax field = some limit → s.sdtData i field ≤ limit
  pdt : ∀ q field limit, pdtMax s.params.ntv field = some limit → s.pdtData q field ≤ limit
  vs : ∀ v field limit, vsMax s.params field = some limit → s.vsReg v field ≤ limit

/-- The fault state: the reserved bits read as 0, and the record is that of a fault whose bit is set
(10_state.md R24, R25). -/
structure FaultRecord (s : State) : Prop where
  reserved : s.fault.toNat < 4096
  cleared : s.fault = 0 → s.faultCause = 0 ∧ s.faultVoice = 0xFF ∧ s.faultCmd = 0
  first : s.fault ≠ 0 → ∃ c : Cause, s.faultCause = BitVec.ofNat 8 c.code ∧ s.fault &&& c.bit ≠ 0
  voice : s.faultVoice ≠ 0xFF → (s.faultCause = 11 ∨ s.faultCause = 12) ∧ s.faultCmd = encode .frame

/-- A decoded bank belongs to a loaded descriptor and has one element more than its `sampleLen` (10_state.md R34). -/
def BanksMatch (s : State) : Prop :=
  ∀ i, (s.bankOf i).decoded = true →
    i < s.params.ns ∧ s.sdtLoaded i = true ∧ (s.bankOf i).data.length = s.sdtData i 1 + 1

/-- What holds of an active voice: its indices are in range, its bank covers its sample, whose length fits its 24-bit field,
its loop lies in the sample, its phase is in `[0, sampleLen + 1)`, and its refresh counter is below the period (10_state.md
R32, R36 to R39, 43_oscillator.md R115, R119). -/
structure VoiceSafe (s : State) (x : Voice) : Prop where
  alive : x.finished = false ∧ x.aborted = false
  part : x.part < s.params.nPart
  key : x.key ≤ 127
  sample : x.s < s.params.ns
  bank : (s.bankOf x.s).data.length = x.sampleLen + 1
  length : x.sampleLen ≤ 0xFFFFFF
  loop : x.loopLen ≤ x.sampleLen
  loopStart : x.loopStart = Int.ofNat x.sampleLen - Int.ofNat x.loopLen
  loopEnd : x.loopEnd = Int.ofNat x.sampleLen
  loopMode : x.loopMode ≤ 2
  phaseLow : R.le R.zero x.phase = true
  phaseHigh : R.lt x.phase x.endPhase = true
  refresh : x.refreshCnt < refreshPeriod s

/-- Every active voice is safe. -/
def VoicesSafe (s : State) : Prop := ∀ v, v < s.params.nv → (s.voice v).active = true → VoiceSafe s (s.voice v)

/-- What the voices rest on: legal registers, matching banks, safe voices. -/
structure Sound (s : State) : Prop where
  registers : RegistersLegal s
  banks : BanksMatch s
  voices : VoicesSafe s

/-- The stages and levels of the envelope generators: an active voice's TVA is in RELEASE exactly when the voice is
releasing and never DONE, and every level is finite, the TVA's not negative (44_envelopes.md R125, R126). -/
structure EnvelopesLegal (s : State) : Prop where
  stage : ∀ v, v < s.params.nv → (s.voice v).active = true →
    (s.voice v).egTva.stage ≠ .done ∧ ((s.voice v).releasing = true ↔ (s.voice v).egTva.stage = .release)
  level : ∀ v g, legalLevel g ((s.voice v).eg g).level = true

/-- `PBF[p]` is the value R92 computes from the current registers (10_state.md R30). -/
def PbfCurrent (s : State) : Prop :=
  ∀ p, p < s.params.nPart → s.pbfOf p = pbfValue s.params.numerics (s.partReg p 0x21) (s.partReg p 0x50)

/-- The coefficients of every TVF are those of its cache key (10_state.md R42, R43). -/
def TvfCacheValid (s : State) : Prop :=
  ∀ v k, (s.voice v).tvf.key = some k →
    (s.voice v).tvf.coeffs = lpCoeffs s.params.numerics k.cutoff k.quality k.fs

/-! ### Frames -/

/-- `s` and `t` hold the same PCM ROM: every byte reads the same. -/
def SameRom (s t : State) : Prop := ∀ a, t.romRead a = s.romRead a

/-- The voice slots below `NV` that are active, in ascending order. -/
def activeVoices (s : State) : List Nat := (List.range s.params.nv).filter fun v => (s.voice v).active

/-- What the voice of slot `v` does in the next frame. -/
def frameStep (s : State) (v : Nat) : VoiceOut := voiceStep s (s.voice v)

/-- Slot `v` after the next frame (45_mixer.md R137, R143). -/
def frameVoice (s : State) (v : Nat) : Voice := endVoice (frameStep s v).voice

/-- The runtime faults of the voices in the next frame, in ascending voice order (60_exceptions.md R145). -/
def frameFaults (s : State) : List (Nat × Cause) :=
  (activeVoices s).filterMap fun v => (frameStep s v).fault.map fun c => (v, c)

/-- The faults recorded in the FRAME word, in order. -/
def recordFrame : List (Nat × Cause) → State → State
  | [], s => s
  | (v, c) :: rest, s => recordFrame rest (record c (BitVec.ofNat 8 v) (encode .frame) s)

/-- One side of part `p`'s mix: its voices' outputs added in ascending voice order from +0.0 (45_mixer.md R143). -/
def partSum (s : State) (side : VoiceOut → R) (p : Nat) : R :=
  ((activeVoices s).filter fun v => (s.voice v).part == p).foldl
    (fun sum v => s.params.numerics.add sum (side (frameStep s v))) R.zero

/-- One side of the frame: the parts, each times its gain, added in ascending order from +0.0, and scaled by the master
gain (45_mixer.md R140, R143). -/
def frameSide (s : State) (side : VoiceOut → R) : R :=
  masterGain s ((List.range s.params.nPart).foldl
    (fun sum p => s.params.numerics.add sum (s.params.numerics.mul (partGain s p) (partSum s side p))) R.zero)

/-- The mixed frame (45_mixer.md R141). -/
def frameMix (s : State) : R × R :=
  mPan s.params.mPan (frameSide s VoiceOut.left) (frameSide s VoiceOut.right) (s.sysReg 3)

/-- Both sides of the mixed frame are finite. -/
def frameFinite (s : State) : Bool := (frameMix s).1.isFinite && (frameMix s).2.isFinite

/-- The pair the next FRAME emits: silence where a fault was recorded in it (45_mixer.md R138, R142, R143). -/
def framePair (s : State) : BitVec 16 × BitVec 16 :=
  if frameFinite s && (frameFaults s).isEmpty then
    (toInt16 s.params.numerics (frameMix s).1, toInt16 s.params.numerics (frameMix s).2)
  else (0, 0)

/-- The faults the next FRAME records: the voices' in ascending order, the mix's last, with voice 0xFF
(60_exceptions.md R145). -/
def frameRecord (s : State) : State :=
  let t := recordFrame (frameFaults s) s
  if frameFinite s then t else record .numeric 0xFF (encode .frame) t

/-- `t` holds what the voice datapath of `s` reads: the format, the parameter registers and derived values, the banks. -/
structure SameInputs (s t : State) : Prop where
  fs : t.fs = s.fs
  interp : t.interp = s.interp
  sys : t.sys = s.sys
  part : t.part = s.part
  matrix : t.matrix = s.matrix
  pbf : t.pbf = s.pbf
  bank : t.bank = s.bank
  params : t.params = s.params

/-- The fields of a voice that no frame changes: what VSTART latched and derived, and the release flag. The others are put
at fixed values. -/
def Voice.fixed (x : Voice) : Voice :=
  { x with
    active := false, finished := false, isLooping := false, aborted := false
    phase := R.zero, refreshCnt := 0, pitchOffsetHz := R.zero, pitchExp := R.zero
    egTvp := EG.idle, egTvf := EG.idle, egTva := EG.idle, lfo1 := 0, lfo2 := 0, tvf := Voice.reset.tvf }

/-- The fields of a voice that VSTART latches and derives (10_state.md R37, R38). -/
def Voice.latched (x : Voice) : Voice := { x.fixed with releasing := false }

/-! ### Decoding -/

/-- The histories of the two cascaded filters after the first `k` elements of a sample have passed (40_decode_filters.md
R83), where `x` gives the expanded elements. -/
def cascade (N : Numerics) (c : Coeffs) (x : Nat → R) : Nat → History × History
  | 0 => (History.zero, History.zero)
  | k + 1 =>
    let h := cascade N c x k
    let y := biquad N c h.1 (x k)
    (y.2, (biquad N c h.2 y.1).2)

/-- Element `k` of the decoded sample: the second filter's output, rounded to binary32 (40_decode_filters.md R87). -/
def decodedElement (N : Numerics) (c : Coeffs) (x : Nat → R) (k : Nat) : F32 :=
  let h := cascade N c x k
  (biquad N c h.2 (biquad N c h.1 (x k)).1).1.toF32

/-- Element `i` of a sample before filtering, from the bytes of the ROM image (40_decode_filters.md R85). -/
def expanded (s : State) (base i : Nat) : R :=
  s.params.numerics.div
    (R.ofInt (expandWord (Table.read romDefault s.rom (base + i))
      (nibbleShift (Table.read romDefault s.rom (nibbleAddress (base + i))) i)))
    (R.ofInt 2147483648)

end Sys2Proof.Machine
end

