-- ==== Sys2Proof/Certificates/Slice0/Obligations.lean ====
section
/-!
DEFINITION. The statements for the provers (OBLIGATIONS.json). Each docstring names the rules of spec/ it formalises.
-/

section Obligations

open Sys2Proof Sys2Proof.Machine

/-! ### Encoding and decoding -/

/-- Decoding the word of a well-formed command gives the command back (R68, R69, R71). -/
def Obligations.DecodeOfEncode : Prop :=
  ∀ i : Instr, i.wellFormed = true → decode (encode i) = .ok i

/-- A word that decodes is the one encoding of a well-formed command (R70). -/
def Obligations.OneEncoding : Prop :=
  ∀ (w : Word) (i : Instr), decode w = .ok i → i.wellFormed = true ∧ encode i = w

/-- A word whose opcode is not assigned faults with F_OPCODE, one with a non-zero reserved field with F_RSVD, each with no
other effect; 239 opcodes are not assigned (R70, R72). -/
def Obligations.IllegalWords : Prop :=
  ∀ (w : Word) (s : State),
    (opField w ∉ [0x00, 0x01, 0x02, 0x03, 0x10, 0x11, 0x12, 0x20, 0x21, 0x22, 0x30, 0x31, 0x32, 0x33, 0x34, 0x35, 0x40] →
      execWord w s = .next (raise .opcode w s)) ∧
    (opField w ∈ [0x00, 0x01, 0x35, 0x40] → ¬ (aField w = 0 ∧ bField w = 0 ∧ dataField w = 0) →
      execWord w s = .next (raise .rsvd w s)) ∧
    (opField w ∈ [0x02, 0x10] → bField w ≠ 0 → execWord w s = .next (raise .rsvd w s)) ∧
    (opField w = 0x03 → ¬ (aField w = 0 ∧ bField w = 0) → execWord w s = .next (raise .rsvd w s)) ∧
    (opField w = 0x12 → 256 ≤ bField w → execWord w s = .next (raise .rsvd w s)) ∧
    (opField w ∈ [0x22, 0x32, 0x33, 0x34] → ¬ (aField w = 0 ∧ dataField w = 0) →
      execWord w s = .next (raise .rsvd w s)) ∧
    (opField w = 0x31 → aField w ≠ 0 → execWord w s = .next (raise .rsvd w s)) ∧
    ((List.range 256).filter fun op =>
      match decode (packWord op 0 0 0) with
      | .error .opcode => true
      | _ => false).length = 239

/-- The worked encodings of R78, each way, and the bytes of FRAME. -/
def Obligations.WorkedEncodings : Prop :=
  decode 0x00007D0000000202#64 = .ok (.setfmt 32000 2) ∧ encode (.setfmt 32000 2) = 0x00007D0000000202#64 ∧
  decode 0x0000000000000003#64 = .ok (.setinterp 0) ∧ encode (.setinterp 0) = 0x0000000000000003#64 ∧
  decode 0x0000010000000020#64 = .ok (.sdtWr 0 0 0x100) ∧ encode (.sdtWr 0 0 0x100) = 0x0000010000000020#64 ∧
  decode 0x00003FFF00002111#64 = .ok (.partparam 0 0x21 16383) ∧
  encode (.partparam 0 0x21 16383) = 0x00003FFF00002111#64 ∧
  decode 0x0000000000B10112#64 = .ok (.drumparam 1 49 1 0) ∧ encode (.drumparam 1 49 1 0) = 0x0000000000B10112#64 ∧
  decode 0x0000000000000031#64 = .ok (.vstart 0 0) ∧ encode (.vstart 0 0) = 0x0000000000000031#64 ∧
  decode 0x0000000000000040#64 = .ok .frame ∧ encode .frame = 0x0000000000000040#64 ∧
  bytesOfWord (encode .frame) = [0x40, 0, 0, 0, 0, 0, 0, 0]

/-- Words written as bytes, least significant first, read back; RESP and OUT grow by the bytes of what is emitted
(R52, R53). -/
def Obligations.ByteStreams : Prop :=
  (∀ (ws : List Word) (rest : List Byte), takeWords ws.length (commandBytes ws ++ rest) = some (ws, rest)) ∧
  (∀ (w : Word) (k : Nat), k < 8 → (bytesOfWord w)[k]? = some (w.extractLsb' (8 * k) 8)) ∧
  (∀ (s : State) (w : Word), (s.emitResp w).respBytes = s.respBytes ++ bytesOfWord w) ∧
  (∀ (s : State) (l r : BitVec 16), (s.emitFrame l r).outBytes =
    s.outBytes ++ [l.extractLsb' 0 8, l.extractLsb' 8 8, r.extractLsb' 0 8, r.extractLsb' 8 8])

/-! ### The whole machine -/

/-- The steps of a machine whose port holds a program run its words in order; every interleaving of the two agents' words
runs to its end and executes every word of both (R61, R63, R169). -/
def Obligations.ProgramRuns : Prop :=
  (∀ (ws : List Word) (s t : State), runWords ws { s with port := [] } = .next t →
    Sys2Proof.core.run ws.length { s with port := ws } = .next t) ∧
  (∀ (host puller merged : List Word) (s : State), Merge host puller merged →
    ∃ t, runWords merged s = .next t ∧ t.cp = s.cp + host.length + puller.length)

/-- A step runs the command its oldest accepted word stands for, faults with F_OPCODE or F_RSVD where it stands for none,
and is idle without one (R57, R61, R157). -/
def Obligations.StepRunsDecoded : Prop :=
  ∀ s : State,
    (∀ w rest i, s.port = w :: rest → decode w = .ok i → step s = exec i { s with port := rest }) ∧
    (∀ w rest, s.port = w :: rest → decode w = .error .opcode →
      step s = .next (raise .opcode w { s with port := rest })) ∧
    (∀ w rest, s.port = w :: rest → decode w = .error .reserved →
      step s = .next (raise .rsvd w { s with port := rest })) ∧
    (s.port = [] → step s = .next s)

/-- No command stops the block: every step, every word and every command answers a next state (R57, R86, R169). -/
def Obligations.NoCommandStops : Prop :=
  (∀ s : State, ∃ t, step s = .next t) ∧
  (∀ (w : Word) (s : State), ∃ t, execWord w s = .next t) ∧
  (∀ (i : Instr) (s : State), ∃ t, exec i s = .next t)

/-- `cp` resets to 0 and every command, a faulting one too, advances it by exactly one (R21). -/
def Obligations.PositionAdvances : Prop :=
  State.reset.cp = 0 ∧ ∀ (w : Word) (s : State), ∃ t, execWord w s = .next t ∧ t.cp = s.cp + 1

/-- No command reads or changes the words that wait in the port, and none changes the PCM ROM or another parameter of the
instance (R44, R48, R61). -/
def Obligations.PortAndRomUntouched : Prop :=
  ∀ (w : Word) (s t : State), execWord w s = .next t →
    t.params = s.params ∧ t.rom = s.rom ∧ SameRom s t ∧ t.port = s.port ∧
      ∀ p, execWord w { s with port := p } = .next { t with port := p }

/-- OUT and RESP are empty at reset, only grow, and are never read: FRAME appends one pair, RDVOICE of a voice slot one word,
RDFAULT two words, and no other word appends anything (R26). -/
def Obligations.StreamsOnlyGrow : Prop :=
  State.reset.out = [] ∧ State.reset.resp = [] ∧
  ∀ (w : Word) (s : State), ∃ (t : State) (no : List (BitVec 16 × BitVec 16)) (nr : List Word),
    (∀ o r, execWord w { s with out := o, resp := r } = .next { t with out := o ++ no, resp := r ++ nr }) ∧
    no.length = (if w = encode .frame then 1 else 0) ∧
    nr.length =
      (if w = encode .rdfault then 2
       else if bField w < s.params.nv ∧ w = encode (.rdvoice (bField w)) then 1 else 0)

/-- A command other than FRAME and RESET either takes exactly one command fault, with no other effect, or leaves the fault
state as it was (R13, R57, R145, R147). That DECODE's F_BANKSEL, too, records the command's word is log entry 29. -/
def Obligations.FaultOrNoRecord : Prop :=
  ∀ (i : Instr) (s : State), i ≠ .frame → i ≠ .reset →
    (∃ c, exec i s = .next (raise c (encode i) s)) ∨
    (∃ t, exec i s = .next t ∧ t.fault = s.fault ∧ t.faultCause = s.faultCause ∧ t.faultVoice = s.faultVoice ∧
      t.faultCmd = s.faultCmd)

/-! ### Faults and reset -/

/-- The fault codes 1 to 12, their bits, and recording: only the first fault since the last reset is kept, every fault sets
its bit, nothing else changes; a command fault is recorded with voice 0xFF and advances `cp`, a runtime fault with its
voice (R144, R146). -/
def Obligations.FaultRecording : Prop :=
  [Cause.opcode, .index, .value, .rsvd, .unloaded, .bankSel, .romRange, .noSample, .loopGeom, .busy, .phase,
    .numeric].map Cause.code = [1, 2, 3, 4, 5, 6, 7, 8, 9, 10, 11, 12] ∧
  (∀ (c : Cause) (voice : BitVec 8) (w : Word) (s : State),
    (s.fault = 0 → (record c voice w s).faultCause = BitVec.ofNat 8 c.code ∧ (record c voice w s).faultVoice = voice ∧
      (record c voice w s).faultCmd = w) ∧
    (s.fault ≠ 0 → (record c voice w s).faultCause = s.faultCause ∧ (record c voice w s).faultVoice = s.faultVoice ∧
      (record c voice w s).faultCmd = s.faultCmd) ∧
    (∀ k, (record c voice w s).fault.getLsbD k = (s.fault.getLsbD k || k == c.code - 1)) ∧
    record c voice w s = { s with
      fault := (record c voice w s).fault, faultCause := (record c voice w s).faultCause
      faultVoice := (record c voice w s).faultVoice, faultCmd := (record c voice w s).faultCmd }) ∧
  (∀ (c : Cause) (w : Word) (s : State), raise c w s = { record c 0xFF w s with cp := s.cp + 1 }) ∧
  (∀ (c : Cause) (v : Nat) (s : State), recordRuntime (some c) v s = record c (BitVec.ofNat 8 v) (encode .frame) s)

/-- What hardware reset leaves, as the column of R47 gives it. What R47 leaves unspecified is not stated. -/
def Obligations.ResetValues : Prop :=
  ∀ (p : Params) (rom : List Host.Cell), let s := State.resetOf p rom
    s.cp = 0 ∧ s.fs.toNat = 44100 ∧ s.interp.toNat = 2 ∧
    s.fault = 0 ∧ s.faultCause = 0 ∧ s.faultVoice = 0xFF ∧ s.faultCmd = 0 ∧ s.out = [] ∧ s.resp = [] ∧
    [0, 1, 2, 3].map s.sysReg = [0x0400, 127, 0x40, 0x40] ∧
    (∀ part, [0x02, 0x03, 0x10, 0x11].map (s.partReg part) = [0x4000, 0x80, 100, 127] ∧
      (∀ id, id ≤ 0x1A → id ∉ [0x02, 0x03, 0x10, 0x11] → s.partReg part id = 0x40) ∧
      s.partReg part 0x21 = 8192 ∧ (∀ id ∈ [0x20, 0x22, 0x23, 0x24, 0x25], s.partReg part id = 0) ∧
      (∀ src d, src ≤ 5 → d ≤ 10 → s.partReg part (0x40 + 16 * src + d) = if d ∈ [0, 1, 2, 3, 7] then 0x40 else 0)) ∧
    (∀ part d src, s.matrixEntry part d src = 0) ∧ (∀ part, s.pbfOf part = R.one) ∧
    (∀ m k, m < 2 → k < 128 → s.drumReg m k 0 = k ∧ s.drumReg m k 1 = 1) ∧
    (∀ i f, (s.sdtField i f).written = false ∧ (s.pdtField i f).written = false) ∧
    (∀ i, (s.bankOf i).decoded = false) ∧
    (∀ v, [0, 1, 2, 3, 4, 5].map (s.vsReg v) = [0, 60, 127, 0, 127, 64] ∧
      (∀ k, k < 240 → s.vsReg v (0x10 + k) = 0) ∧
      (s.voice v).active = false ∧ (s.voice v).finished = false ∧ (s.voice v).releasing = false ∧
      (s.voice v).isLooping = false ∧ (s.voice v).aborted = false ∧ (s.voice v).egTva.stage = .done ∧
      (s.voice v).egTva.level = R.zero ∧ (s.voice v).part = 0 ∧ (s.voice v).key = 0)

/-- The RESET command: registers at their reset columns, voices stopped, MATRIX all 0 and PBF all 1.0, the fault record
cleared; the format, the tables, the banks and the streams unchanged; with a reserved field set it faults (R94, R159). That
the voice fields R94 does not name stay as they were is the model's choice (log entry 16), and that PBF is 1.0 in other
arithmetics than the reference rests on log entry 3. -/
def Obligations.ResetCommand : Prop :=
  encode .reset = 0x01#64 ∧
  (∀ (w : Word) (s : State), opField w = 0x01 → w ≠ 0x01#64 → execWord w s = .next (raise .rsvd w s)) ∧
  ∀ s : State, ∃ t, exec .reset s = .next t ∧
    (∀ id, t.sysReg id = sysReset id) ∧
    (∀ p id, id < 256 → t.partReg p id = partReset id) ∧
    (∀ m k f, k < 128 → f < 256 → t.drumReg m k f = drumReset k f) ∧
    (∀ v f, f < 256 → t.vsReg v f = vsReset f) ∧
    (∀ v, v < s.params.nv → t.voice v = { s.voice v with
      active := false, finished := false, releasing := false, isLooping := false, aborted := false
      egTva := { (s.voice v).egTva with stage := .done, level := R.zero }, part := 0, key := 0 }) ∧
    (∀ p d src, p < s.params.nPart → d < 11 → src < 6 → t.matrixEntry p d src = 0) ∧
    (∀ p, p < s.params.nPart → t.pbfOf p = R.one) ∧
    t.fault = 0 ∧ t.faultCause = 0 ∧ t.faultVoice = 0xFF ∧ t.faultCmd = 0 ∧
    t = { s with
      cp := s.cp + 1, sys := t.sys, part := t.part, drum := t.drum, vs := t.vs, voices := t.voices, matrix := t.matrix
      pbf := t.pbf, fault := t.fault, faultCause := t.faultCause, faultVoice := t.faultVoice, faultCmd := t.faultCmd } ∧
    SameRom s t

/-! ### Configuration commands -/

/-- NOP, the all-zero word, changes only `cp`; with a reserved field set it faults (R93). -/
def Obligations.NopCompletes : Prop :=
  encode .nop = 0x00#64 ∧
  (∀ (w : Word) (s : State), opField w = 0x00 → w ≠ 0x00#64 → execWord w s = .next (raise .rsvd w s)) ∧
  (∀ s : State, exec .nop s = .next { s with cp := s.cp + 1 } ∧
    execWord 0x00#64 s = .next { s with cp := s.cp + 1 })

/-- SETFMT: its faults, and the rate it sets (R95). -/
def Obligations.SetfmtCompletes : Prop :=
  ∀ (fs channels : Nat) (s : State), fs < 0x100000000 →
    (channels ≠ 2 ∨ fs < 128 →
      exec (.setfmt fs channels) s = .next (raise .value (encode (.setfmt fs channels)) s)) ∧
    (channels = 2 → 128 ≤ fs → (∃ v, v < s.params.nv ∧ (s.voice v).active = true) →
      exec (.setfmt fs channels) s = .next (raise .busy (encode (.setfmt fs channels)) s)) ∧
    (channels = 2 → 128 ≤ fs → (∀ v, v < s.params.nv → (s.voice v).active = false) →
      ∃ t, exec (.setfmt fs channels) s = .next t ∧ t.fs.toNat = fs ∧ t = { s with fs := t.fs, cp := s.cp + 1 })

/-- SETINTERP: its fault, and the mode it selects (R96). -/
def Obligations.SetinterpCompletes : Prop :=
  ∀ (mode : Nat) (s : State),
    (2 < mode → exec (.setinterp mode) s = .next (raise .value (encode (.setinterp mode)) s)) ∧
    (mode ≤ 2 → ∃ t, exec (.setinterp mode) s = .next t ∧ t.interp.toNat = mode ∧
      t = { s with interp := t.interp, cp := s.cp + 1 })

/-! ### Parameter and table commands -/

/-- SYSPARAM: its faults in order, the register it writes, and every other one (R97). -/
def Obligations.SysparamCompletes : Prop :=
  ∀ (id value : Nat) (s : State), let limit := if id = 0 then 0xFFFF else 127
    (3 < id → exec (.sysparam id value) s = .next (raise .index (encode (.sysparam id value)) s)) ∧
    (id ≤ 3 → limit < value → exec (.sysparam id value) s = .next (raise .value (encode (.sysparam id value)) s)) ∧
    (id ≤ 3 → value ≤ limit → ∃ t, exec (.sysparam id value) s = .next t ∧
      (∀ j, t.sysReg j = if j = id then value else s.sysReg j) ∧
      t = { s with sys := t.sys, cp := s.cp + 1 } ∧ SameRom s t)

/-- PARTPARAM: its faults in order, the register it writes, the recomputation of MATRIX on the six controller values and of
PBF on PitchBend and DEPTH[1][0], and everything else unchanged (R90, R92, R98, R165). -/
def Obligations.PartparamCompletes : Prop :=
  ∀ (p id value : Nat) (s : State),
    (s.params.nPart ≤ p → exec (.partparam p id value) s = .next (raise .index (encode (.partparam p id value)) s)) ∧
    (p < s.params.nPart → partMax id = none →
      exec (.partparam p id value) s = .next (raise .index (encode (.partparam p id value)) s)) ∧
    (∀ limit, p < s.params.nPart → partMax id = some limit → limit < value →
      exec (.partparam p id value) s = .next (raise .value (encode (.partparam p id value)) s)) ∧
    (∀ limit, p < s.params.nPart → partMax id = some limit → value ≤ limit →
      ∃ t, exec (.partparam p id value) s = .next t ∧
        (∀ q f, f < 256 → t.partReg q f = if q = p ∧ f = id then value else s.partReg q f) ∧
        (0x20 ≤ id → id ≤ 0x25 → ∀ d src, d < 11 → src < 6 → t.matrixEntry p d src = matrixValue t p d src) ∧
        (∀ q d src, ¬ (q = p ∧ 0x20 ≤ id ∧ id ≤ 0x25) → t.matrixEntry q d src = s.matrixEntry q d src) ∧
        (id = 0x21 ∨ id = 0x50 →
          t.pbfOf p = pbfValue s.params.numerics (t.partReg p 0x21) (t.partReg p 0x50)) ∧
        (∀ q, ¬ (q = p ∧ (id = 0x21 ∨ id = 0x50)) → t.pbfOf q = s.pbfOf q) ∧
        t = { s with part := t.part, matrix := t.matrix, pbf := t.pbf, cp := s.cp + 1 } ∧ SameRom s t)

/-- The ids of the part parameters and their greatest legal values (R28). -/
def Obligations.PartRegisterColumns : Prop :=
  (∀ id, id ≤ 0x1A → partMax id = some (if id = 0x02 then 0xFFFF else if id = 0x03 then 0xFF else 127)) ∧
  (∀ id, 0x20 ≤ id → id ≤ 0x25 → partMax id = some (if id = 0x21 then 16383 else 127)) ∧
  (∀ src d, src ≤ 5 → d ≤ 10 → partMax (0x40 + 16 * src + d) = some 127) ∧
  (∀ id, 0x1B ≤ id → id ≤ 0x1F ∨ (0x26 ≤ id ∧ id ≤ 0x3F) ∨ 0xA0 ≤ id → partMax id = none) ∧
  (∀ src d, src ≤ 5 → 11 ≤ d → d ≤ 15 → partMax (0x40 + 16 * src + d) = none)

/-- DRUMPARAM: its faults in order, the field it writes, and every other one (R99). -/
def Obligations.DrumparamCompletes : Prop :=
  ∀ (m k field value : Nat) (s : State), m < 2 → k < 128 →
    let limit := if field = 0 then 127 else 1
    (1 < field →
      exec (.drumparam m k field value) s = .next (raise .index (encode (.drumparam m k field value)) s)) ∧
    (field ≤ 1 → limit < value →
      exec (.drumparam m k field value) s = .next (raise .value (encode (.drumparam m k field value)) s)) ∧
    (field ≤ 1 → value ≤ limit → ∃ t, exec (.drumparam m k field value) s = .next t ∧
      (∀ m' k' f', k' < 128 → f' < 256 →
        t.drumReg m' k' f' = if m' = m ∧ k' = k ∧ f' = field then value else s.drumReg m' k' f') ∧
      t = { s with drum := t.drum, cp := s.cp + 1 } ∧ SameRom s t)

/-- SDT_WR: its faults in order; the field and its written bit, the `decoded` flag cleared, the bank data left in place
(R32, R34, R100). -/
def Obligations.SdtWrCompletes : Prop :=
  ∀ (i field value : Nat) (s : State),
    let limit := if field ≤ 2 then 0xFFFFFF else if field = 3 then 2 else if field = 5 ∨ field = 7 then 0xFFFF else 127
    (s.params.ns ≤ i ∨ 7 < field →
      exec (.sdtWr i field value) s = .next (raise .index (encode (.sdtWr i field value)) s)) ∧
    (i < s.params.ns → field ≤ 7 → limit < value →
      exec (.sdtWr i field value) s = .next (raise .value (encode (.sdtWr i field value)) s)) ∧
    (i < s.params.ns → field ≤ 7 → value ≤ limit → ∃ t, exec (.sdtWr i field value) s = .next t ∧
      (∀ j f, f < 256 →
        t.sdtField j f = if j = i ∧ f = field then { written := true, data := value } else s.sdtField j f) ∧
      (t.bankOf i).decoded = false ∧ (t.bankOf i).data = (s.bankOf i).data ∧
      (∀ j, j ≠ i → t.bankOf j = s.bankOf j) ∧
      t = { s with sdt := t.sdt, bank := t.bank, cp := s.cp + 1 } ∧ SameRom s t)

/-- PDT_WR: its faults in order, the field it writes with its written bit, and every other one (R33, R101). -/
def Obligations.PdtWrCompletes : Prop :=
  ∀ (q field value : Nat) (s : State), s.params.ntv ≤ 192 →
    let assigned := field ≤ 3 ∨ (0x10 ≤ field ∧ field ≤ 0x2F) ∨ (0x40 ≤ field ∧ field < 0x40 + s.params.ntv)
    let limit := if field < 0x20 then 127 else if field ≤ 0x2F then 0xFFFF else 0xFF
    (s.params.np ≤ q ∨ ¬ assigned →
      exec (.pdtWr q field value) s = .next (raise .index (encode (.pdtWr q field value)) s)) ∧
    (q < s.params.np → assigned → limit < value →
      exec (.pdtWr q field value) s = .next (raise .value (encode (.pdtWr q field value)) s)) ∧
    (q < s.params.np → assigned → value ≤ limit → ∃ t, exec (.pdtWr q field value) s = .next t ∧
      (∀ j f, f < 256 →
        t.pdtField j f = if j = q ∧ f = field then { written := true, data := value } else s.pdtField j f) ∧
      t = { s with pdt := t.pdt, cp := s.cp + 1 } ∧ SameRom s t)

/-- VSETUP: its faults in order, the register it writes, every other one, and no voice (R35, R102). -/
def Obligations.VsetupCompletes : Prop :=
  ∀ (v field value : Nat) (s : State), s.params.nit ≤ 240 →
    let assigned := field ≤ 5 ∨ (0x10 ≤ field ∧ field < 0x10 + s.params.nit)
    let limit := if field = 0 then s.params.nPart - 1 else if field = 3 then 3 else if field ≤ 5 then 127 else 0xFF
    (s.params.nv ≤ v ∨ ¬ assigned →
      exec (.vsetup v field value) s = .next (raise .index (encode (.vsetup v field value)) s)) ∧
    (v < s.params.nv → assigned → limit < value →
      exec (.vsetup v field value) s = .next (raise .value (encode (.vsetup v field value)) s)) ∧
    (v < s.params.nv → assigned → value ≤ limit → ∃ t, exec (.vsetup v field value) s = .next t ∧
      (∀ j f, f < 256 → t.vsReg j f = if j = v ∧ f = field then value else s.vsReg j f) ∧
      t = { s with vs := t.vs, cp := s.cp + 1 } ∧ SameRom s t)

/-! ### Derived per-part values -/

/-- `recomputeMatrix` writes every entry of one part as R90 computes it and no other part's; a legal scale is 1, 2 or 4, and
the reference value is the register's, PitchBend's shifted right by 7. `modAcc` is the clamped sum of the six entries times
the gain, shifted right by 16, with the sign reattached; the reference is the sum where it fits (R88, R89, R90, R91). -/
def Obligations.ControllerMatrix : Prop :=
  (∀ (s : State) (p d src : Nat), d < 11 → src < 6 →
    (recomputeMatrix p s).matrixEntry p d src =
      Int.tdiv ((Int.ofNat (s.partReg p (0x40 + 16 * src + d)) - if d ∈ [0, 1, 2, 3, 7] then 0x40 else 0) *
        srcVal s p src) (Int.ofNat (mTabScale s.params.mTab d))) ∧
  (∀ (s : State) (p q d src : Nat), q ≠ p → (recomputeMatrix p s).matrixEntry q d src = s.matrixEntry q d src) ∧
  (∀ (c : Choice) (d : Nat), mTabScale c d = 1 ∨ mTabScale c d = 2 ∨ mTabScale c d = 4) ∧
  (∀ (s : State) (p src : Nat), s.params.srcVal = .reference → src < 6 →
    srcVal s p src = if src = 1 then Int.ofNat (s.partReg p 0x21 / 128) else Int.ofNat (s.partReg p (0x20 + src))) ∧
  (∀ (s : State) (p d : Nat), let m := s.matrixEntry p d
    let sum := m 0 + m 1 + m 2 + m 3 + m 4 + m 5
    let r := min sum.natAbs (mTabLimit s.params.mTab d) * mTabGain s.params.mTab d / 65536
    modAcc s p d = if sum < 0 then -(r : Int) else r) ∧
  (∀ (s : State) (p d : Nat), s.params.mTab = .reference → let m := s.matrixEntry p d
    let sum := m 0 + m 1 + m 2 + m 3 + m 4 + m 5
    sum.natAbs < 2 ^ 31 → modAcc s p d = sum)

/-- The pitch-bend factor is the formula of R92. It is exactly 1.0 at the bend's centre in every instance, and in the reference instance also with
PB_PitchControl at its bias; 12 semitones down halve it (R92). That other arithmetics than the reference are exact where an
operand is zero is read from R92 (log entry 3). -/
def Obligations.NeutralBend : Prop :=
  (∀ (N : Numerics) (pb pbpc : Nat), pbfValue N pb pbpc =
    N.exp (N.div (N.mul (N.mul (N.div (R.ofInt ((pb : Int) - 8192)) (R.ofInt 8192)) (R.ofInt ((pbpc : Int) - 64))) LN2)
      (R.ofInt 12))) ∧
  (∀ (N : Numerics) (pbpc : Nat), pbpc ≤ 127 → pbfValue N 8192 pbpc = R.one) ∧
  (∀ pb : Nat, pb ≤ 16383 → pbfValue .reference pb 0x40 = R.one) ∧
  pbfValue .reference 0 0x4C = R.ofRat 1 2

/-! ### DECODE and the descriptor walk -/

/-- The PCM expansion and the address of its nibble byte, with the overflow corner cases; the reference de-emphasis
coefficients; the TVF's coefficients as R81 evaluates them, at 8 kHz and at a cutoff of 0 (R81, R82, R85). That the
evaluation, and not the corner case R81 adds to it, says what an infinite quality gives is log entry 32. -/
def Obligations.DecodeExamples : Prop :=
  (∀ (b : Byte) (shift : Nat), ∃ k : Int, expandWord b shift = b.toInt * 2 ^ shift * 2 ^ 14 + k * 2 ^ 32 ∧
    -2147483648 ≤ expandWord b shift ∧ expandWord b shift ≤ 2147483647) ∧
  (∀ (nb : Byte) (i : Nat), nibbleShift nb i = if i.testBit 4 then nb.toNat >>> 4 else nb.toNat &&& 0x0F) ∧
  (∀ a : Nat, nibbleAddress a = ((a &&& 0xFFFFF) >>> 5) ||| (a &&& 0xF00000)) ∧
  (∀ p : Params, p.riaaMap = .reference → riaaCoeffs p = riaaRef p.numerics) ∧
  (∀ (N : Numerics) (f q : R) (fs : Nat), let w := N.mul (N.mul (R.ofInt 2) PI) f
    let t := N.div R.one (R.ofInt fs)
    let w2t2 := N.mul (N.mul w w) (N.mul t t)
    let a := N.mul (N.mul (N.div w q) (R.ofInt 2)) t
    let d := N.add (N.add (R.ofInt 4) a) w2t2
    let n0 := N.div w2t2 d
    lpCoeffs N f q fs =
      { n0 := n0, n1 := N.mul (R.ofInt 2) n0, n2 := n0
        d1 := N.div (N.sub (N.mul (R.ofInt 2) w2t2) (R.ofInt 8)) d
        d2 := N.div (N.add (N.sub (R.ofInt 4) a) w2t2) d }) ∧
  lpCoeffs .reference R.zero (R.ofRat 7071067811865476 10000000000000000) 32000 =
    { n0 := R.zero, n1 := R.zero, n2 := R.zero, d1 := R.ofInt (-2), d2 := R.one } ∧
  expandWord 0x40 (nibbleShift 0x36 0) = 67108864 ∧ expandWord 0x40 (nibbleShift 0x36 0x10) = 8388608 ∧
  expandWord 0x80 10 = -2147483648 ∧ expandWord 0x80 11 = 0 ∧ expandWord 0x7F 10 = 2130706432 ∧
  expandWord 0x7F 11 = -33554432 ∧ expandWord 0x7F 15 = -536870912 ∧ (∀ k, k < 16 → expandWord 0x00 k = 0) ∧
  riaaRef .reference =
    { n0 := ⟨0x3fe117112160cc52#64⟩, n1 := ⟨0xbfdefba0562f84a8#64⟩, n2 := ⟨0x3efb6558d97efca1#64⟩
      d1 := ⟨0xbffa6431f74be5d5#64⟩, d2 := ⟨0x3fe4e3b02ea882ee#64⟩ } ∧
  lpCoeffs .reference (R.ofInt 8000) (R.ofRat 7071067811865476 10000000000000000) 32000 =
    { n0 := R.ofRat 22615369971864097 100000000000000000, n1 := R.ofRat 45230739943728193 100000000000000000
      n2 := R.ofRat 22615369971864097 100000000000000000, d1 := R.ofRat (-2809457378614873) 10000000000000000
      d2 := R.ofRat 1855605367360512 10000000000000000 }

/-- The bank map (R84). -/
def Obligations.BankMap : Prop :=
  (∀ addr : Nat, addr < 0x1000000 →
    bankBase addr =
      (if addr / 0x100000 = 0 then some (addr % 0x100000)
       else if addr / 0x100000 = 1 ∨ addr / 0x100000 = 2 then some (0x100000 + addr % 0x100000)
       else if addr / 0x100000 = 4 then some (0x200000 + addr % 0x100000)
       else none)) ∧
  bankBase 0x1ABCDE = some 0x1ABCDE ∧ bankBase 0x2ABCDE = some 0x1ABCDE ∧ bankBase 0x412345 = some 0x212345 ∧
  bankBase 0x312345 = none

/-- DECODE's faults, in the order of its checks (R87, R145). That F_BANKSEL records the DECODE word, and not the address R84
writes, is log entry 29. -/
def Obligations.DecodeFaults : Prop :=
  ∀ (i : Nat) (s : State), let faults := fun c => exec (.decode i) s = .next (raise c (encode (.decode i)) s)
    (s.params.ns ≤ i → faults .index) ∧
    (i < s.params.ns → s.sdtLoaded i = false → faults .unloaded) ∧
    (i < s.params.ns → s.sdtLoaded i = true →
      (∃ v, v < s.params.nv ∧ (s.voice v).active = true ∧ (s.voice v).s = i) → faults .busy) ∧
    (i < s.params.ns → s.sdtLoaded i = true →
      (∀ v, v < s.params.nv → (s.voice v).active = true → (s.voice v).s ≠ i) →
      (bankBase (s.sdtData i 0) = none → faults .bankSel) ∧
      (∀ base, bankBase (s.sdtData i 0) = some base → s.params.romSize ≤ base + s.sdtData i 1 → faults .romRange))

/-- DECODE completes where its checks pass: element `k` of the bank is the `k`-th output of the two cascaded filters over
the expanded sample, rounded to binary32, and nothing but that bank and `cp` changes (R83, R85, R87). -/
def Obligations.DecodeCompletes : Prop :=
  ∀ (i base : Nat) (s : State), i < s.params.ns → s.sdtLoaded i = true →
    (∀ v, v < s.params.nv → (s.voice v).active = true → (s.voice v).s ≠ i) →
    bankBase (s.sdtData i 0) = some base → base + s.sdtData i 1 < s.params.romSize →
    ∃ t, exec (.decode i) s = .next t ∧
      (t.bankOf i).decoded = true ∧ (t.bankOf i).data.length = s.sdtData i 1 + 1 ∧
      (∀ k, k ≤ s.sdtData i 1 → (t.bankOf i).data[k]? =
        some (decodedElement s.params.numerics (riaaCoeffs s.params) (expanded s base) k)) ∧
      (∀ j, j ≠ i → t.bankOf j = s.bankOf j) ∧
      t = { s with bank := t.bank, cp := s.cp + 1 } ∧ SameRom s t

/-- Resolution takes the least breakpoint that is at least the shifted key or is the terminator; it fails where none is,
where the sample is absent, and where its index is not in the table (R104). -/
def Obligations.SampleResolution : Prop :=
  ∀ (s : State) (q : Nat) (t : Int), let hit := fun j => t ≤ Int.ofNat (s.pdtData q (0x10 + j)) ∨ s.pdtData q (0x10 + j) = 0x7F
    ((∀ j, j < 16 → ¬ hit j) → resolveSample s q t = .error .noSample) ∧
    (∀ j, j < 16 → hit j → (∀ k, k < j → ¬ hit k) →
      (s.pdtData q (0x20 + j) = 0xFFFF → resolveSample s q t = .error .noSample) ∧
      (s.pdtData q (0x20 + j) ≠ 0xFFFF → s.params.ns ≤ s.pdtData q (0x20 + j) →
        resolveSample s q t = .error .index) ∧
      (s.pdtData q (0x20 + j) ≠ 0xFFFF → s.pdtData q (0x20 + j) < s.params.ns →
        resolveSample s q t = .ok (s.pdtData q (0x20 + j))))

/-- The static key shift: with the system's and the part's for a melodic voice, with the part's for a drum from the SC55mk2
on, never with the system's for a drum; in −192..189 where the registers are legal (R103). -/
def Obligations.KeyShift : Prop :=
  ∀ (s : State) (v : Nat), let p := s.vsReg v 0
    let coarse : Int := s.partReg p 0x00 - 64
    let part : Int := s.partReg p 0x01 - 64
    let sys : Int := s.sysReg 2 - 64
    (s.vsReg v 3 % 2 = 0 → keyShiftOf s v = coarse + sys + part) ∧
    (s.vsReg v 3 % 2 = 1 → s.params.gen = .sc55 → keyShiftOf s v = coarse) ∧
    (s.vsReg v 3 % 2 = 1 → s.params.gen ≠ .sc55 → keyShiftOf s v = coarse + part) ∧
    (RegistersLegal s → -192 ≤ keyShiftOf s v ∧ keyShiftOf s v ≤ 189)

/-- VSTART's faults, in the order of R110, each with no effect on any voice. -/
def Obligations.VstartFaults : Prop :=
  ∀ (v q : Nat) (s : State), let faults := fun c => exec (.vstart v q) s = .next (raise c (encode (.vstart v q)) s)
    let resolved := resolveSample s q (Int.ofNat (s.vsReg v 1) + keyShiftOf s v)
    (s.params.nv ≤ v → faults .index) ∧
    (v < s.params.nv → s.params.np ≤ q → faults .index) ∧
    (v < s.params.nv → q < s.params.np → s.pdtLoaded q = false → faults .unloaded) ∧
    (v < s.params.nv → q < s.params.np → s.pdtLoaded q = true →
      (∀ c, resolved = .error c → faults c) ∧
      (∀ i, resolved = .ok i → (s.sdtLoaded i = false ∨ (s.bankOf i).decoded = false) → faults .unloaded) ∧
      (∀ i, resolved = .ok i → s.sdtLoaded i = true → (s.bankOf i).decoded = true → s.sdtData i 1 < s.sdtData i 2 →
        faults .loopGeom))

/-- VSTART completes where its checks pass: the voice is active with the other flags clear, its fields are latched from VS,
PDT and SDT, its loop bounds derived, its phase, counter and filter history start at zero, its generators start in a legal
stage, in the reference ENV SUSTAIN with the TVA at 1.0 and the others at 0.0, and no other voice changes (R105 to R109,
R111, R136). -/
def Obligations.VstartCompletes : Prop :=
  ∀ (v q i : Nat) (s : State), v < s.params.nv → q < s.params.np → s.pdtLoaded q = true →
    resolveSample s q (Int.ofNat (s.vsReg v 1) + keyShiftOf s v) = .ok i →
    s.sdtLoaded i = true → (s.bankOf i).decoded = true → s.sdtData i 2 ≤ s.sdtData i 1 →
    ∃ t, exec (.vstart v q) s = .next t ∧
      t = { s with voices := t.voices, cp := s.cp + 1 } ∧ SameRom s t ∧ (∀ u, u ≠ v → t.voice u = s.voice u) ∧
      (t.voice v).active = true ∧ (t.voice v).finished = false ∧ (t.voice v).releasing = false ∧
      (t.voice v).isLooping = false ∧ (t.voice v).aborted = false ∧
      (t.voice v).part = s.vsReg v 0 ∧ (t.voice v).key = s.vsReg v 1 ∧ (t.voice v).velocity = s.vsReg v 2 ∧
      (t.voice v).drum = decide (s.vsReg v 3 % 2 = 1) ∧ (t.voice v).map = s.vsReg v 3 / 2 % 2 ∧
      (t.voice v).pan = s.vsReg v 5 ∧
      (t.voice v).instTV = (List.range s.params.nit).map (fun k => s.vsReg v (0x10 + k)) ∧
      (t.voice v).q = q ∧ (t.voice v).coarsePitch = s.pdtData q 0 ∧ (t.voice v).finePitch = s.pdtData q 1 ∧
      (t.voice v).pitchKeyFlw = s.pdtData q 2 ∧ (t.voice v).partialVolume = s.pdtData q 3 ∧
      (t.voice v).tv = (List.range s.params.ntv).map (fun k => s.pdtData q (0x40 + k)) ∧
      (t.voice v).s = i ∧ (t.voice v).sampleLen = s.sdtData i 1 ∧ (t.voice v).loopLen = s.sdtData i 2 ∧
      (t.voice v).loopMode = s.sdtData i 3 ∧ (t.voice v).rootKey = s.sdtData i 4 ∧
      (t.voice v).samplePitch = s.sdtData i 5 ∧ (t.voice v).sampleVolume = s.sdtData i 6 ∧
      (t.voice v).fineVolume = s.sdtData i 7 ∧
      (t.voice v).loopStart = Int.ofNat (s.sdtData i 1 - s.sdtData i 2) ∧
      (t.voice v).loopEnd = Int.ofNat (s.sdtData i 1) ∧
      (t.voice v).keyShift = keyShiftOf s v ∧
      (t.voice v).keyDiff =
        (if s.vsReg v 3 % 2 = 1 then (s.drumReg (s.vsReg v 3 / 2 % 2) (s.vsReg v 1) 0 : Int) - 60 + keyShiftOf s v
         else (s.vsReg v 1 : Int) + keyShiftOf s v - s.sdtData i 4) ∧
      (let N := s.params.numerics
        let x := t.voice v
        let volume := fun y => N.sub (N.mul (R.ofRat 1 10) (N.pow2 (N.div y (R.ofRat 367111 10000)))) (R.ofRat 1 10)
        x.pkf = (if (s.pdtData q 2 : Int) - 0x40 ≠ 10
          then N.add R.one (N.div (R.ofInt ((s.pdtData q 2 : Int) - 0x4A)) (R.ofInt 10)) else R.one) ∧
        x.cents = N.add
          (N.add
            (N.mul
              (N.add (N.add (R.ofInt ((s.pdtData q 0 : Int) - 0x40)) (N.mul (R.ofInt x.keyDiff) x.pkf))
                (N.mul (R.ofInt (60 - (s.sdtData i 4 : Int))) (N.sub R.one x.pkf)))
              (R.ofInt 100))
            (R.ofInt ((s.pdtData q 1 : Int) - 0x40)))
          (N.div (R.ofInt ((s.sdtData i 5 : Int) - 1024)) (R.ofInt 16)) ∧
        x.staticPitch =
          N.div (N.mul (N.pow2 (N.div x.cents (R.ofInt 1200))) (R.ofInt 32000)) (R.ofInt s.fs.toNat) ∧
        x.staticVolume =
          N.mul (N.mul (volume (R.ofInt (s.vsReg v 4))) (volume (fineVol s.params (s.sdtData i 6) (s.sdtData i 7))))
            (volume (R.ofInt (s.pdtData q 3))) ∧
        (s.params.fineVol = .reference → fineVol s.params (s.sdtData i 6) (s.sdtData i 7) =
          N.add (R.ofInt (s.sdtData i 6)) (N.div (R.ofInt ((s.sdtData i 7 : Int) - 1024)) (R.ofInt 1000)))) ∧
      (t.voice v).phase = R.zero ∧ (t.voice v).refreshCnt = 0 ∧ (t.voice v).tvf.key = none ∧
      (t.voice v).tvf.hist = { x1 := R.zero, x2 := R.zero, y1 := R.zero, y2 := R.zero } ∧
      (∀ g, ((t.voice v).eg g).stage.code ≤ 3 ∧ legalLevel g ((t.voice v).eg g).level = true) ∧
      (s.params.env = .reference →
        (t.voice v).egTva.stage = .sustain ∧ (t.voice v).egTva.level = R.one ∧
        (t.voice v).egTvp.stage = .sustain ∧ (t.voice v).egTvp.level = R.zero ∧
        (t.voice v).egTvf.stage = .sustain ∧ (t.voice v).egTvf.level = R.zero)

/-- VNOTEOFF: nothing on a voice that is inactive, already releasing, or a drum whose key receives no note-off; otherwise
the voice is releasing and each generator not done is in RELEASE; no LFO, no other field and no other voice changes
(R112, R126). -/
def Obligations.VnoteoffCompletes : Prop :=
  ∀ (v : Nat) (s : State), let x := s.voice v
    (s.params.nv ≤ v → exec (.vnoteoff v) s = .next (raise .index (encode (.vnoteoff v)) s)) ∧
    (v < s.params.nv → ∃ t, exec (.vnoteoff v) s = .next t ∧
      t = { s with voices := t.voices, cp := s.cp + 1 } ∧ SameRom s t ∧ (∀ u, u ≠ v → t.voice u = s.voice u) ∧
      (x.active = false ∨ x.releasing = true → t.voice v = x) ∧
      (x.drum = true → s.drumReg x.map x.key 1 = 0 → t.voice v = x) ∧
      (x.active = true → x.releasing = false → (x.drum = false ∨ s.drumReg x.map x.key 1 ≠ 0) →
        t.voice v = { x with
          releasing := true, egTvp := (t.voice v).egTvp, egTvf := (t.voice v).egTvf, egTva := (t.voice v).egTva } ∧
        ∀ g, ((x.eg g).stage ≠ .release → (x.eg g).stage ≠ .done → ((t.voice v).eg g).stage = .release) ∧
          ((x.eg g).stage = .release ∨ (x.eg g).stage = .done → (t.voice v).eg g = x.eg g)))

/-- VKILL clears `active` of one voice and changes nothing else (R113). -/
def Obligations.VkillCompletes : Prop :=
  (∀ (w : Word) (s : State), opField w = 0x33 → (aField w ≠ 0 ∨ dataField w ≠ 0) →
    execWord w s = .next (raise .rsvd w s)) ∧
  (∀ (v : Nat) (s : State), v < 0x10000 → encode (.vkill v) = BitVec.ofNat 64 (0x33 + v * 65536) ∧
    (s.params.nv ≤ v → exec (.vkill v) s = .next (raise .index (encode (.vkill v)) s)) ∧
    (v < s.params.nv → ∃ t, exec (.vkill v) s = .next t ∧
      (∀ u, t.voice u = if u = v then { s.voice v with active := false } else s.voice u) ∧
      t = { s with voices := t.voices, cp := s.cp + 1 } ∧ SameRom s t))

/-- RDVOICE appends the status word and changes nothing else; a slot not started since reset reports 0xA0; and the fields of
the word (R58, R74, R114). -/
def Obligations.RdvoiceCompletes : Prop :=
  (∀ (w : Word) (s : State), opField w = 0x34 → (aField w ≠ 0 ∨ dataField w ≠ 0) →
    execWord w s = .next (raise .rsvd w s)) ∧
  (∀ (v : Nat) (s : State), v < 0x10000 → encode (.rdvoice v) = BitVec.ofNat 64 (0x34 + v * 65536) ∧
    (s.params.nv ≤ v → exec (.rdvoice v) s = .next (raise .index (encode (.rdvoice v)) s)) ∧
    (v < s.params.nv →
      exec (.rdvoice v) s = .next { s with resp := s.resp ++ [(s.voice v).statusWord], cp := s.cp + 1 })) ∧
  (∀ v, (State.reset.voice v).statusWord = 0x00000000000000A0) ∧
  (∀ x : Voice, let r := x.statusWord
    r.getLsbD 0 = x.active ∧ r.getLsbD 1 = x.finished ∧ r.getLsbD 2 = x.releasing ∧ r.getLsbD 3 = x.isLooping ∧
    r.getLsbD 4 = x.aborted ∧ (r.extractLsb' 5 3).toNat = x.egTva.stage.code ∧
    r.extractLsb' 8 8 = BitVec.ofNat 8 x.part ∧ r.extractLsb' 16 8 = BitVec.ofNat 8 x.key ∧ r.extractLsb' 24 8 = 0 ∧
    r.extractLsb' 32 32 = x.egTva.level.toF32.bits)

/-- RDFAULT appends two words and changes nothing else: the register with the cause and the voice above it, and the
recorded command; after reset 0x0000FF0000000000 and 0, after the illegal word 0x7F the record of it (R75, R149). -/
def Obligations.RdfaultCompletes : Prop :=
  encode .rdfault = 0x35#64 ∧
  (∀ (w : Word) (s : State), opField w = 0x35 → w ≠ 0x35#64 → execWord w s = .next (raise .rsvd w s)) ∧
  (∀ s : State, exec .rdfault s = .next { s with
    resp := s.resp ++ [s.fault.setWidth 64 ||| (s.faultCause.setWidth 64 <<< 32) ||| (s.faultVoice.setWidth 64 <<< 40),
      s.faultCmd]
    cp := s.cp + 1 }) ∧
  State.reset.faultWord = 0x0000FF0000000000#64 ∧ State.reset.faultCmd = 0 ∧
  (raise .opcode 0x7F#64 State.reset).faultWord = 0x0000FF0100000001#64 ∧
  (raise .opcode 0x7F#64 State.reset).faultCmd = 0x7F#64

/-! ### The frame -/

/-- While no VSTART of its slot and no RESET comes, a voice's loop flag is never cleared and what VSTART latched and derived
stays, whatever is written to VS, PDT, SDT or the parameters (R36, R37, R38, R66, R162). -/
def Obligations.VoiceFieldsStay : Prop :=
  ∀ (i : Instr) (s : State) (v : Nat), v < s.params.nv → i ≠ .reset → (∀ q, i ≠ .vstart v q) →
    ∃ t, exec i s = .next t ∧ (t.voice v).latched = (s.voice v).latched ∧
      ((s.voice v).isLooping = true → (t.voice v).isLooping = true)

/-- The worked values of the reference arithmetic: the pitch and volume formulas, the key frequencies and the refresh values,
the interpolation kernels, the tap table, the interpolated reads of the bank of vector DV3, and the pans (R106, R107, R108,
R116, R117, R121, R122, R123, R134). -/
def Obligations.VoiceExamples : Prop :=
  [0x40, 0x45, 0x4A, 0x4F].map (pkfOf .reference) = [R.zero, R.ofRat 1 2, R.one, R.ofRat 3 2] ∧
  staticPitchOf .reference (centsOf .reference 0x40 0x40 1024 60 0 R.one) 32000 = R.one ∧
  staticPitchOf .reference (centsOf .reference 0x40 0x40 1024 60 12 R.one) 32000 = R.ofInt 2 ∧
  staticPitchOf .reference (centsOf .reference 0x40 0x40 1024 60 0 R.one) 44100 =
    R.ofRat 7256235827664399 10000000000000000 ∧
  staticPitchOf .reference (centsOf .reference 0x40 0x50 1184 60 0 R.one) 32000 =
    R.ofRat 10151315285859748 10000000000000000 ∧
  staticPitchOf .reference (centsOf .reference 0x04 0x40 1024 60 0 R.one) 1280 = R.ofRat 25 32 ∧
  centsOf .reference 0x40 0x40 1024 48 24 (R.ofRat 1 2) = R.ofInt 1800 ∧
  centsOf .reference 0x42 0x40 1024 72 (-12) (R.ofRat 3 2) = R.ofInt (-1000) ∧
  fineVol referenceParams 100 2024 = R.ofInt 101 ∧
  staticVolumeOf referenceParams 127 127 1024 127 = R.ofRat 10000286560423353 10000000000000000 ∧
  [(0, 0x40), (127, 0x40), (64, 64), (100, 0x50), (127, 127), (0, 127), (0, 0)].map (fun x => panMap referenceParams x.1 x.2) =
    [R.zero, R.one, R.ofRat 5039370078740157 10000000000000000, R.ofRat 9133858267716536 10000000000000000, R.one,
      R.ofRat 49606299212598426 100000000000000000, R.zero] ∧
  volconv .reference (R.ofInt 0) = R.zero ∧
  volconv .reference (R.ofInt 64) = R.ofRat 23480984068445707 100000000000000000 ∧
  volconv .reference (R.ofInt 127) = R.ofRat 10000095519228722 10000000000000000 ∧
  [0, 64, 128, 192].map linKernel =
    [(R.one, R.zero), (R.ofRat 3 4, R.ofRat 1 4), (R.ofRat 1 2, R.ofRat 1 2), (R.ofRat 1 4, R.ofRat 3 4)] ∧
  [0, 64, 128].map cubKernel =
    [(R.zero, R.one, R.zero, R.zero), (R.ofRat (-546875) 10000000, R.ofRat 8203125 10000000,
      R.ofRat 2734375 10000000, R.ofRat (-390625) 10000000),
     (R.ofRat (-625) 10000, R.ofRat 5625 10000, R.ofRat 5625 10000, R.ofRat (-625) 10000)] ∧
  [-1, 0, 1, 2, 3, 4, 5].map
      (tapIndex { Voice.reset with sampleLen := 3, loopLen := 1, loopStart := 2, loopEnd := 3 }) =
    [3, 0, 1, 2, 2, 3, 3] ∧
  [60, 69].map (keyFreq .reference) = [R.ofRat 2616255653005986 10000000000000, R.ofInt 440] ∧
  pitchExpOf .reference 0x400 0x40 0x4000 = R.one ∧
  pitchExpOf .reference 0x44F 0x40 0x4000 = R.ofRat 10045736462769368 10000000000000000 ∧
  pitchExpOf .reference 0x400 0x40 0 = R.ofRat 9438743126816935 10000000000000000 ∧
  pitchExpOf .reference 0x400 0x41 0x4000 = R.ofRat 10005777895065548 10000000000000000 ∧
  (∀ k, k < 128 → pitchOffsetOf .reference k 0x80 = R.one) ∧
  pitchOffsetOf .reference 69 0xE4 = R.ofRat 10227272727272727 10000000000000000 ∧
  (let bank : Bank :=
      { decoded := true, data := [⟨0x3C12092D#32⟩, ⟨0x3CFD6671#32⟩, ⟨0x3CC13D79#32⟩, ⟨0x3CC2C8BF#32⟩] }
    let read := fun (interp : BitVec 2) (phase : R) =>
      readSample { State.reset with bank := [(0, bank)], interp := interp }
        { Voice.reset with s := 0, sampleLen := 3, loopLen := 1, loopStart := 2, loopEnd := 3, phase := phase }
    read 0 R.one = R.ofRat 30932636931538582 1000000000000000000 ∧
    read 1 (R.ofRat 1 2) = R.ofRat 19922978710383177 1000000000000000000 ∧
    read 2 (R.ofRat 1 2) = R.ofRat 19452960637863725 1000000000000000000 ∧
    read 2 (R.ofRat 5 2) = R.ofRat 2311811805702746 100000000000000000 ∧
    read 1 (R.ofRat 7 2) = R.ofRat 23683123290538788 1000000000000000000 ∧
    read 2 (R.ofRat 7 2) = R.ofRat 23683123290538788 1000000000000000000)

/-- FRAME completes: each active voice takes one step, the pair of the mix is appended, the runtime faults are recorded in
ascending voice order with the mix's last, and nothing else changes (R137, R138, R143, R145). The mix of a side is the sum
of the parts' sums, each times its gain, in ascending order from +0.0, times the master volume over 127, times 32000 over
`FS` (R140, R143); the reference part gain is that of R139 and the reference master pan the identity (R141). -/
def Obligations.FrameCompletes : Prop :=
  (∀ (s : State) (side : VoiceOut → R), let N := s.params.numerics
    frameSide s side = N.div (N.mul (N.div (N.mul
      ((List.range s.params.nPart).foldl (fun sum p => N.add sum (N.mul (partGain s p) (partSum s side p))) R.zero)
      (R.ofInt (s.sysReg 1))) (R.ofInt 127)) (R.ofInt 32000)) (R.ofInt s.fs.toNat)) ∧
  (∀ (s : State) (p : Nat), s.params.partGain = .reference → let N := s.params.numerics
    partGain s p = N.mul (N.div (R.ofInt (s.partReg p 0x10)) (R.ofInt 127)) (N.div (R.ofInt (s.partReg p 0x11)) (R.ofInt 127))) ∧
  (∀ s : State, s.params.mPan = .reference → frameMix s = (frameSide s VoiceOut.left, frameSide s VoiceOut.right)) ∧
  ∀ s : State, ∃ t, exec .frame s = .next t ∧
    (∀ v, t.voice v = if v < s.params.nv ∧ (s.voice v).active = true then frameVoice s v else s.voice v) ∧
    t.out = s.out ++ [framePair s] ∧
    t = { s with
      cp := s.cp + 1, out := t.out, voices := t.voices, fault := (frameRecord s).fault
      faultCause := (frameRecord s).faultCause, faultVoice := (frameRecord s).faultVoice
      faultCmd := (frameRecord s).faultCmd } ∧ SameRom s t

/-- The first voice that faults in a clean machine is the one recorded; a frame in which a voice faults is silent
(R138, R145). -/
def Obligations.FirstFaultOfFrame : Prop :=
  ∀ (s : State) (v : Nat) (c : Cause), v < s.params.nv → (s.voice v).active = true → (frameStep s v).fault = some c →
    (∀ u, u < v → (s.voice u).active = true → (frameStep s u).fault = none) →
    ∃ t, exec .frame s = .next t ∧ t.out = s.out ++ [(0, 0)] ∧ t.fault &&& c.bit = c.bit ∧
      (s.fault = 0 → t.faultCause = BitVec.ofNat 8 c.code ∧ t.faultVoice = BitVec.ofNat 8 v ∧
        t.faultCmd = encode .frame) ∧
      (t.voice v).aborted = true ∧ (t.voice v).active = false

/-- In the reference arithmetic a frame with no active voice emits (0, 0) and records no fault (R143). That every MPAN keeps
silence is read from that rule (log entry 2). -/
def Obligations.IdleFrameIsSilent : Prop :=
  ∀ s : State, s.params.numerics = .reference → RegistersLegal s →
    (∀ v, v < s.params.nv → (s.voice v).active = false) →
    exec .frame s = .next { s with cp := s.cp + 1, out := s.out ++ [(0, 0)] }

/-- The voice step after its refresh. The phase rule: a one-shot voice at its end finishes in silence with that phase; one
outside its range after the single wrap is aborted in silence; any other keeps its phase in `[0, sampleLen + 1)` and enters
its loop once past `loopStart` (R118, R119, R120, R138). The output of that last one: the sample at its phase times 0.65
times the static volume, through the biquad with the voice's coefficients and history, times the TVA level from before the
tick, panned; its history and generators advance; where the pair is not finite the voice is aborted in silence (R80, R132,
R133, R134, R137, R138). That an infinite phase of a one-shot voice is outside the range and not its end is log entry 17,
that an aborted voice keeps the wrapped phase and its loop flag log entry 18. The reference pan is the sum of the two pans
less 64, held to 0..127, over 127 (R134); the tick is that of every generator, with the LFO outputs from before it, then of
the two LFOs (R133); that the tick reads no part register is log entry 26. -/
def Obligations.PhaseRule : Prop :=
  ∀ (s : State) (x : Voice), let y := refreshIfDue s x
    let N := s.params.numerics
    let pitch := N.mul (N.mul (N.mul (N.mul y.pitchExp y.pitchOffsetHz) (s.pbfOf x.part)) x.staticPitch) (tvpPitch s y)
    let moved := N.add x.phase pitch
    let atEnd := moved.isFinite && R.le (R.ofInt (x.sampleLen + 1)) moved
    let wrapped := if atEnd then N.sub moved (R.ofInt (x.loopLen + 1)) else moved
    let inside := R.le R.zero wrapped && R.lt wrapped (R.ofInt (x.sampleLen + 1))
    let o := voiceStep s x
    (x.loopMode = 2 → atEnd = true →
      o.voice = { y with phase := moved, finished := true, active := false } ∧ o.left = R.zero ∧ o.right = R.zero ∧
        o.fault = none) ∧
    (¬ (x.loopMode = 2 ∧ atEnd = true) → inside = false →
      o.voice = { y with phase := wrapped, aborted := true, active := false } ∧ o.left = R.zero ∧ o.right = R.zero ∧
        o.fault = some .phase) ∧
    (¬ (x.loopMode = 2 ∧ atEnd = true) → inside = true →
      let z := { y with
        phase := wrapped, isLooping := x.isLooping || (x.loopMode != 2 && R.lt (R.ofInt x.loopStart) wrapped) }
      let c := y.tvf.coeffs
      let h := x.tvf.hist
      let input := N.mul (N.mul (readSample s z) (R.ofRat 65 100)) x.staticVolume
      let filtered := N.sub (N.sub (N.add (N.add (N.mul c.n0 input) (N.mul c.n1 h.x1)) (N.mul c.n2 h.x2))
        (N.mul c.d1 h.y1)) (N.mul c.d2 h.y2)
      let a := N.mul filtered y.egTva.level
      let pan := panMap s.params x.pan (s.partReg x.part 0x1A)
      let left := N.mul a (N.sub R.one pan)
      let right := N.mul a pan
      let after := tickGenerators s
        { z with tvf := { z.tvf with hist := { x1 := input, x2 := h.x1, y1 := filtered, y2 := h.y1 } } }
      o = if left.isFinite && right.isFinite then { voice := after, left := left, right := right, fault := none }
        else { voice := { after with aborted := true, active := false }, left := R.zero, right := R.zero
               fault := some .numeric }) ∧
    (s.params.panMap = .reference → ∀ b pp : Nat,
      panMap s.params b pp = N.div (R.ofInt (min (max ((b : Int) + pp - 64) 0) 127)) (R.ofInt 127)) ∧
    (let z := tickGenerators s x
      let i := frameInputs s x
      let e : EnvInputs :=
        { base := i, out1 := lfoOut s.params.lfo .lfo1 i x.lfo1, out2 := lfoOut s.params.lfo .lfo2 i x.lfo2 }
      z = { x with egTvp := z.egTvp, egTvf := z.egTvf, egTva := z.egTva, lfo1 := z.lfo1, lfo2 := z.lfo2 } ∧
        (∀ g, z.eg g = envTick s.params.env g e (x.eg g)) ∧
        z.lfo1 = lfoTick s.params.lfo .lfo1 i x.lfo1 ∧ z.lfo2 = lfoTick s.params.lfo .lfo2 i x.lfo2)

/-- The bank of a playing voice never changes under it (R66, R164). -/
def Obligations.PlayingBankUnchanged : Prop :=
  ∀ (w : Word) (s : State) (v : Nat), v < s.params.nv → (s.voice v).active = true →
    ∃ t, execWord w s = .next t ∧ (t.bankOf (s.voice v).s).data = (s.bankOf (s.voice v).s).data

/-- The refresh counter counts the voice's own frame steps modulo `floor(FS / 128)`; where it is 0 the tuning factors are
computed from the registers; between refreshes they, the TVF coefficients and their key stay (R115, R117, R131). A refresh
takes the two LFOs first and then the three generators, which read the refreshed LFOs (R128); between refreshes both stay. That a refresh alone sees both the part registers and
modAcc is log entry 26. -/
def Obligations.RefreshCounter : Prop :=
  (∀ (s : State) (x : Voice), let y := refreshIfDue s x
    let i := refreshInputs s x
    let e : EnvInputs :=
      { base := i, out1 := lfoOut s.params.lfo .lfo1 i y.lfo1, out2 := lfoOut s.params.lfo .lfo2 i y.lfo2 }
    (x.refreshCnt = 0 → y.lfo1 = lfoRefresh s.params.lfo .lfo1 i x.lfo1 ∧ y.lfo2 = lfoRefresh s.params.lfo .lfo2 i x.lfo2 ∧
      ∀ g, y.eg g = envRefresh s.params.env g e (x.eg g)) ∧
    (x.refreshCnt ≠ 0 → y.lfo1 = x.lfo1 ∧ y.lfo2 = x.lfo2 ∧ ∀ g, y.eg g = x.eg g)) ∧
  ∀ (s : State) (v : Nat), v < s.params.nv → (s.voice v).active = true → ∃ t, exec .frame s = .next t ∧
    (t.voice v).refreshCnt = ((s.voice v).refreshCnt + 1) % (s.fs.toNat / 128) ∧
    ((s.voice v).refreshCnt = 0 → let p := (s.voice v).part; let k := (s.voice v).key
      (t.voice v).pitchExp = pitchExpOf s.params.numerics (s.sysReg 0) (s.partReg p (4 + k % 12)) (s.partReg p 2) ∧
      (t.voice v).pitchOffsetHz = pitchOffsetOf s.params.numerics k (s.partReg p 3)) ∧
    ((s.voice v).refreshCnt ≠ 0 →
      (t.voice v).pitchExp = (s.voice v).pitchExp ∧ (t.voice v).pitchOffsetHz = (s.voice v).pitchOffsetHz ∧
      (t.voice v).tvf.coeffs = (s.voice v).tvf.coeffs ∧ (t.voice v).tvf.key = (s.voice v).tvf.key)

/-- Between refreshes a voice's step depends on the format, the banks, the bend factors and the part pans alone: no write to
the tuning, the TVF, envelope or vibrato registers, or the controller matrix, reaches it before its next refresh, whatever
ENV and LFO are (R91, R163, R164). This rests on log entry 26: R124 and R125 let a tick read the part registers, and the
model lets the generators see them at VSTART and at refreshes only. -/
def Obligations.WritesWaitForRefresh : Prop :=
  ∀ (s t : State) (x : Voice), x.refreshCnt ≠ 0 → t.fs = s.fs → t.interp = s.interp → t.bank = s.bank →
    t.params = s.params → t.pbf = s.pbf → (∀ p, t.partReg p 0x1A = s.partReg p 0x1A) → voiceStep t x = voiceStep s x

/-- A voice's part in a frame, which is its step, the pair it adds, the fault it raises and the voice it leaves in the slot,
depends on no other voice, on no descriptor, setup or drum register, on no fault and on neither stream (R124, R137). -/
def Obligations.VoicesIndependent : Prop :=
  ∀ (s s' : State) (v : Nat), v < s.params.nv → SameInputs s s' → s'.voice v = s.voice v →
    frameStep s' v = frameStep s v ∧
      ∃ t t', exec .frame s = .next t ∧ exec .frame s' = .next t' ∧ t'.voice v = t.voice v

/-- Without a note-off a voice does not end through its TVA: if it is active and not releasing, does not fault and, where it
is one-shot, its phase does not reach its end in the frame, it is active after it, for every ENV (R126, R135). -/
def Obligations.HeldUntilRelease : Prop :=
  ∀ (s : State) (v : Nat), EnvelopesLegal s → v < s.params.nv → (s.voice v).active = true →
    (s.voice v).releasing = false → (frameStep s v).fault = none →
    ((s.voice v).loopMode = 2 → R.lt (frameStep s v).voice.phase (R.ofInt ((s.voice v).sampleLen + 1)) = true) →
    ∃ t, exec .frame s = .next t ∧ (t.voice v).active = true

/-- Under the reference ENV the frame after a note-off is the voice's last, unless it faults or, being one-shot, reaches its
end: after it the voice is finished and inactive, its TVA done at level 0.0 (R126, R135, R136). The reference ENV and LFO
are those of R136: a tick takes a generator from RELEASE to DONE, the TVA at 0.0, and else changes nothing; a refresh changes
nothing; the pitch ratio is 1.0, the envelope term and the LFO outputs 0.0. -/
def Obligations.ReleaseEndsVoice : Prop :=
  (∀ (g : Gen) (i : EnvInputs) (e : EG),
    (e.stage = .release → envTick .reference g i e =
      { e with stage := .done, level := if g = .tva then R.zero else e.level }) ∧
    (e.stage ≠ .release → envTick .reference g i e = e) ∧ envRefresh .reference g i e = e ∧
    (e.stage ≠ .release → e.stage ≠ .done → envRelease .reference g i e = { e with stage := .release }) ∧
    envTvpPitch .reference i e = R.one ∧ envTvfEnv .reference i e = R.zero) ∧
  (∀ (l : LfoId) (i : VoiceInputs) (x : Nat), lfoOut .reference l i x = R.zero) ∧
  ∀ (s : State) (v : Nat), s.params.env = .reference → v < s.params.nv → (s.voice v).active = true →
    (s.voice v).egTva.stage = .release → (frameStep s v).fault = none →
    ((s.voice v).loopMode = 2 → R.lt (frameStep s v).voice.phase (R.ofInt ((s.voice v).sampleLen + 1)) = true) →
    ∃ t, exec .frame s = .next t ∧ (t.voice v).active = false ∧ (t.voice v).finished = true ∧
      (t.voice v).egTva.stage = .done ∧ (t.voice v).egTva.level = R.zero

/-- The TVF coefficients in use after a refresh are those of the key in the cache, which equals the current cutoff, quality
and rate by value or is computed from them (R43, R67, R131). The cutoff is the sum of R130, evaluated left to right, of the
base, the envelope term and the two LFO outputs times their depths; in the reference instance it is 8000.0 and the quality
0.7071067811865476 (R130, R136). -/
def Obligations.CoefficientsCurrent : Prop :=
  (∀ (s : State) (x : Voice), let N := s.params.numerics
    let c := s.params.tvfMap
    let i := refreshInputs s x
    let out1 := lfoOut s.params.lfo .lfo1 i x.lfo1
    let out2 := lfoOut s.params.lfo .lfo2 i x.lfo2
    let base := tvfBase c (s.partReg x.part 0x12) x.tv x.instTV (modAcc s x.part 1)
    let env := envTvfEnv s.params.env { base := i, out1 := out1, out2 := out2 } x.egTvf
    tvfCutoff s x = N.add (N.add (N.add base env) (N.mul out1 (tvfDepth1 c (modAcc s x.part 5))))
      (N.mul out2 (tvfDepth2 c (modAcc s x.part 9))) ∧
    tvfQuality s x = tvfQ c (s.partReg x.part 0x13)) ∧
  (∀ (s : State) (x : Voice), s.params.numerics = .reference → s.params.env = .reference → s.params.lfo = .reference →
    s.params.tvfMap = .reference → tvfCutoff s x = R.ofInt 8000 ∧
      tvfQuality s x = R.ofRat 7071067811865476 10000000000000000) ∧
  ∀ (s : State) (x : Voice),
    (∀ k, x.tvf.key = some k → x.tvf.coeffs = lpCoeffs s.params.numerics k.cutoff k.quality k.fs) →
    ∃ k, (refreshTvf s x).tvf.key = some k ∧
      (refreshTvf s x).tvf.coeffs = lpCoeffs s.params.numerics k.cutoff k.quality k.fs ∧
      (refreshTvf s x).tvf.hist = x.tvf.hist ∧ k.fs = s.fs.toNat ∧
      ((k.cutoff = tvfCutoff s x ∧ k.quality = tvfQuality s x) ∨
       (R.eqv k.cutoff (tvfCutoff s x) = true ∧ R.eqv k.quality (tvfQuality s x) = true))

/-- Every interpolation tap of a safe voice reads inside its bank, and so does the nearest read, which takes the element at
the integer part of the phase without a tap (R51, R121, R123). -/
def Obligations.TapsInsideBank : Prop :=
  ∀ (s : State) (x : Voice), VoiceSafe s x →
    (∀ j : Int, tapIndex x j < (s.bankOf x.s).data.length) ∧
    ∃ k : Nat, x.phase.floor = Int.ofNat k ∧ k ≤ x.sampleLen ∧ k < (s.bankOf x.s).data.length ∧
      (s.interp = 0 → readSample s x = s.bankRead x.s k)

/-- The conversion to int16: what lies beyond the range saturates, and the worked values; the worked part gains and master
factors (R139, R140, R142). -/
def Obligations.OutputConversion : Prop :=
  [[], [(0x10, 127)], [(0x10, 64)]].map (fun l => partGain { State.reset with part := l } 0) =
    [R.ofRat 7874015748031497 10000000000000000, R.one, R.ofRat 5039370078740157 10000000000000000] ∧
  [32000, 64000, 44100, 1280].map (fun fs => masterGain { State.reset with fs := BitVec.ofNat 32 fs } R.one) =
    [R.one, R.ofRat 1 2, R.ofRat 7256235827664399 10000000000000000, R.ofInt 25] ∧
  (∀ (N : Numerics) (x : R), R.lt (R.ofInt 32767) (N.mul x (R.ofInt 32767)) = true →
    (toInt16 N x).toInt = 32767) ∧
  (∀ (N : Numerics) (x : R), R.lt (N.mul x (R.ofInt 32767)) (R.ofInt (-32768)) = true → (toInt16 N x).toInt = -32768) ∧
  [R.ofRat 1 2, R.ofRat (-1) 2, R.ofRat 3 2, R.ofRat (-3) 2, R.zero, R.zero.negate, R.one, R.one.negate,
      R.ofRat 45 10000000].map (fun x => (toInt16 .reference x).toInt) =
    [16383, -16383, 32767, -32768, 0, 0, 32767, -32767, 0]

/-! ### Invariants -/

/-- Every indexed piece of state keeps its canonical form, and the parameters stay legal (R7, R44). The canonical form is
the model's own design, not the spec's (log entry 13). -/
def Obligations.CanonicalKept : Prop := ∀ s t : State, Canonical s → step s = .next t → Canonical t

/-- The registers stay legal, decoded banks match their descriptors, and every active voice stays safe: its phase in
`[0, sampleLen + 1)`, its indices in range, its counter below the period (R22, R23, R34, R115, R119). -/
def Obligations.SoundKept : Prop :=
  ∀ s t : State, s.params.legal = true → Sound s → step s = .next t → Sound t

/-- The reserved FAULT bits stay 0, and the record stays that of a fault whose bit is set (R24, R25). -/
def Obligations.FaultRecordKept : Prop := ∀ s t : State, FaultRecord s → step s = .next t → FaultRecord t

/-- The TVA of an active voice is in RELEASE exactly while the voice is releasing and is never DONE, and every level stays
finite, the TVA's not negative, for every ENV (R125, R126). -/
def Obligations.EnvelopesKept : Prop := ∀ s t : State, EnvelopesLegal s → step s = .next t → EnvelopesLegal t

/-- PBF stays the value R92 computes from the current registers, and every TVF's coefficients stay those of its key
(R30, R42, R43). -/
def Obligations.CachesKept : Prop :=
  (∀ s t : State, PbfCurrent s → step s = .next t → PbfCurrent t) ∧
  (∀ s t : State, TvfCacheValid s → step s = .next t → TvfCacheValid t)

/-- All of the invariants hold after hardware reset of every instance with legal parameters and a ROM image in canonical
form, and of the model's own. Some of it is the model's choice of reset values: the finite TVP and TVF levels and the empty
TVF keys are log entry 15, the zero of an unwritten descriptor field log entry 14, and the bend factors of arithmetics other
than the reference rest on log entry 3. -/
def Obligations.InvariantsAtReset : Prop :=
  (∀ (p : Params) (rom : List Host.Cell), p.legal = true → Memory.wf p.romSize rom = true →
    let s := State.resetOf p rom
    Canonical s ∧ Sound s ∧ FaultRecord s ∧ EnvelopesLegal s ∧ PbfCurrent s ∧ TvfCacheValid s) ∧
  referenceParams.legal = true ∧ Memory.wf referenceParams.romSize [] = true

end Obligations
end

