-- ==== Sys2Proof/Laws/State.lean ====
section
/-!
SUPPORT. One lemma per field per update of the state: what each named write leaves alone, by the fields and by the named
reads. Each is true by rfl; with them no later proof unfolds a record update.
-/

namespace Sys2Proof.Machine


/-! ### setSysReg -/

@[simp] theorem setSysReg_cp (s : State) (id x : Nat) :
    (s.setSysReg id x).cp = s.cp := rfl
@[simp] theorem setSysReg_fs (s : State) (id x : Nat) :
    (s.setSysReg id x).fs = s.fs := rfl
@[simp] theorem setSysReg_interp (s : State) (id x : Nat) :
    (s.setSysReg id x).interp = s.interp := rfl
@[simp] theorem setSysReg_fault (s : State) (id x : Nat) :
    (s.setSysReg id x).fault = s.fault := rfl
@[simp] theorem setSysReg_faultCause (s : State) (id x : Nat) :
    (s.setSysReg id x).faultCause = s.faultCause := rfl
@[simp] theorem setSysReg_faultVoice (s : State) (id x : Nat) :
    (s.setSysReg id x).faultVoice = s.faultVoice := rfl
@[simp] theorem setSysReg_faultCmd (s : State) (id x : Nat) :
    (s.setSysReg id x).faultCmd = s.faultCmd := rfl
@[simp] theorem setSysReg_out (s : State) (id x : Nat) :
    (s.setSysReg id x).out = s.out := rfl
@[simp] theorem setSysReg_resp (s : State) (id x : Nat) :
    (s.setSysReg id x).resp = s.resp := rfl
@[simp] theorem setSysReg_part (s : State) (id x : Nat) :
    (s.setSysReg id x).part = s.part := rfl
@[simp] theorem setSysReg_matrix (s : State) (id x : Nat) :
    (s.setSysReg id x).matrix = s.matrix := rfl
@[simp] theorem setSysReg_pbf (s : State) (id x : Nat) :
    (s.setSysReg id x).pbf = s.pbf := rfl
@[simp] theorem setSysReg_drum (s : State) (id x : Nat) :
    (s.setSysReg id x).drum = s.drum := rfl
@[simp] theorem setSysReg_sdt (s : State) (id x : Nat) :
    (s.setSysReg id x).sdt = s.sdt := rfl
@[simp] theorem setSysReg_pdt (s : State) (id x : Nat) :
    (s.setSysReg id x).pdt = s.pdt := rfl
@[simp] theorem setSysReg_bank (s : State) (id x : Nat) :
    (s.setSysReg id x).bank = s.bank := rfl
@[simp] theorem setSysReg_vs (s : State) (id x : Nat) :
    (s.setSysReg id x).vs = s.vs := rfl
@[simp] theorem setSysReg_voices (s : State) (id x : Nat) :
    (s.setSysReg id x).voices = s.voices := rfl
@[simp] theorem setSysReg_params (s : State) (id x : Nat) :
    (s.setSysReg id x).params = s.params := rfl
@[simp] theorem setSysReg_rom (s : State) (id x : Nat) :
    (s.setSysReg id x).rom = s.rom := rfl
@[simp] theorem setSysReg_port (s : State) (id x : Nat) :
    (s.setSysReg id x).port = s.port := rfl
@[simp] theorem setSysReg_partReg (s : State) (id x : Nat) (a1 b1 : Nat) :
    (s.setSysReg id x).partReg a1 b1 = s.partReg a1 b1 := rfl
@[simp] theorem setSysReg_partRegs (s : State) (id x : Nat) (a1 : Nat) :
    (s.setSysReg id x).partRegs a1 = s.partRegs a1 := rfl
@[simp] theorem setSysReg_drumReg (s : State) (id x : Nat) (a1 b1 c1 : Nat) :
    (s.setSysReg id x).drumReg a1 b1 c1 = s.drumReg a1 b1 c1 := rfl
@[simp] theorem setSysReg_vsReg (s : State) (id x : Nat) (a1 b1 : Nat) :
    (s.setSysReg id x).vsReg a1 b1 = s.vsReg a1 b1 := rfl
@[simp] theorem setSysReg_sdtField (s : State) (id x : Nat) (a1 b1 : Nat) :
    (s.setSysReg id x).sdtField a1 b1 = s.sdtField a1 b1 := rfl
@[simp] theorem setSysReg_sdtData (s : State) (id x : Nat) (a1 b1 : Nat) :
    (s.setSysReg id x).sdtData a1 b1 = s.sdtData a1 b1 := rfl
@[simp] theorem setSysReg_sdtLoaded (s : State) (id x : Nat) (a1 : Nat) :
    (s.setSysReg id x).sdtLoaded a1 = s.sdtLoaded a1 := rfl
@[simp] theorem setSysReg_pdtField (s : State) (id x : Nat) (a1 b1 : Nat) :
    (s.setSysReg id x).pdtField a1 b1 = s.pdtField a1 b1 := rfl
@[simp] theorem setSysReg_pdtData (s : State) (id x : Nat) (a1 b1 : Nat) :
    (s.setSysReg id x).pdtData a1 b1 = s.pdtData a1 b1 := rfl
@[simp] theorem setSysReg_pdtLoaded (s : State) (id x : Nat) (a1 : Nat) :
    (s.setSysReg id x).pdtLoaded a1 = s.pdtLoaded a1 := rfl
@[simp] theorem setSysReg_matrixEntry (s : State) (id x : Nat) (a1 b1 c1 : Nat) :
    (s.setSysReg id x).matrixEntry a1 b1 c1 = s.matrixEntry a1 b1 c1 := rfl
@[simp] theorem setSysReg_pbfOf (s : State) (id x : Nat) (a1 : Nat) :
    (s.setSysReg id x).pbfOf a1 = s.pbfOf a1 := rfl
@[simp] theorem setSysReg_voice (s : State) (id x : Nat) (a1 : Nat) :
    (s.setSysReg id x).voice a1 = s.voice a1 := rfl
@[simp] theorem setSysReg_bankOf (s : State) (id x : Nat) (a1 : Nat) :
    (s.setSysReg id x).bankOf a1 = s.bankOf a1 := rfl
@[simp] theorem setSysReg_bankRead (s : State) (id x : Nat) (a1 b1 : Nat) :
    (s.setSysReg id x).bankRead a1 b1 = s.bankRead a1 b1 := rfl
@[simp] theorem setSysReg_romRead (s : State) (id x : Nat) (a1 : Nat) :
    (s.setSysReg id x).romRead a1 = s.romRead a1 := rfl

/-! ### setPartReg -/

@[simp] theorem setPartReg_cp (s : State) (p id x : Nat) :
    (s.setPartReg p id x).cp = s.cp := rfl
@[simp] theorem setPartReg_fs (s : State) (p id x : Nat) :
    (s.setPartReg p id x).fs = s.fs := rfl
@[simp] theorem setPartReg_interp (s : State) (p id x : Nat) :
    (s.setPartReg p id x).interp = s.interp := rfl
@[simp] theorem setPartReg_fault (s : State) (p id x : Nat) :
    (s.setPartReg p id x).fault = s.fault := rfl
@[simp] theorem setPartReg_faultCause (s : State) (p id x : Nat) :
    (s.setPartReg p id x).faultCause = s.faultCause := rfl
@[simp] theorem setPartReg_faultVoice (s : State) (p id x : Nat) :
    (s.setPartReg p id x).faultVoice = s.faultVoice := rfl
@[simp] theorem setPartReg_faultCmd (s : State) (p id x : Nat) :
    (s.setPartReg p id x).faultCmd = s.faultCmd := rfl
@[simp] theorem setPartReg_out (s : State) (p id x : Nat) :
    (s.setPartReg p id x).out = s.out := rfl
@[simp] theorem setPartReg_resp (s : State) (p id x : Nat) :
    (s.setPartReg p id x).resp = s.resp := rfl
@[simp] theorem setPartReg_sys (s : State) (p id x : Nat) :
    (s.setPartReg p id x).sys = s.sys := rfl
@[simp] theorem setPartReg_matrix (s : State) (p id x : Nat) :
    (s.setPartReg p id x).matrix = s.matrix := rfl
@[simp] theorem setPartReg_pbf (s : State) (p id x : Nat) :
    (s.setPartReg p id x).pbf = s.pbf := rfl
@[simp] theorem setPartReg_drum (s : State) (p id x : Nat) :
    (s.setPartReg p id x).drum = s.drum := rfl
@[simp] theorem setPartReg_sdt (s : State) (p id x : Nat) :
    (s.setPartReg p id x).sdt = s.sdt := rfl
@[simp] theorem setPartReg_pdt (s : State) (p id x : Nat) :
    (s.setPartReg p id x).pdt = s.pdt := rfl
@[simp] theorem setPartReg_bank (s : State) (p id x : Nat) :
    (s.setPartReg p id x).bank = s.bank := rfl
@[simp] theorem setPartReg_vs (s : State) (p id x : Nat) :
    (s.setPartReg p id x).vs = s.vs := rfl
@[simp] theorem setPartReg_voices (s : State) (p id x : Nat) :
    (s.setPartReg p id x).voices = s.voices := rfl
@[simp] theorem setPartReg_params (s : State) (p id x : Nat) :
    (s.setPartReg p id x).params = s.params := rfl
@[simp] theorem setPartReg_rom (s : State) (p id x : Nat) :
    (s.setPartReg p id x).rom = s.rom := rfl
@[simp] theorem setPartReg_port (s : State) (p id x : Nat) :
    (s.setPartReg p id x).port = s.port := rfl
@[simp] theorem setPartReg_sysReg (s : State) (p id x : Nat) (j1 : Nat) :
    (s.setPartReg p id x).sysReg j1 = s.sysReg j1 := rfl
@[simp] theorem setPartReg_drumReg (s : State) (p id x : Nat) (a1 b1 c1 : Nat) :
    (s.setPartReg p id x).drumReg a1 b1 c1 = s.drumReg a1 b1 c1 := rfl
@[simp] theorem setPartReg_vsReg (s : State) (p id x : Nat) (a1 b1 : Nat) :
    (s.setPartReg p id x).vsReg a1 b1 = s.vsReg a1 b1 := rfl
@[simp] theorem setPartReg_sdtField (s : State) (p id x : Nat) (a1 b1 : Nat) :
    (s.setPartReg p id x).sdtField a1 b1 = s.sdtField a1 b1 := rfl
@[simp] theorem setPartReg_sdtData (s : State) (p id x : Nat) (a1 b1 : Nat) :
    (s.setPartReg p id x).sdtData a1 b1 = s.sdtData a1 b1 := rfl
@[simp] theorem setPartReg_sdtLoaded (s : State) (p id x : Nat) (a1 : Nat) :
    (s.setPartReg p id x).sdtLoaded a1 = s.sdtLoaded a1 := rfl
@[simp] theorem setPartReg_pdtField (s : State) (p id x : Nat) (a1 b1 : Nat) :
    (s.setPartReg p id x).pdtField a1 b1 = s.pdtField a1 b1 := rfl
@[simp] theorem setPartReg_pdtData (s : State) (p id x : Nat) (a1 b1 : Nat) :
    (s.setPartReg p id x).pdtData a1 b1 = s.pdtData a1 b1 := rfl
@[simp] theorem setPartReg_pdtLoaded (s : State) (p id x : Nat) (a1 : Nat) :
    (s.setPartReg p id x).pdtLoaded a1 = s.pdtLoaded a1 := rfl
@[simp] theorem setPartReg_matrixEntry (s : State) (p id x : Nat) (a1 b1 c1 : Nat) :
    (s.setPartReg p id x).matrixEntry a1 b1 c1 = s.matrixEntry a1 b1 c1 := rfl
@[simp] theorem setPartReg_pbfOf (s : State) (p id x : Nat) (a1 : Nat) :
    (s.setPartReg p id x).pbfOf a1 = s.pbfOf a1 := rfl
@[simp] theorem setPartReg_voice (s : State) (p id x : Nat) (a1 : Nat) :
    (s.setPartReg p id x).voice a1 = s.voice a1 := rfl
@[simp] theorem setPartReg_bankOf (s : State) (p id x : Nat) (a1 : Nat) :
    (s.setPartReg p id x).bankOf a1 = s.bankOf a1 := rfl
@[simp] theorem setPartReg_bankRead (s : State) (p id x : Nat) (a1 b1 : Nat) :
    (s.setPartReg p id x).bankRead a1 b1 = s.bankRead a1 b1 := rfl
@[simp] theorem setPartReg_romRead (s : State) (p id x : Nat) (a1 : Nat) :
    (s.setPartReg p id x).romRead a1 = s.romRead a1 := rfl

/-! ### setDrumReg -/

@[simp] theorem setDrumReg_cp (s : State) (m k f x : Nat) :
    (s.setDrumReg m k f x).cp = s.cp := rfl
@[simp] theorem setDrumReg_fs (s : State) (m k f x : Nat) :
    (s.setDrumReg m k f x).fs = s.fs := rfl
@[simp] theorem setDrumReg_interp (s : State) (m k f x : Nat) :
    (s.setDrumReg m k f x).interp = s.interp := rfl
@[simp] theorem setDrumReg_fault (s : State) (m k f x : Nat) :
    (s.setDrumReg m k f x).fault = s.fault := rfl
@[simp] theorem setDrumReg_faultCause (s : State) (m k f x : Nat) :
    (s.setDrumReg m k f x).faultCause = s.faultCause := rfl
@[simp] theorem setDrumReg_faultVoice (s : State) (m k f x : Nat) :
    (s.setDrumReg m k f x).faultVoice = s.faultVoice := rfl
@[simp] theorem setDrumReg_faultCmd (s : State) (m k f x : Nat) :
    (s.setDrumReg m k f x).faultCmd = s.faultCmd := rfl
@[simp] theorem setDrumReg_out (s : State) (m k f x : Nat) :
    (s.setDrumReg m k f x).out = s.out := rfl
@[simp] theorem setDrumReg_resp (s : State) (m k f x : Nat) :
    (s.setDrumReg m k f x).resp = s.resp := rfl
@[simp] theorem setDrumReg_sys (s : State) (m k f x : Nat) :
    (s.setDrumReg m k f x).sys = s.sys := rfl
@[simp] theorem setDrumReg_part (s : State) (m k f x : Nat) :
    (s.setDrumReg m k f x).part = s.part := rfl
@[simp] theorem setDrumReg_matrix (s : State) (m k f x : Nat) :
    (s.setDrumReg m k f x).matrix = s.matrix := rfl
@[simp] theorem setDrumReg_pbf (s : State) (m k f x : Nat) :
    (s.setDrumReg m k f x).pbf = s.pbf := rfl
@[simp] theorem setDrumReg_sdt (s : State) (m k f x : Nat) :
    (s.setDrumReg m k f x).sdt = s.sdt := rfl
@[simp] theorem setDrumReg_pdt (s : State) (m k f x : Nat) :
    (s.setDrumReg m k f x).pdt = s.pdt := rfl
@[simp] theorem setDrumReg_bank (s : State) (m k f x : Nat) :
    (s.setDrumReg m k f x).bank = s.bank := rfl
@[simp] theorem setDrumReg_vs (s : State) (m k f x : Nat) :
    (s.setDrumReg m k f x).vs = s.vs := rfl
@[simp] theorem setDrumReg_voices (s : State) (m k f x : Nat) :
    (s.setDrumReg m k f x).voices = s.voices := rfl
@[simp] theorem setDrumReg_params (s : State) (m k f x : Nat) :
    (s.setDrumReg m k f x).params = s.params := rfl
@[simp] theorem setDrumReg_rom (s : State) (m k f x : Nat) :
    (s.setDrumReg m k f x).rom = s.rom := rfl
@[simp] theorem setDrumReg_port (s : State) (m k f x : Nat) :
    (s.setDrumReg m k f x).port = s.port := rfl
@[simp] theorem setDrumReg_sysReg (s : State) (m k f x : Nat) (j1 : Nat) :
    (s.setDrumReg m k f x).sysReg j1 = s.sysReg j1 := rfl
@[simp] theorem setDrumReg_partReg (s : State) (m k f x : Nat) (a1 b1 : Nat) :
    (s.setDrumReg m k f x).partReg a1 b1 = s.partReg a1 b1 := rfl
@[simp] theorem setDrumReg_partRegs (s : State) (m k f x : Nat) (a1 : Nat) :
    (s.setDrumReg m k f x).partRegs a1 = s.partRegs a1 := rfl
@[simp] theorem setDrumReg_vsReg (s : State) (m k f x : Nat) (a1 b1 : Nat) :
    (s.setDrumReg m k f x).vsReg a1 b1 = s.vsReg a1 b1 := rfl
@[simp] theorem setDrumReg_sdtField (s : State) (m k f x : Nat) (a1 b1 : Nat) :
    (s.setDrumReg m k f x).sdtField a1 b1 = s.sdtField a1 b1 := rfl
@[simp] theorem setDrumReg_sdtData (s : State) (m k f x : Nat) (a1 b1 : Nat) :
    (s.setDrumReg m k f x).sdtData a1 b1 = s.sdtData a1 b1 := rfl
@[simp] theorem setDrumReg_sdtLoaded (s : State) (m k f x : Nat) (a1 : Nat) :
    (s.setDrumReg m k f x).sdtLoaded a1 = s.sdtLoaded a1 := rfl
@[simp] theorem setDrumReg_pdtField (s : State) (m k f x : Nat) (a1 b1 : Nat) :
    (s.setDrumReg m k f x).pdtField a1 b1 = s.pdtField a1 b1 := rfl
@[simp] theorem setDrumReg_pdtData (s : State) (m k f x : Nat) (a1 b1 : Nat) :
    (s.setDrumReg m k f x).pdtData a1 b1 = s.pdtData a1 b1 := rfl
@[simp] theorem setDrumReg_pdtLoaded (s : State) (m k f x : Nat) (a1 : Nat) :
    (s.setDrumReg m k f x).pdtLoaded a1 = s.pdtLoaded a1 := rfl
@[simp] theorem setDrumReg_matrixEntry (s : State) (m k f x : Nat) (a1 b1 c1 : Nat) :
    (s.setDrumReg m k f x).matrixEntry a1 b1 c1 = s.matrixEntry a1 b1 c1 := rfl
@[simp] theorem setDrumReg_pbfOf (s : State) (m k f x : Nat) (a1 : Nat) :
    (s.setDrumReg m k f x).pbfOf a1 = s.pbfOf a1 := rfl
@[simp] theorem setDrumReg_voice (s : State) (m k f x : Nat) (a1 : Nat) :
    (s.setDrumReg m k f x).voice a1 = s.voice a1 := rfl
@[simp] theorem setDrumReg_bankOf (s : State) (m k f x : Nat) (a1 : Nat) :
    (s.setDrumReg m k f x).bankOf a1 = s.bankOf a1 := rfl
@[simp] theorem setDrumReg_bankRead (s : State) (m k f x : Nat) (a1 b1 : Nat) :
    (s.setDrumReg m k f x).bankRead a1 b1 = s.bankRead a1 b1 := rfl
@[simp] theorem setDrumReg_romRead (s : State) (m k f x : Nat) (a1 : Nat) :
    (s.setDrumReg m k f x).romRead a1 = s.romRead a1 := rfl

/-! ### setVsReg -/

@[simp] theorem setVsReg_cp (s : State) (v f x : Nat) :
    (s.setVsReg v f x).cp = s.cp := rfl
@[simp] theorem setVsReg_fs (s : State) (v f x : Nat) :
    (s.setVsReg v f x).fs = s.fs := rfl
@[simp] theorem setVsReg_interp (s : State) (v f x : Nat) :
    (s.setVsReg v f x).interp = s.interp := rfl
@[simp] theorem setVsReg_fault (s : State) (v f x : Nat) :
    (s.setVsReg v f x).fault = s.fault := rfl
@[simp] theorem setVsReg_faultCause (s : State) (v f x : Nat) :
    (s.setVsReg v f x).faultCause = s.faultCause := rfl
@[simp] theorem setVsReg_faultVoice (s : State) (v f x : Nat) :
    (s.setVsReg v f x).faultVoice = s.faultVoice := rfl
@[simp] theorem setVsReg_faultCmd (s : State) (v f x : Nat) :
    (s.setVsReg v f x).faultCmd = s.faultCmd := rfl
@[simp] theorem setVsReg_out (s : State) (v f x : Nat) :
    (s.setVsReg v f x).out = s.out := rfl
@[simp] theorem setVsReg_resp (s : State) (v f x : Nat) :
    (s.setVsReg v f x).resp = s.resp := rfl
@[simp] theorem setVsReg_sys (s : State) (v f x : Nat) :
    (s.setVsReg v f x).sys = s.sys := rfl
@[simp] theorem setVsReg_part (s : State) (v f x : Nat) :
    (s.setVsReg v f x).part = s.part := rfl
@[simp] theorem setVsReg_matrix (s : State) (v f x : Nat) :
    (s.setVsReg v f x).matrix = s.matrix := rfl
@[simp] theorem setVsReg_pbf (s : State) (v f x : Nat) :
    (s.setVsReg v f x).pbf = s.pbf := rfl
@[simp] theorem setVsReg_drum (s : State) (v f x : Nat) :
    (s.setVsReg v f x).drum = s.drum := rfl
@[simp] theorem setVsReg_sdt (s : State) (v f x : Nat) :
    (s.setVsReg v f x).sdt = s.sdt := rfl
@[simp] theorem setVsReg_pdt (s : State) (v f x : Nat) :
    (s.setVsReg v f x).pdt = s.pdt := rfl
@[simp] theorem setVsReg_bank (s : State) (v f x : Nat) :
    (s.setVsReg v f x).bank = s.bank := rfl
@[simp] theorem setVsReg_voices (s : State) (v f x : Nat) :
    (s.setVsReg v f x).voices = s.voices := rfl
@[simp] theorem setVsReg_params (s : State) (v f x : Nat) :
    (s.setVsReg v f x).params = s.params := rfl
@[simp] theorem setVsReg_rom (s : State) (v f x : Nat) :
    (s.setVsReg v f x).rom = s.rom := rfl
@[simp] theorem setVsReg_port (s : State) (v f x : Nat) :
    (s.setVsReg v f x).port = s.port := rfl
@[simp] theorem setVsReg_sysReg (s : State) (v f x : Nat) (j1 : Nat) :
    (s.setVsReg v f x).sysReg j1 = s.sysReg j1 := rfl
@[simp] theorem setVsReg_partReg (s : State) (v f x : Nat) (a1 b1 : Nat) :
    (s.setVsReg v f x).partReg a1 b1 = s.partReg a1 b1 := rfl
@[simp] theorem setVsReg_partRegs (s : State) (v f x : Nat) (a1 : Nat) :
    (s.setVsReg v f x).partRegs a1 = s.partRegs a1 := rfl
@[simp] theorem setVsReg_drumReg (s : State) (v f x : Nat) (a1 b1 c1 : Nat) :
    (s.setVsReg v f x).drumReg a1 b1 c1 = s.drumReg a1 b1 c1 := rfl
@[simp] theorem setVsReg_sdtField (s : State) (v f x : Nat) (a1 b1 : Nat) :
    (s.setVsReg v f x).sdtField a1 b1 = s.sdtField a1 b1 := rfl
@[simp] theorem setVsReg_sdtData (s : State) (v f x : Nat) (a1 b1 : Nat) :
    (s.setVsReg v f x).sdtData a1 b1 = s.sdtData a1 b1 := rfl
@[simp] theorem setVsReg_sdtLoaded (s : State) (v f x : Nat) (a1 : Nat) :
    (s.setVsReg v f x).sdtLoaded a1 = s.sdtLoaded a1 := rfl
@[simp] theorem setVsReg_pdtField (s : State) (v f x : Nat) (a1 b1 : Nat) :
    (s.setVsReg v f x).pdtField a1 b1 = s.pdtField a1 b1 := rfl
@[simp] theorem setVsReg_pdtData (s : State) (v f x : Nat) (a1 b1 : Nat) :
    (s.setVsReg v f x).pdtData a1 b1 = s.pdtData a1 b1 := rfl
@[simp] theorem setVsReg_pdtLoaded (s : State) (v f x : Nat) (a1 : Nat) :
    (s.setVsReg v f x).pdtLoaded a1 = s.pdtLoaded a1 := rfl
@[simp] theorem setVsReg_matrixEntry (s : State) (v f x : Nat) (a1 b1 c1 : Nat) :
    (s.setVsReg v f x).matrixEntry a1 b1 c1 = s.matrixEntry a1 b1 c1 := rfl
@[simp] theorem setVsReg_pbfOf (s : State) (v f x : Nat) (a1 : Nat) :
    (s.setVsReg v f x).pbfOf a1 = s.pbfOf a1 := rfl
@[simp] theorem setVsReg_voice (s : State) (v f x : Nat) (a1 : Nat) :
    (s.setVsReg v f x).voice a1 = s.voice a1 := rfl
@[simp] theorem setVsReg_bankOf (s : State) (v f x : Nat) (a1 : Nat) :
    (s.setVsReg v f x).bankOf a1 = s.bankOf a1 := rfl
@[simp] theorem setVsReg_bankRead (s : State) (v f x : Nat) (a1 b1 : Nat) :
    (s.setVsReg v f x).bankRead a1 b1 = s.bankRead a1 b1 := rfl
@[simp] theorem setVsReg_romRead (s : State) (v f x : Nat) (a1 : Nat) :
    (s.setVsReg v f x).romRead a1 = s.romRead a1 := rfl

/-! ### setSdtField -/

@[simp] theorem setSdtField_cp (s : State) (i f x : Nat) :
    (s.setSdtField i f x).cp = s.cp := rfl
@[simp] theorem setSdtField_fs (s : State) (i f x : Nat) :
    (s.setSdtField i f x).fs = s.fs := rfl
@[simp] theorem setSdtField_interp (s : State) (i f x : Nat) :
    (s.setSdtField i f x).interp = s.interp := rfl
@[simp] theorem setSdtField_fault (s : State) (i f x : Nat) :
    (s.setSdtField i f x).fault = s.fault := rfl
@[simp] theorem setSdtField_faultCause (s : State) (i f x : Nat) :
    (s.setSdtField i f x).faultCause = s.faultCause := rfl
@[simp] theorem setSdtField_faultVoice (s : State) (i f x : Nat) :
    (s.setSdtField i f x).faultVoice = s.faultVoice := rfl
@[simp] theorem setSdtField_faultCmd (s : State) (i f x : Nat) :
    (s.setSdtField i f x).faultCmd = s.faultCmd := rfl
@[simp] theorem setSdtField_out (s : State) (i f x : Nat) :
    (s.setSdtField i f x).out = s.out := rfl
@[simp] theorem setSdtField_resp (s : State) (i f x : Nat) :
    (s.setSdtField i f x).resp = s.resp := rfl
@[simp] theorem setSdtField_sys (s : State) (i f x : Nat) :
    (s.setSdtField i f x).sys = s.sys := rfl
@[simp] theorem setSdtField_part (s : State) (i f x : Nat) :
    (s.setSdtField i f x).part = s.part := rfl
@[simp] theorem setSdtField_matrix (s : State) (i f x : Nat) :
    (s.setSdtField i f x).matrix = s.matrix := rfl
@[simp] theorem setSdtField_pbf (s : State) (i f x : Nat) :
    (s.setSdtField i f x).pbf = s.pbf := rfl
@[simp] theorem setSdtField_drum (s : State) (i f x : Nat) :
    (s.setSdtField i f x).drum = s.drum := rfl
@[simp] theorem setSdtField_pdt (s : State) (i f x : Nat) :
    (s.setSdtField i f x).pdt = s.pdt := rfl
@[simp] theorem setSdtField_bank (s : State) (i f x : Nat) :
    (s.setSdtField i f x).bank = s.bank := rfl
@[simp] theorem setSdtField_vs (s : State) (i f x : Nat) :
    (s.setSdtField i f x).vs = s.vs := rfl
@[simp] theorem setSdtField_voices (s : State) (i f x : Nat) :
    (s.setSdtField i f x).voices = s.voices := rfl
@[simp] theorem setSdtField_params (s : State) (i f x : Nat) :
    (s.setSdtField i f x).params = s.params := rfl
@[simp] theorem setSdtField_rom (s : State) (i f x : Nat) :
    (s.setSdtField i f x).rom = s.rom := rfl
@[simp] theorem setSdtField_port (s : State) (i f x : Nat) :
    (s.setSdtField i f x).port = s.port := rfl
@[simp] theorem setSdtField_sysReg (s : State) (i f x : Nat) (j1 : Nat) :
    (s.setSdtField i f x).sysReg j1 = s.sysReg j1 := rfl
@[simp] theorem setSdtField_partReg (s : State) (i f x : Nat) (a1 b1 : Nat) :
    (s.setSdtField i f x).partReg a1 b1 = s.partReg a1 b1 := rfl
@[simp] theorem setSdtField_partRegs (s : State) (i f x : Nat) (a1 : Nat) :
    (s.setSdtField i f x).partRegs a1 = s.partRegs a1 := rfl
@[simp] theorem setSdtField_drumReg (s : State) (i f x : Nat) (a1 b1 c1 : Nat) :
    (s.setSdtField i f x).drumReg a1 b1 c1 = s.drumReg a1 b1 c1 := rfl
@[simp] theorem setSdtField_vsReg (s : State) (i f x : Nat) (a1 b1 : Nat) :
    (s.setSdtField i f x).vsReg a1 b1 = s.vsReg a1 b1 := rfl
@[simp] theorem setSdtField_pdtField (s : State) (i f x : Nat) (a1 b1 : Nat) :
    (s.setSdtField i f x).pdtField a1 b1 = s.pdtField a1 b1 := rfl
@[simp] theorem setSdtField_pdtData (s : State) (i f x : Nat) (a1 b1 : Nat) :
    (s.setSdtField i f x).pdtData a1 b1 = s.pdtData a1 b1 := rfl
@[simp] theorem setSdtField_pdtLoaded (s : State) (i f x : Nat) (a1 : Nat) :
    (s.setSdtField i f x).pdtLoaded a1 = s.pdtLoaded a1 := rfl
@[simp] theorem setSdtField_matrixEntry (s : State) (i f x : Nat) (a1 b1 c1 : Nat) :
    (s.setSdtField i f x).matrixEntry a1 b1 c1 = s.matrixEntry a1 b1 c1 := rfl
@[simp] theorem setSdtField_pbfOf (s : State) (i f x : Nat) (a1 : Nat) :
    (s.setSdtField i f x).pbfOf a1 = s.pbfOf a1 := rfl
@[simp] theorem setSdtField_voice (s : State) (i f x : Nat) (a1 : Nat) :
    (s.setSdtField i f x).voice a1 = s.voice a1 := rfl
@[simp] theorem setSdtField_bankOf (s : State) (i f x : Nat) (a1 : Nat) :
    (s.setSdtField i f x).bankOf a1 = s.bankOf a1 := rfl
@[simp] theorem setSdtField_bankRead (s : State) (i f x : Nat) (a1 b1 : Nat) :
    (s.setSdtField i f x).bankRead a1 b1 = s.bankRead a1 b1 := rfl
@[simp] theorem setSdtField_romRead (s : State) (i f x : Nat) (a1 : Nat) :
    (s.setSdtField i f x).romRead a1 = s.romRead a1 := rfl

/-! ### setPdtField -/

@[simp] theorem setPdtField_cp (s : State) (q f x : Nat) :
    (s.setPdtField q f x).cp = s.cp := rfl
@[simp] theorem setPdtField_fs (s : State) (q f x : Nat) :
    (s.setPdtField q f x).fs = s.fs := rfl
@[simp] theorem setPdtField_interp (s : State) (q f x : Nat) :
    (s.setPdtField q f x).interp = s.interp := rfl
@[simp] theorem setPdtField_fault (s : State) (q f x : Nat) :
    (s.setPdtField q f x).fault = s.fault := rfl
@[simp] theorem setPdtField_faultCause (s : State) (q f x : Nat) :
    (s.setPdtField q f x).faultCause = s.faultCause := rfl
@[simp] theorem setPdtField_faultVoice (s : State) (q f x : Nat) :
    (s.setPdtField q f x).faultVoice = s.faultVoice := rfl
@[simp] theorem setPdtField_faultCmd (s : State) (q f x : Nat) :
    (s.setPdtField q f x).faultCmd = s.faultCmd := rfl
@[simp] theorem setPdtField_out (s : State) (q f x : Nat) :
    (s.setPdtField q f x).out = s.out := rfl
@[simp] theorem setPdtField_resp (s : State) (q f x : Nat) :
    (s.setPdtField q f x).resp = s.resp := rfl
@[simp] theorem setPdtField_sys (s : State) (q f x : Nat) :
    (s.setPdtField q f x).sys = s.sys := rfl
@[simp] theorem setPdtField_part (s : State) (q f x : Nat) :
    (s.setPdtField q f x).part = s.part := rfl
@[simp] theorem setPdtField_matrix (s : State) (q f x : Nat) :
    (s.setPdtField q f x).matrix = s.matrix := rfl
@[simp] theorem setPdtField_pbf (s : State) (q f x : Nat) :
    (s.setPdtField q f x).pbf = s.pbf := rfl
@[simp] theorem setPdtField_drum (s : State) (q f x : Nat) :
    (s.setPdtField q f x).drum = s.drum := rfl
@[simp] theorem setPdtField_sdt (s : State) (q f x : Nat) :
    (s.setPdtField q f x).sdt = s.sdt := rfl
@[simp] theorem setPdtField_bank (s : State) (q f x : Nat) :
    (s.setPdtField q f x).bank = s.bank := rfl
@[simp] theorem setPdtField_vs (s : State) (q f x : Nat) :
    (s.setPdtField q f x).vs = s.vs := rfl
@[simp] theorem setPdtField_voices (s : State) (q f x : Nat) :
    (s.setPdtField q f x).voices = s.voices := rfl
@[simp] theorem setPdtField_params (s : State) (q f x : Nat) :
    (s.setPdtField q f x).params = s.params := rfl
@[simp] theorem setPdtField_rom (s : State) (q f x : Nat) :
    (s.setPdtField q f x).rom = s.rom := rfl
@[simp] theorem setPdtField_port (s : State) (q f x : Nat) :
    (s.setPdtField q f x).port = s.port := rfl
@[simp] theorem setPdtField_sysReg (s : State) (q f x : Nat) (j1 : Nat) :
    (s.setPdtField q f x).sysReg j1 = s.sysReg j1 := rfl
@[simp] theorem setPdtField_partReg (s : State) (q f x : Nat) (a1 b1 : Nat) :
    (s.setPdtField q f x).partReg a1 b1 = s.partReg a1 b1 := rfl
@[simp] theorem setPdtField_partRegs (s : State) (q f x : Nat) (a1 : Nat) :
    (s.setPdtField q f x).partRegs a1 = s.partRegs a1 := rfl
@[simp] theorem setPdtField_drumReg (s : State) (q f x : Nat) (a1 b1 c1 : Nat) :
    (s.setPdtField q f x).drumReg a1 b1 c1 = s.drumReg a1 b1 c1 := rfl
@[simp] theorem setPdtField_vsReg (s : State) (q f x : Nat) (a1 b1 : Nat) :
    (s.setPdtField q f x).vsReg a1 b1 = s.vsReg a1 b1 := rfl
@[simp] theorem setPdtField_sdtField (s : State) (q f x : Nat) (a1 b1 : Nat) :
    (s.setPdtField q f x).sdtField a1 b1 = s.sdtField a1 b1 := rfl
@[simp] theorem setPdtField_sdtData (s : State) (q f x : Nat) (a1 b1 : Nat) :
    (s.setPdtField q f x).sdtData a1 b1 = s.sdtData a1 b1 := rfl
@[simp] theorem setPdtField_sdtLoaded (s : State) (q f x : Nat) (a1 : Nat) :
    (s.setPdtField q f x).sdtLoaded a1 = s.sdtLoaded a1 := rfl
@[simp] theorem setPdtField_matrixEntry (s : State) (q f x : Nat) (a1 b1 c1 : Nat) :
    (s.setPdtField q f x).matrixEntry a1 b1 c1 = s.matrixEntry a1 b1 c1 := rfl
@[simp] theorem setPdtField_pbfOf (s : State) (q f x : Nat) (a1 : Nat) :
    (s.setPdtField q f x).pbfOf a1 = s.pbfOf a1 := rfl
@[simp] theorem setPdtField_voice (s : State) (q f x : Nat) (a1 : Nat) :
    (s.setPdtField q f x).voice a1 = s.voice a1 := rfl
@[simp] theorem setPdtField_bankOf (s : State) (q f x : Nat) (a1 : Nat) :
    (s.setPdtField q f x).bankOf a1 = s.bankOf a1 := rfl
@[simp] theorem setPdtField_bankRead (s : State) (q f x : Nat) (a1 b1 : Nat) :
    (s.setPdtField q f x).bankRead a1 b1 = s.bankRead a1 b1 := rfl
@[simp] theorem setPdtField_romRead (s : State) (q f x : Nat) (a1 : Nat) :
    (s.setPdtField q f x).romRead a1 = s.romRead a1 := rfl

/-! ### setMatrix -/

@[simp] theorem setMatrix_cp (s : State) (p : Nat) (m : List (List Int)) :
    (s.setMatrix p m).cp = s.cp := rfl
@[simp] theorem setMatrix_fs (s : State) (p : Nat) (m : List (List Int)) :
    (s.setMatrix p m).fs = s.fs := rfl
@[simp] theorem setMatrix_interp (s : State) (p : Nat) (m : List (List Int)) :
    (s.setMatrix p m).interp = s.interp := rfl
@[simp] theorem setMatrix_fault (s : State) (p : Nat) (m : List (List Int)) :
    (s.setMatrix p m).fault = s.fault := rfl
@[simp] theorem setMatrix_faultCause (s : State) (p : Nat) (m : List (List Int)) :
    (s.setMatrix p m).faultCause = s.faultCause := rfl
@[simp] theorem setMatrix_faultVoice (s : State) (p : Nat) (m : List (List Int)) :
    (s.setMatrix p m).faultVoice = s.faultVoice := rfl
@[simp] theorem setMatrix_faultCmd (s : State) (p : Nat) (m : List (List Int)) :
    (s.setMatrix p m).faultCmd = s.faultCmd := rfl
@[simp] theorem setMatrix_out (s : State) (p : Nat) (m : List (List Int)) :
    (s.setMatrix p m).out = s.out := rfl
@[simp] theorem setMatrix_resp (s : State) (p : Nat) (m : List (List Int)) :
    (s.setMatrix p m).resp = s.resp := rfl
@[simp] theorem setMatrix_sys (s : State) (p : Nat) (m : List (List Int)) :
    (s.setMatrix p m).sys = s.sys := rfl
@[simp] theorem setMatrix_part (s : State) (p : Nat) (m : List (List Int)) :
    (s.setMatrix p m).part = s.part := rfl
@[simp] theorem setMatrix_pbf (s : State) (p : Nat) (m : List (List Int)) :
    (s.setMatrix p m).pbf = s.pbf := rfl
@[simp] theorem setMatrix_drum (s : State) (p : Nat) (m : List (List Int)) :
    (s.setMatrix p m).drum = s.drum := rfl
@[simp] theorem setMatrix_sdt (s : State) (p : Nat) (m : List (List Int)) :
    (s.setMatrix p m).sdt = s.sdt := rfl
@[simp] theorem setMatrix_pdt (s : State) (p : Nat) (m : List (List Int)) :
    (s.setMatrix p m).pdt = s.pdt := rfl
@[simp] theorem setMatrix_bank (s : State) (p : Nat) (m : List (List Int)) :
    (s.setMatrix p m).bank = s.bank := rfl
@[simp] theorem setMatrix_vs (s : State) (p : Nat) (m : List (List Int)) :
    (s.setMatrix p m).vs = s.vs := rfl
@[simp] theorem setMatrix_voices (s : State) (p : Nat) (m : List (List Int)) :
    (s.setMatrix p m).voices = s.voices := rfl
@[simp] theorem setMatrix_params (s : State) (p : Nat) (m : List (List Int)) :
    (s.setMatrix p m).params = s.params := rfl
@[simp] theorem setMatrix_rom (s : State) (p : Nat) (m : List (List Int)) :
    (s.setMatrix p m).rom = s.rom := rfl
@[simp] theorem setMatrix_port (s : State) (p : Nat) (m : List (List Int)) :
    (s.setMatrix p m).port = s.port := rfl
@[simp] theorem setMatrix_sysReg (s : State) (p : Nat) (m : List (List Int)) (j1 : Nat) :
    (s.setMatrix p m).sysReg j1 = s.sysReg j1 := rfl
@[simp] theorem setMatrix_partReg (s : State) (p : Nat) (m : List (List Int)) (a1 b1 : Nat) :
    (s.setMatrix p m).partReg a1 b1 = s.partReg a1 b1 := rfl
@[simp] theorem setMatrix_partRegs (s : State) (p : Nat) (m : List (List Int)) (a1 : Nat) :
    (s.setMatrix p m).partRegs a1 = s.partRegs a1 := rfl
@[simp] theorem setMatrix_drumReg (s : State) (p : Nat) (m : List (List Int)) (a1 b1 c1 : Nat) :
    (s.setMatrix p m).drumReg a1 b1 c1 = s.drumReg a1 b1 c1 := rfl
@[simp] theorem setMatrix_vsReg (s : State) (p : Nat) (m : List (List Int)) (a1 b1 : Nat) :
    (s.setMatrix p m).vsReg a1 b1 = s.vsReg a1 b1 := rfl
@[simp] theorem setMatrix_sdtField (s : State) (p : Nat) (m : List (List Int)) (a1 b1 : Nat) :
    (s.setMatrix p m).sdtField a1 b1 = s.sdtField a1 b1 := rfl
@[simp] theorem setMatrix_sdtData (s : State) (p : Nat) (m : List (List Int)) (a1 b1 : Nat) :
    (s.setMatrix p m).sdtData a1 b1 = s.sdtData a1 b1 := rfl
@[simp] theorem setMatrix_sdtLoaded (s : State) (p : Nat) (m : List (List Int)) (a1 : Nat) :
    (s.setMatrix p m).sdtLoaded a1 = s.sdtLoaded a1 := rfl
@[simp] theorem setMatrix_pdtField (s : State) (p : Nat) (m : List (List Int)) (a1 b1 : Nat) :
    (s.setMatrix p m).pdtField a1 b1 = s.pdtField a1 b1 := rfl
@[simp] theorem setMatrix_pdtData (s : State) (p : Nat) (m : List (List Int)) (a1 b1 : Nat) :
    (s.setMatrix p m).pdtData a1 b1 = s.pdtData a1 b1 := rfl
@[simp] theorem setMatrix_pdtLoaded (s : State) (p : Nat) (m : List (List Int)) (a1 : Nat) :
    (s.setMatrix p m).pdtLoaded a1 = s.pdtLoaded a1 := rfl
@[simp] theorem setMatrix_pbfOf (s : State) (p : Nat) (m : List (List Int)) (a1 : Nat) :
    (s.setMatrix p m).pbfOf a1 = s.pbfOf a1 := rfl
@[simp] theorem setMatrix_voice (s : State) (p : Nat) (m : List (List Int)) (a1 : Nat) :
    (s.setMatrix p m).voice a1 = s.voice a1 := rfl
@[simp] theorem setMatrix_bankOf (s : State) (p : Nat) (m : List (List Int)) (a1 : Nat) :
    (s.setMatrix p m).bankOf a1 = s.bankOf a1 := rfl
@[simp] theorem setMatrix_bankRead (s : State) (p : Nat) (m : List (List Int)) (a1 b1 : Nat) :
    (s.setMatrix p m).bankRead a1 b1 = s.bankRead a1 b1 := rfl
@[simp] theorem setMatrix_romRead (s : State) (p : Nat) (m : List (List Int)) (a1 : Nat) :
    (s.setMatrix p m).romRead a1 = s.romRead a1 := rfl

/-! ### setPbf -/

@[simp] theorem setPbf_cp (s : State) (p : Nat) (x : R) :
    (s.setPbf p x).cp = s.cp := rfl
@[simp] theorem setPbf_fs (s : State) (p : Nat) (x : R) :
    (s.setPbf p x).fs = s.fs := rfl
@[simp] theorem setPbf_interp (s : State) (p : Nat) (x : R) :
    (s.setPbf p x).interp = s.interp := rfl
@[simp] theorem setPbf_fault (s : State) (p : Nat) (x : R) :
    (s.setPbf p x).fault = s.fault := rfl
@[simp] theorem setPbf_faultCause (s : State) (p : Nat) (x : R) :
    (s.setPbf p x).faultCause = s.faultCause := rfl
@[simp] theorem setPbf_faultVoice (s : State) (p : Nat) (x : R) :
    (s.setPbf p x).faultVoice = s.faultVoice := rfl
@[simp] theorem setPbf_faultCmd (s : State) (p : Nat) (x : R) :
    (s.setPbf p x).faultCmd = s.faultCmd := rfl
@[simp] theorem setPbf_out (s : State) (p : Nat) (x : R) :
    (s.setPbf p x).out = s.out := rfl
@[simp] theorem setPbf_resp (s : State) (p : Nat) (x : R) :
    (s.setPbf p x).resp = s.resp := rfl
@[simp] theorem setPbf_sys (s : State) (p : Nat) (x : R) :
    (s.setPbf p x).sys = s.sys := rfl
@[simp] theorem setPbf_part (s : State) (p : Nat) (x : R) :
    (s.setPbf p x).part = s.part := rfl
@[simp] theorem setPbf_matrix (s : State) (p : Nat) (x : R) :
    (s.setPbf p x).matrix = s.matrix := rfl
@[simp] theorem setPbf_drum (s : State) (p : Nat) (x : R) :
    (s.setPbf p x).drum = s.drum := rfl
@[simp] theorem setPbf_sdt (s : State) (p : Nat) (x : R) :
    (s.setPbf p x).sdt = s.sdt := rfl
@[simp] theorem setPbf_pdt (s : State) (p : Nat) (x : R) :
    (s.setPbf p x).pdt = s.pdt := rfl
@[simp] theorem setPbf_bank (s : State) (p : Nat) (x : R) :
    (s.setPbf p x).bank = s.bank := rfl
@[simp] theorem setPbf_vs (s : State) (p : Nat) (x : R) :
    (s.setPbf p x).vs = s.vs := rfl
@[simp] theorem setPbf_voices (s : State) (p : Nat) (x : R) :
    (s.setPbf p x).voices = s.voices := rfl
@[simp] theorem setPbf_params (s : State) (p : Nat) (x : R) :
    (s.setPbf p x).params = s.params := rfl
@[simp] theorem setPbf_rom (s : State) (p : Nat) (x : R) :
    (s.setPbf p x).rom = s.rom := rfl
@[simp] theorem setPbf_port (s : State) (p : Nat) (x : R) :
    (s.setPbf p x).port = s.port := rfl
@[simp] theorem setPbf_sysReg (s : State) (p : Nat) (x : R) (j1 : Nat) :
    (s.setPbf p x).sysReg j1 = s.sysReg j1 := rfl
@[simp] theorem setPbf_partReg (s : State) (p : Nat) (x : R) (a1 b1 : Nat) :
    (s.setPbf p x).partReg a1 b1 = s.partReg a1 b1 := rfl
@[simp] theorem setPbf_partRegs (s : State) (p : Nat) (x : R) (a1 : Nat) :
    (s.setPbf p x).partRegs a1 = s.partRegs a1 := rfl
@[simp] theorem setPbf_drumReg (s : State) (p : Nat) (x : R) (a1 b1 c1 : Nat) :
    (s.setPbf p x).drumReg a1 b1 c1 = s.drumReg a1 b1 c1 := rfl
@[simp] theorem setPbf_vsReg (s : State) (p : Nat) (x : R) (a1 b1 : Nat) :
    (s.setPbf p x).vsReg a1 b1 = s.vsReg a1 b1 := rfl
@[simp] theorem setPbf_sdtField (s : State) (p : Nat) (x : R) (a1 b1 : Nat) :
    (s.setPbf p x).sdtField a1 b1 = s.sdtField a1 b1 := rfl
@[simp] theorem setPbf_sdtData (s : State) (p : Nat) (x : R) (a1 b1 : Nat) :
    (s.setPbf p x).sdtData a1 b1 = s.sdtData a1 b1 := rfl
@[simp] theorem setPbf_sdtLoaded (s : State) (p : Nat) (x : R) (a1 : Nat) :
    (s.setPbf p x).sdtLoaded a1 = s.sdtLoaded a1 := rfl
@[simp] theorem setPbf_pdtField (s : State) (p : Nat) (x : R) (a1 b1 : Nat) :
    (s.setPbf p x).pdtField a1 b1 = s.pdtField a1 b1 := rfl
@[simp] theorem setPbf_pdtData (s : State) (p : Nat) (x : R) (a1 b1 : Nat) :
    (s.setPbf p x).pdtData a1 b1 = s.pdtData a1 b1 := rfl
@[simp] theorem setPbf_pdtLoaded (s : State) (p : Nat) (x : R) (a1 : Nat) :
    (s.setPbf p x).pdtLoaded a1 = s.pdtLoaded a1 := rfl
@[simp] theorem setPbf_matrixEntry (s : State) (p : Nat) (x : R) (a1 b1 c1 : Nat) :
    (s.setPbf p x).matrixEntry a1 b1 c1 = s.matrixEntry a1 b1 c1 := rfl
@[simp] theorem setPbf_voice (s : State) (p : Nat) (x : R) (a1 : Nat) :
    (s.setPbf p x).voice a1 = s.voice a1 := rfl
@[simp] theorem setPbf_bankOf (s : State) (p : Nat) (x : R) (a1 : Nat) :
    (s.setPbf p x).bankOf a1 = s.bankOf a1 := rfl
@[simp] theorem setPbf_bankRead (s : State) (p : Nat) (x : R) (a1 b1 : Nat) :
    (s.setPbf p x).bankRead a1 b1 = s.bankRead a1 b1 := rfl
@[simp] theorem setPbf_romRead (s : State) (p : Nat) (x : R) (a1 : Nat) :
    (s.setPbf p x).romRead a1 = s.romRead a1 := rfl

/-! ### setVoice -/

@[simp] theorem setVoice_cp (s : State) (v : Nat) (x : Voice) :
    (s.setVoice v x).cp = s.cp := rfl
@[simp] theorem setVoice_fs (s : State) (v : Nat) (x : Voice) :
    (s.setVoice v x).fs = s.fs := rfl
@[simp] theorem setVoice_interp (s : State) (v : Nat) (x : Voice) :
    (s.setVoice v x).interp = s.interp := rfl
@[simp] theorem setVoice_fault (s : State) (v : Nat) (x : Voice) :
    (s.setVoice v x).fault = s.fault := rfl
@[simp] theorem setVoice_faultCause (s : State) (v : Nat) (x : Voice) :
    (s.setVoice v x).faultCause = s.faultCause := rfl
@[simp] theorem setVoice_faultVoice (s : State) (v : Nat) (x : Voice) :
    (s.setVoice v x).faultVoice = s.faultVoice := rfl
@[simp] theorem setVoice_faultCmd (s : State) (v : Nat) (x : Voice) :
    (s.setVoice v x).faultCmd = s.faultCmd := rfl
@[simp] theorem setVoice_out (s : State) (v : Nat) (x : Voice) :
    (s.setVoice v x).out = s.out := rfl
@[simp] theorem setVoice_resp (s : State) (v : Nat) (x : Voice) :
    (s.setVoice v x).resp = s.resp := rfl
@[simp] theorem setVoice_sys (s : State) (v : Nat) (x : Voice) :
    (s.setVoice v x).sys = s.sys := rfl
@[simp] theorem setVoice_part (s : State) (v : Nat) (x : Voice) :
    (s.setVoice v x).part = s.part := rfl
@[simp] theorem setVoice_matrix (s : State) (v : Nat) (x : Voice) :
    (s.setVoice v x).matrix = s.matrix := rfl
@[simp] theorem setVoice_pbf (s : State) (v : Nat) (x : Voice) :
    (s.setVoice v x).pbf = s.pbf := rfl
@[simp] theorem setVoice_drum (s : State) (v : Nat) (x : Voice) :
    (s.setVoice v x).drum = s.drum := rfl
@[simp] theorem setVoice_sdt (s : State) (v : Nat) (x : Voice) :
    (s.setVoice v x).sdt = s.sdt := rfl
@[simp] theorem setVoice_pdt (s : State) (v : Nat) (x : Voice) :
    (s.setVoice v x).pdt = s.pdt := rfl
@[simp] theorem setVoice_bank (s : State) (v : Nat) (x : Voice) :
    (s.setVoice v x).bank = s.bank := rfl
@[simp] theorem setVoice_vs (s : State) (v : Nat) (x : Voice) :
    (s.setVoice v x).vs = s.vs := rfl
@[simp] theorem setVoice_params (s : State) (v : Nat) (x : Voice) :
    (s.setVoice v x).params = s.params := rfl
@[simp] theorem setVoice_rom (s : State) (v : Nat) (x : Voice) :
    (s.setVoice v x).rom = s.rom := rfl
@[simp] theorem setVoice_port (s : State) (v : Nat) (x : Voice) :
    (s.setVoice v x).port = s.port := rfl
@[simp] theorem setVoice_sysReg (s : State) (v : Nat) (x : Voice) (j1 : Nat) :
    (s.setVoice v x).sysReg j1 = s.sysReg j1 := rfl
@[simp] theorem setVoice_partReg (s : State) (v : Nat) (x : Voice) (a1 b1 : Nat) :
    (s.setVoice v x).partReg a1 b1 = s.partReg a1 b1 := rfl
@[simp] theorem setVoice_partRegs (s : State) (v : Nat) (x : Voice) (a1 : Nat) :
    (s.setVoice v x).partRegs a1 = s.partRegs a1 := rfl
@[simp] theorem setVoice_drumReg (s : State) (v : Nat) (x : Voice) (a1 b1 c1 : Nat) :
    (s.setVoice v x).drumReg a1 b1 c1 = s.drumReg a1 b1 c1 := rfl
@[simp] theorem setVoice_vsReg (s : State) (v : Nat) (x : Voice) (a1 b1 : Nat) :
    (s.setVoice v x).vsReg a1 b1 = s.vsReg a1 b1 := rfl
@[simp] theorem setVoice_sdtField (s : State) (v : Nat) (x : Voice) (a1 b1 : Nat) :
    (s.setVoice v x).sdtField a1 b1 = s.sdtField a1 b1 := rfl
@[simp] theorem setVoice_sdtData (s : State) (v : Nat) (x : Voice) (a1 b1 : Nat) :
    (s.setVoice v x).sdtData a1 b1 = s.sdtData a1 b1 := rfl
@[simp] theorem setVoice_sdtLoaded (s : State) (v : Nat) (x : Voice) (a1 : Nat) :
    (s.setVoice v x).sdtLoaded a1 = s.sdtLoaded a1 := rfl
@[simp] theorem setVoice_pdtField (s : State) (v : Nat) (x : Voice) (a1 b1 : Nat) :
    (s.setVoice v x).pdtField a1 b1 = s.pdtField a1 b1 := rfl
@[simp] theorem setVoice_pdtData (s : State) (v : Nat) (x : Voice) (a1 b1 : Nat) :
    (s.setVoice v x).pdtData a1 b1 = s.pdtData a1 b1 := rfl
@[simp] theorem setVoice_pdtLoaded (s : State) (v : Nat) (x : Voice) (a1 : Nat) :
    (s.setVoice v x).pdtLoaded a1 = s.pdtLoaded a1 := rfl
@[simp] theorem setVoice_matrixEntry (s : State) (v : Nat) (x : Voice) (a1 b1 c1 : Nat) :
    (s.setVoice v x).matrixEntry a1 b1 c1 = s.matrixEntry a1 b1 c1 := rfl
@[simp] theorem setVoice_pbfOf (s : State) (v : Nat) (x : Voice) (a1 : Nat) :
    (s.setVoice v x).pbfOf a1 = s.pbfOf a1 := rfl
@[simp] theorem setVoice_bankOf (s : State) (v : Nat) (x : Voice) (a1 : Nat) :
    (s.setVoice v x).bankOf a1 = s.bankOf a1 := rfl
@[simp] theorem setVoice_bankRead (s : State) (v : Nat) (x : Voice) (a1 b1 : Nat) :
    (s.setVoice v x).bankRead a1 b1 = s.bankRead a1 b1 := rfl
@[simp] theorem setVoice_romRead (s : State) (v : Nat) (x : Voice) (a1 : Nat) :
    (s.setVoice v x).romRead a1 = s.romRead a1 := rfl

/-! ### setBank -/

@[simp] theorem setBank_cp (s : State) (i : Nat) (b : Bank) :
    (s.setBank i b).cp = s.cp := rfl
@[simp] theorem setBank_fs (s : State) (i : Nat) (b : Bank) :
    (s.setBank i b).fs = s.fs := rfl
@[simp] theorem setBank_interp (s : State) (i : Nat) (b : Bank) :
    (s.setBank i b).interp = s.interp := rfl
@[simp] theorem setBank_fault (s : State) (i : Nat) (b : Bank) :
    (s.setBank i b).fault = s.fault := rfl
@[simp] theorem setBank_faultCause (s : State) (i : Nat) (b : Bank) :
    (s.setBank i b).faultCause = s.faultCause := rfl
@[simp] theorem setBank_faultVoice (s : State) (i : Nat) (b : Bank) :
    (s.setBank i b).faultVoice = s.faultVoice := rfl
@[simp] theorem setBank_faultCmd (s : State) (i : Nat) (b : Bank) :
    (s.setBank i b).faultCmd = s.faultCmd := rfl
@[simp] theorem setBank_out (s : State) (i : Nat) (b : Bank) :
    (s.setBank i b).out = s.out := rfl
@[simp] theorem setBank_resp (s : State) (i : Nat) (b : Bank) :
    (s.setBank i b).resp = s.resp := rfl
@[simp] theorem setBank_sys (s : State) (i : Nat) (b : Bank) :
    (s.setBank i b).sys = s.sys := rfl
@[simp] theorem setBank_part (s : State) (i : Nat) (b : Bank) :
    (s.setBank i b).part = s.part := rfl
@[simp] theorem setBank_matrix (s : State) (i : Nat) (b : Bank) :
    (s.setBank i b).matrix = s.matrix := rfl
@[simp] theorem setBank_pbf (s : State) (i : Nat) (b : Bank) :
    (s.setBank i b).pbf = s.pbf := rfl
@[simp] theorem setBank_drum (s : State) (i : Nat) (b : Bank) :
    (s.setBank i b).drum = s.drum := rfl
@[simp] theorem setBank_sdt (s : State) (i : Nat) (b : Bank) :
    (s.setBank i b).sdt = s.sdt := rfl
@[simp] theorem setBank_pdt (s : State) (i : Nat) (b : Bank) :
    (s.setBank i b).pdt = s.pdt := rfl
@[simp] theorem setBank_vs (s : State) (i : Nat) (b : Bank) :
    (s.setBank i b).vs = s.vs := rfl
@[simp] theorem setBank_voices (s : State) (i : Nat) (b : Bank) :
    (s.setBank i b).voices = s.voices := rfl
@[simp] theorem setBank_params (s : State) (i : Nat) (b : Bank) :
    (s.setBank i b).params = s.params := rfl
@[simp] theorem setBank_rom (s : State) (i : Nat) (b : Bank) :
    (s.setBank i b).rom = s.rom := rfl
@[simp] theorem setBank_port (s : State) (i : Nat) (b : Bank) :
    (s.setBank i b).port = s.port := rfl
@[simp] theorem setBank_sysReg (s : State) (i : Nat) (b : Bank) (j1 : Nat) :
    (s.setBank i b).sysReg j1 = s.sysReg j1 := rfl
@[simp] theorem setBank_partReg (s : State) (i : Nat) (b : Bank) (a1 b1 : Nat) :
    (s.setBank i b).partReg a1 b1 = s.partReg a1 b1 := rfl
@[simp] theorem setBank_partRegs (s : State) (i : Nat) (b : Bank) (a1 : Nat) :
    (s.setBank i b).partRegs a1 = s.partRegs a1 := rfl
@[simp] theorem setBank_drumReg (s : State) (i : Nat) (b : Bank) (a1 b1 c1 : Nat) :
    (s.setBank i b).drumReg a1 b1 c1 = s.drumReg a1 b1 c1 := rfl
@[simp] theorem setBank_vsReg (s : State) (i : Nat) (b : Bank) (a1 b1 : Nat) :
    (s.setBank i b).vsReg a1 b1 = s.vsReg a1 b1 := rfl
@[simp] theorem setBank_sdtField (s : State) (i : Nat) (b : Bank) (a1 b1 : Nat) :
    (s.setBank i b).sdtField a1 b1 = s.sdtField a1 b1 := rfl
@[simp] theorem setBank_sdtData (s : State) (i : Nat) (b : Bank) (a1 b1 : Nat) :
    (s.setBank i b).sdtData a1 b1 = s.sdtData a1 b1 := rfl
@[simp] theorem setBank_sdtLoaded (s : State) (i : Nat) (b : Bank) (a1 : Nat) :
    (s.setBank i b).sdtLoaded a1 = s.sdtLoaded a1 := rfl
@[simp] theorem setBank_pdtField (s : State) (i : Nat) (b : Bank) (a1 b1 : Nat) :
    (s.setBank i b).pdtField a1 b1 = s.pdtField a1 b1 := rfl
@[simp] theorem setBank_pdtData (s : State) (i : Nat) (b : Bank) (a1 b1 : Nat) :
    (s.setBank i b).pdtData a1 b1 = s.pdtData a1 b1 := rfl
@[simp] theorem setBank_pdtLoaded (s : State) (i : Nat) (b : Bank) (a1 : Nat) :
    (s.setBank i b).pdtLoaded a1 = s.pdtLoaded a1 := rfl
@[simp] theorem setBank_matrixEntry (s : State) (i : Nat) (b : Bank) (a1 b1 c1 : Nat) :
    (s.setBank i b).matrixEntry a1 b1 c1 = s.matrixEntry a1 b1 c1 := rfl
@[simp] theorem setBank_pbfOf (s : State) (i : Nat) (b : Bank) (a1 : Nat) :
    (s.setBank i b).pbfOf a1 = s.pbfOf a1 := rfl
@[simp] theorem setBank_voice (s : State) (i : Nat) (b : Bank) (a1 : Nat) :
    (s.setBank i b).voice a1 = s.voice a1 := rfl
@[simp] theorem setBank_romRead (s : State) (i : Nat) (b : Bank) (a1 : Nat) :
    (s.setBank i b).romRead a1 = s.romRead a1 := rfl

/-! ### emitResp -/

@[simp] theorem emitResp_cp (s : State) (w : Word) :
    (s.emitResp w).cp = s.cp := rfl
@[simp] theorem emitResp_fs (s : State) (w : Word) :
    (s.emitResp w).fs = s.fs := rfl
@[simp] theorem emitResp_interp (s : State) (w : Word) :
    (s.emitResp w).interp = s.interp := rfl
@[simp] theorem emitResp_fault (s : State) (w : Word) :
    (s.emitResp w).fault = s.fault := rfl
@[simp] theorem emitResp_faultCause (s : State) (w : Word) :
    (s.emitResp w).faultCause = s.faultCause := rfl
@[simp] theorem emitResp_faultVoice (s : State) (w : Word) :
    (s.emitResp w).faultVoice = s.faultVoice := rfl
@[simp] theorem emitResp_faultCmd (s : State) (w : Word) :
    (s.emitResp w).faultCmd = s.faultCmd := rfl
@[simp] theorem emitResp_out (s : State) (w : Word) :
    (s.emitResp w).out = s.out := rfl
@[simp] theorem emitResp_sys (s : State) (w : Word) :
    (s.emitResp w).sys = s.sys := rfl
@[simp] theorem emitResp_part (s : State) (w : Word) :
    (s.emitResp w).part = s.part := rfl
@[simp] theorem emitResp_matrix (s : State) (w : Word) :
    (s.emitResp w).matrix = s.matrix := rfl
@[simp] theorem emitResp_pbf (s : State) (w : Word) :
    (s.emitResp w).pbf = s.pbf := rfl
@[simp] theorem emitResp_drum (s : State) (w : Word) :
    (s.emitResp w).drum = s.drum := rfl
@[simp] theorem emitResp_sdt (s : State) (w : Word) :
    (s.emitResp w).sdt = s.sdt := rfl
@[simp] theorem emitResp_pdt (s : State) (w : Word) :
    (s.emitResp w).pdt = s.pdt := rfl
@[simp] theorem emitResp_bank (s : State) (w : Word) :
    (s.emitResp w).bank = s.bank := rfl
@[simp] theorem emitResp_vs (s : State) (w : Word) :
    (s.emitResp w).vs = s.vs := rfl
@[simp] theorem emitResp_voices (s : State) (w : Word) :
    (s.emitResp w).voices = s.voices := rfl
@[simp] theorem emitResp_params (s : State) (w : Word) :
    (s.emitResp w).params = s.params := rfl
@[simp] theorem emitResp_rom (s : State) (w : Word) :
    (s.emitResp w).rom = s.rom := rfl
@[simp] theorem emitResp_port (s : State) (w : Word) :
    (s.emitResp w).port = s.port := rfl
@[simp] theorem emitResp_sysReg (s : State) (w : Word) (j1 : Nat) :
    (s.emitResp w).sysReg j1 = s.sysReg j1 := rfl
@[simp] theorem emitResp_partReg (s : State) (w : Word) (a1 b1 : Nat) :
    (s.emitResp w).partReg a1 b1 = s.partReg a1 b1 := rfl
@[simp] theorem emitResp_partRegs (s : State) (w : Word) (a1 : Nat) :
    (s.emitResp w).partRegs a1 = s.partRegs a1 := rfl
@[simp] theorem emitResp_drumReg (s : State) (w : Word) (a1 b1 c1 : Nat) :
    (s.emitResp w).drumReg a1 b1 c1 = s.drumReg a1 b1 c1 := rfl
@[simp] theorem emitResp_vsReg (s : State) (w : Word) (a1 b1 : Nat) :
    (s.emitResp w).vsReg a1 b1 = s.vsReg a1 b1 := rfl
@[simp] theorem emitResp_sdtField (s : State) (w : Word) (a1 b1 : Nat) :
    (s.emitResp w).sdtField a1 b1 = s.sdtField a1 b1 := rfl
@[simp] theorem emitResp_sdtData (s : State) (w : Word) (a1 b1 : Nat) :
    (s.emitResp w).sdtData a1 b1 = s.sdtData a1 b1 := rfl
@[simp] theorem emitResp_sdtLoaded (s : State) (w : Word) (a1 : Nat) :
    (s.emitResp w).sdtLoaded a1 = s.sdtLoaded a1 := rfl
@[simp] theorem emitResp_pdtField (s : State) (w : Word) (a1 b1 : Nat) :
    (s.emitResp w).pdtField a1 b1 = s.pdtField a1 b1 := rfl
@[simp] theorem emitResp_pdtData (s : State) (w : Word) (a1 b1 : Nat) :
    (s.emitResp w).pdtData a1 b1 = s.pdtData a1 b1 := rfl
@[simp] theorem emitResp_pdtLoaded (s : State) (w : Word) (a1 : Nat) :
    (s.emitResp w).pdtLoaded a1 = s.pdtLoaded a1 := rfl
@[simp] theorem emitResp_matrixEntry (s : State) (w : Word) (a1 b1 c1 : Nat) :
    (s.emitResp w).matrixEntry a1 b1 c1 = s.matrixEntry a1 b1 c1 := rfl
@[simp] theorem emitResp_pbfOf (s : State) (w : Word) (a1 : Nat) :
    (s.emitResp w).pbfOf a1 = s.pbfOf a1 := rfl
@[simp] theorem emitResp_voice (s : State) (w : Word) (a1 : Nat) :
    (s.emitResp w).voice a1 = s.voice a1 := rfl
@[simp] theorem emitResp_bankOf (s : State) (w : Word) (a1 : Nat) :
    (s.emitResp w).bankOf a1 = s.bankOf a1 := rfl
@[simp] theorem emitResp_bankRead (s : State) (w : Word) (a1 b1 : Nat) :
    (s.emitResp w).bankRead a1 b1 = s.bankRead a1 b1 := rfl
@[simp] theorem emitResp_romRead (s : State) (w : Word) (a1 : Nat) :
    (s.emitResp w).romRead a1 = s.romRead a1 := rfl

/-! ### emitFrame -/

@[simp] theorem emitFrame_cp (s : State) (l r : BitVec 16) :
    (s.emitFrame l r).cp = s.cp := rfl
@[simp] theorem emitFrame_fs (s : State) (l r : BitVec 16) :
    (s.emitFrame l r).fs = s.fs := rfl
@[simp] theorem emitFrame_interp (s : State) (l r : BitVec 16) :
    (s.emitFrame l r).interp = s.interp := rfl
@[simp] theorem emitFrame_fault (s : State) (l r : BitVec 16) :
    (s.emitFrame l r).fault = s.fault := rfl
@[simp] theorem emitFrame_faultCause (s : State) (l r : BitVec 16) :
    (s.emitFrame l r).faultCause = s.faultCause := rfl
@[simp] theorem emitFrame_faultVoice (s : State) (l r : BitVec 16) :
    (s.emitFrame l r).faultVoice = s.faultVoice := rfl
@[simp] theorem emitFrame_faultCmd (s : State) (l r : BitVec 16) :
    (s.emitFrame l r).faultCmd = s.faultCmd := rfl
@[simp] theorem emitFrame_resp (s : State) (l r : BitVec 16) :
    (s.emitFrame l r).resp = s.resp := rfl
@[simp] theorem emitFrame_sys (s : State) (l r : BitVec 16) :
    (s.emitFrame l r).sys = s.sys := rfl
@[simp] theorem emitFrame_part (s : State) (l r : BitVec 16) :
    (s.emitFrame l r).part = s.part := rfl
@[simp] theorem emitFrame_matrix (s : State) (l r : BitVec 16) :
    (s.emitFrame l r).matrix = s.matrix := rfl
@[simp] theorem emitFrame_pbf (s : State) (l r : BitVec 16) :
    (s.emitFrame l r).pbf = s.pbf := rfl
@[simp] theorem emitFrame_drum (s : State) (l r : BitVec 16) :
    (s.emitFrame l r).drum = s.drum := rfl
@[simp] theorem emitFrame_sdt (s : State) (l r : BitVec 16) :
    (s.emitFrame l r).sdt = s.sdt := rfl
@[simp] theorem emitFrame_pdt (s : State) (l r : BitVec 16) :
    (s.emitFrame l r).pdt = s.pdt := rfl
@[simp] theorem emitFrame_bank (s : State) (l r : BitVec 16) :
    (s.emitFrame l r).bank = s.bank := rfl
@[simp] theorem emitFrame_vs (s : State) (l r : BitVec 16) :
    (s.emitFrame l r).vs = s.vs := rfl
@[simp] theorem emitFrame_voices (s : State) (l r : BitVec 16) :
    (s.emitFrame l r).voices = s.voices := rfl
@[simp] theorem emitFrame_params (s : State) (l r : BitVec 16) :
    (s.emitFrame l r).params = s.params := rfl
@[simp] theorem emitFrame_rom (s : State) (l r : BitVec 16) :
    (s.emitFrame l r).rom = s.rom := rfl
@[simp] theorem emitFrame_port (s : State) (l r : BitVec 16) :
    (s.emitFrame l r).port = s.port := rfl
@[simp] theorem emitFrame_sysReg (s : State) (l r : BitVec 16) (j1 : Nat) :
    (s.emitFrame l r).sysReg j1 = s.sysReg j1 := rfl
@[simp] theorem emitFrame_partReg (s : State) (l r : BitVec 16) (a1 b1 : Nat) :
    (s.emitFrame l r).partReg a1 b1 = s.partReg a1 b1 := rfl
@[simp] theorem emitFrame_partRegs (s : State) (l r : BitVec 16) (a1 : Nat) :
    (s.emitFrame l r).partRegs a1 = s.partRegs a1 := rfl
@[simp] theorem emitFrame_drumReg (s : State) (l r : BitVec 16) (a1 b1 c1 : Nat) :
    (s.emitFrame l r).drumReg a1 b1 c1 = s.drumReg a1 b1 c1 := rfl
@[simp] theorem emitFrame_vsReg (s : State) (l r : BitVec 16) (a1 b1 : Nat) :
    (s.emitFrame l r).vsReg a1 b1 = s.vsReg a1 b1 := rfl
@[simp] theorem emitFrame_sdtField (s : State) (l r : BitVec 16) (a1 b1 : Nat) :
    (s.emitFrame l r).sdtField a1 b1 = s.sdtField a1 b1 := rfl
@[simp] theorem emitFrame_sdtData (s : State) (l r : BitVec 16) (a1 b1 : Nat) :
    (s.emitFrame l r).sdtData a1 b1 = s.sdtData a1 b1 := rfl
@[simp] theorem emitFrame_sdtLoaded (s : State) (l r : BitVec 16) (a1 : Nat) :
    (s.emitFrame l r).sdtLoaded a1 = s.sdtLoaded a1 := rfl
@[simp] theorem emitFrame_pdtField (s : State) (l r : BitVec 16) (a1 b1 : Nat) :
    (s.emitFrame l r).pdtField a1 b1 = s.pdtField a1 b1 := rfl
@[simp] theorem emitFrame_pdtData (s : State) (l r : BitVec 16) (a1 b1 : Nat) :
    (s.emitFrame l r).pdtData a1 b1 = s.pdtData a1 b1 := rfl
@[simp] theorem emitFrame_pdtLoaded (s : State) (l r : BitVec 16) (a1 : Nat) :
    (s.emitFrame l r).pdtLoaded a1 = s.pdtLoaded a1 := rfl
@[simp] theorem emitFrame_matrixEntry (s : State) (l r : BitVec 16) (a1 b1 c1 : Nat) :
    (s.emitFrame l r).matrixEntry a1 b1 c1 = s.matrixEntry a1 b1 c1 := rfl
@[simp] theorem emitFrame_pbfOf (s : State) (l r : BitVec 16) (a1 : Nat) :
    (s.emitFrame l r).pbfOf a1 = s.pbfOf a1 := rfl
@[simp] theorem emitFrame_voice (s : State) (l r : BitVec 16) (a1 : Nat) :
    (s.emitFrame l r).voice a1 = s.voice a1 := rfl
@[simp] theorem emitFrame_bankOf (s : State) (l r : BitVec 16) (a1 : Nat) :
    (s.emitFrame l r).bankOf a1 = s.bankOf a1 := rfl
@[simp] theorem emitFrame_bankRead (s : State) (l r : BitVec 16) (a1 b1 : Nat) :
    (s.emitFrame l r).bankRead a1 b1 = s.bankRead a1 b1 := rfl
@[simp] theorem emitFrame_romRead (s : State) (l r : BitVec 16) (a1 : Nat) :
    (s.emitFrame l r).romRead a1 = s.romRead a1 := rfl

/-! ### record -/

@[simp] theorem record_cp (s : State) (c : Cause) (v : BitVec 8) (w : Word) :
    (record c v w s).cp = s.cp := rfl
@[simp] theorem record_fs (s : State) (c : Cause) (v : BitVec 8) (w : Word) :
    (record c v w s).fs = s.fs := rfl
@[simp] theorem record_interp (s : State) (c : Cause) (v : BitVec 8) (w : Word) :
    (record c v w s).interp = s.interp := rfl
@[simp] theorem record_out (s : State) (c : Cause) (v : BitVec 8) (w : Word) :
    (record c v w s).out = s.out := rfl
@[simp] theorem record_resp (s : State) (c : Cause) (v : BitVec 8) (w : Word) :
    (record c v w s).resp = s.resp := rfl
@[simp] theorem record_sys (s : State) (c : Cause) (v : BitVec 8) (w : Word) :
    (record c v w s).sys = s.sys := rfl
@[simp] theorem record_part (s : State) (c : Cause) (v : BitVec 8) (w : Word) :
    (record c v w s).part = s.part := rfl
@[simp] theorem record_matrix (s : State) (c : Cause) (v : BitVec 8) (w : Word) :
    (record c v w s).matrix = s.matrix := rfl
@[simp] theorem record_pbf (s : State) (c : Cause) (v : BitVec 8) (w : Word) :
    (record c v w s).pbf = s.pbf := rfl
@[simp] theorem record_drum (s : State) (c : Cause) (v : BitVec 8) (w : Word) :
    (record c v w s).drum = s.drum := rfl
@[simp] theorem record_sdt (s : State) (c : Cause) (v : BitVec 8) (w : Word) :
    (record c v w s).sdt = s.sdt := rfl
@[simp] theorem record_pdt (s : State) (c : Cause) (v : BitVec 8) (w : Word) :
    (record c v w s).pdt = s.pdt := rfl
@[simp] theorem record_bank (s : State) (c : Cause) (v : BitVec 8) (w : Word) :
    (record c v w s).bank = s.bank := rfl
@[simp] theorem record_vs (s : State) (c : Cause) (v : BitVec 8) (w : Word) :
    (record c v w s).vs = s.vs := rfl
@[simp] theorem record_voices (s : State) (c : Cause) (v : BitVec 8) (w : Word) :
    (record c v w s).voices = s.voices := rfl
@[simp] theorem record_params (s : State) (c : Cause) (v : BitVec 8) (w : Word) :
    (record c v w s).params = s.params := rfl
@[simp] theorem record_rom (s : State) (c : Cause) (v : BitVec 8) (w : Word) :
    (record c v w s).rom = s.rom := rfl
@[simp] theorem record_port (s : State) (c : Cause) (v : BitVec 8) (w : Word) :
    (record c v w s).port = s.port := rfl
@[simp] theorem record_sysReg (s : State) (c : Cause) (v : BitVec 8) (w : Word) (j1 : Nat) :
    (record c v w s).sysReg j1 = s.sysReg j1 := rfl
@[simp] theorem record_partReg (s : State) (c : Cause) (v : BitVec 8) (w : Word) (a1 b1 : Nat) :
    (record c v w s).partReg a1 b1 = s.partReg a1 b1 := rfl
@[simp] theorem record_partRegs (s : State) (c : Cause) (v : BitVec 8) (w : Word) (a1 : Nat) :
    (record c v w s).partRegs a1 = s.partRegs a1 := rfl
@[simp] theorem record_drumReg (s : State) (c : Cause) (v : BitVec 8) (w : Word) (a1 b1 c1 : Nat) :
    (record c v w s).drumReg a1 b1 c1 = s.drumReg a1 b1 c1 := rfl
@[simp] theorem record_vsReg (s : State) (c : Cause) (v : BitVec 8) (w : Word) (a1 b1 : Nat) :
    (record c v w s).vsReg a1 b1 = s.vsReg a1 b1 := rfl
@[simp] theorem record_sdtField (s : State) (c : Cause) (v : BitVec 8) (w : Word) (a1 b1 : Nat) :
    (record c v w s).sdtField a1 b1 = s.sdtField a1 b1 := rfl
@[simp] theorem record_sdtData (s : State) (c : Cause) (v : BitVec 8) (w : Word) (a1 b1 : Nat) :
    (record c v w s).sdtData a1 b1 = s.sdtData a1 b1 := rfl
@[simp] theorem record_sdtLoaded (s : State) (c : Cause) (v : BitVec 8) (w : Word) (a1 : Nat) :
    (record c v w s).sdtLoaded a1 = s.sdtLoaded a1 := rfl
@[simp] theorem record_pdtField (s : State) (c : Cause) (v : BitVec 8) (w : Word) (a1 b1 : Nat) :
    (record c v w s).pdtField a1 b1 = s.pdtField a1 b1 := rfl
@[simp] theorem record_pdtData (s : State) (c : Cause) (v : BitVec 8) (w : Word) (a1 b1 : Nat) :
    (record c v w s).pdtData a1 b1 = s.pdtData a1 b1 := rfl
@[simp] theorem record_pdtLoaded (s : State) (c : Cause) (v : BitVec 8) (w : Word) (a1 : Nat) :
    (record c v w s).pdtLoaded a1 = s.pdtLoaded a1 := rfl
@[simp] theorem record_matrixEntry (s : State) (c : Cause) (v : BitVec 8) (w : Word) (a1 b1 c1 : Nat) :
    (record c v w s).matrixEntry a1 b1 c1 = s.matrixEntry a1 b1 c1 := rfl
@[simp] theorem record_pbfOf (s : State) (c : Cause) (v : BitVec 8) (w : Word) (a1 : Nat) :
    (record c v w s).pbfOf a1 = s.pbfOf a1 := rfl
@[simp] theorem record_voice (s : State) (c : Cause) (v : BitVec 8) (w : Word) (a1 : Nat) :
    (record c v w s).voice a1 = s.voice a1 := rfl
@[simp] theorem record_bankOf (s : State) (c : Cause) (v : BitVec 8) (w : Word) (a1 : Nat) :
    (record c v w s).bankOf a1 = s.bankOf a1 := rfl
@[simp] theorem record_bankRead (s : State) (c : Cause) (v : BitVec 8) (w : Word) (a1 b1 : Nat) :
    (record c v w s).bankRead a1 b1 = s.bankRead a1 b1 := rfl
@[simp] theorem record_romRead (s : State) (c : Cause) (v : BitVec 8) (w : Word) (a1 : Nat) :
    (record c v w s).romRead a1 = s.romRead a1 := rfl

end Sys2Proof.Machine
end

