-- ==== Sys2Proof/Laws/Table.lean ====
section
/-!
SUPPORT. The laws of the sparse tables (Machine/Table.lean): reading what was written, leaving every other key alone, and
keeping the canonical form; and from them the laws of the PCM ROM image.
-/

namespace Sys2Proof.Machine

variable {α : Type}

theorem Table.read_nil (d : Nat → α) (k : Nat) : Table.read d [] k = d k := rfl

/-- What a table reads is the default or an entry. -/
theorem Table.read_mem (d : Nat → α) (t : Table α) (k : Nat) :
    Table.read d t k = d k ∨ (k, Table.read d t k) ∈ t := by
  induction t with
  | nil => exact .inl rfl
  | cons e t ih =>
    obtain ⟨j, y⟩ := e
    by_cases h : j = k
    · subst h; simp [Table.read]
    · simp only [Table.read, if_neg h]
      exact ih.imp id fun m => List.mem_cons_of_mem _ m

theorem Table.read_erase (d : Nat → α) (t : Table α) (k j : Nat) :
    Table.read d (Table.erase t k) j = if j = k then d k else Table.read d t j := by
  induction t with
  | nil => by_cases h : j = k <;> simp [Table.erase, Table.read, h]
  | cons e t ih =>
    obtain ⟨i, y⟩ := e
    by_cases hik : i = k <;> by_cases hij : i = j <;> by_cases hjk : j = k <;>
      simp_all [Table.erase, Table.read]

theorem Table.read_insert (d : Nat → α) (t : Table α) (k j : Nat) (x : α) (h : ∀ e ∈ t, e.1 ≠ k) :
    Table.read d (Table.insert k x t) j = if j = k then x else Table.read d t j := by
  induction t with
  | nil => simp only [Table.insert, Table.read, eq_comm]
  | cons e t ih =>
    obtain ⟨i, y⟩ := e
    have hik : i ≠ k := h (i, y) (by simp)
    have ht : ∀ e ∈ t, e.1 ≠ k := fun e he => h e (by simp [he])
    unfold Table.insert
    split
    · by_cases hij : i = j <;> by_cases hj : j = k <;> simp_all [Table.read]
    · by_cases hj : j = k
      · simp [Table.read, hj]
      · simp [Table.read, hj, Ne.symm hj]

theorem Table.erase_keys (t : Table α) (k : Nat) : ∀ e ∈ Table.erase t k, e.1 ≠ k := by
  induction t with
  | nil => simp [Table.erase]
  | cons e t ih =>
    obtain ⟨i, y⟩ := e
    unfold Table.erase
    split
    · exact ih
    · intro e he
      rcases List.mem_cons.mp he with rfl | he
      · assumption
      · exact ih e he

/-- Reading any key after a write. -/
theorem Table.read_write [DecidableEq α] (d : Nat → α) (t : Table α) (k j : Nat) (x : α) :
    Table.read d (Table.write d t k x) j = if j = k then x else Table.read d t j := by
  unfold Table.write
  split
  · next h => rw [Table.read_erase]; split <;> simp_all
  · rw [Table.read_insert _ _ _ _ _ (Table.erase_keys t k), Table.read_erase]
    split <;> simp_all

@[simp] theorem Table.read_write_same [DecidableEq α] (d : Nat → α) (t : Table α) (k : Nat) (x : α) :
    Table.read d (Table.write d t k x) k = x := by simp [Table.read_write]

theorem Table.read_write_other [DecidableEq α] (d : Nat → α) (t : Table α) {k j : Nat} (x : α) (h : j ≠ k) :
    Table.read d (Table.write d t k x) j = Table.read d t j := by simp [Table.read_write, h]

/-- Reading any key after an update of every key below `n`. -/
theorem Table.read_updateBelow [DecidableEq α] (d : Nat → α) (f : Nat → α → α) (n : Nat) (t : Table α) (j : Nat) :
    Table.read d (Table.updateBelow d f n t) j = if j < n then f j (Table.read d t j) else Table.read d t j := by
  induction n with
  | zero => simp [Table.updateBelow]
  | succ n ih =>
    simp only [Table.updateBelow, Table.read_write]
    by_cases h : j = n
    · subst h; simp [ih]
    · simp only [h, if_false, ih]
      by_cases h2 : j < n
      · simp [h2, Nat.lt_succ_of_lt h2]
      · simp [h2, show ¬ j < n + 1 by omega]

/-! ### The canonical form -/

theorem Table.wfAbove_erase [DecidableEq α] (d : Nat → α) (t : Table α) (k : Nat) (low : Option Nat)
    (h : Table.wfAbove d low t = true) :
    Table.wfAbove d low (Table.erase t k) = true := by
  induction t generalizing low with
  | nil => simpa [Table.erase] using h
  | cons e t ih =>
    obtain ⟨i, y⟩ := e
    simp only [Table.wfAbove, Bool.and_eq_true] at h
    obtain ⟨⟨h1, h2⟩, h3⟩ := h
    unfold Table.erase
    split
    · refine ih low ?_
      cases t with
      | nil => rfl
      | cons e t =>
        obtain ⟨j, z⟩ := e
        simp only [Table.wfAbove, Bool.and_eq_true, decide_eq_true_eq] at h3 ⊢
        refine ⟨⟨?_, h3.1.2⟩, h3.2⟩
        cases low with
        | none => rfl
        | some l => simp only [keyAbove, decide_eq_true_eq] at h1 h3 ⊢; omega
    · simp only [Table.wfAbove, Bool.and_eq_true]
      exact ⟨⟨h1, h2⟩, ih (some i) h3⟩

theorem Table.wfAbove_insert [DecidableEq α] (d : Nat → α) (t : Table α) (k : Nat) (x : α) (low : Option Nat)
    (hx : x ≠ d k) (hk : ∀ e ∈ t, e.1 ≠ k) (hl : keyAbove low k = true) (h : Table.wfAbove d low t = true) :
    Table.wfAbove d low (Table.insert k x t) = true := by
  induction t generalizing low with
  | nil => simp [Table.insert, Table.wfAbove, hx, hl]
  | cons e t ih =>
    obtain ⟨i, y⟩ := e
    simp only [Table.wfAbove, Bool.and_eq_true] at h
    obtain ⟨⟨h1, h2⟩, h3⟩ := h
    have hik : i ≠ k := hk (i, y) (by simp)
    unfold Table.insert
    split
    · next hlt =>
      simp only [Table.wfAbove, Bool.and_eq_true]
      refine ⟨⟨h1, h2⟩, ?_⟩
      exact ih (some i) (fun e he => hk e (by simp [he])) (by simpa [keyAbove] using hlt) h3
    · simp only [Table.wfAbove, Bool.and_eq_true, decide_eq_true_eq]
      exact ⟨⟨hl, hx⟩, ⟨by simp only [keyAbove, decide_eq_true_eq]; omega, by simpa using h2⟩, h3⟩

/-- A write keeps the canonical form. -/
theorem Table.wf_write [DecidableEq α] (d : Nat → α) (t : Table α) (k : Nat) (x : α) (h : Table.wf d t = true) :
    Table.wf d (Table.write d t k x) = true := by
  unfold Table.write
  split
  · exact Table.wfAbove_erase d t k none h
  · next hx =>
    exact Table.wfAbove_insert d _ k x none hx (Table.erase_keys t k) rfl (Table.wfAbove_erase d t k none h)

theorem Table.wf_nil [DecidableEq α] (d : Nat → α) : Table.wf d [] = true := rfl

/-- An update of every key below `n` keeps the canonical form. -/
theorem Table.wf_updateBelow [DecidableEq α] (d : Nat → α) (f : Nat → α → α) (n : Nat) (t : Table α)
    (h : Table.wf d t = true) : Table.wf d (Table.updateBelow d f n t) = true := by
  induction n with
  | zero => exact h
  | succ n ih => exact Table.wf_write d _ _ _ ih

/-! ### Keys -/

theorem regKey_inj {i j f g : Nat} (hf : f < 256) (hg : g < 256) : regKey i f = regKey j g ↔ i = j ∧ f = g := by
  unfold regKey; omega

theorem regKey_mod {i f : Nat} (hf : f < 256) : regKey i f % 256 = f := by unfold regKey; omega

theorem regKey_div {i f : Nat} (hf : f < 256) : regKey i f / 256 = i := by unfold regKey; omega

/-! ### The PCM ROM image -/

theorem mem_write_key [DecidableEq α] (d : Nat → α) (t : Table α) (k : Nat) (x : α) :
    ∀ e ∈ Table.write d t k x, e.1 = k ∨ e ∈ t := by
  have he : ∀ (t : Table α), ∀ e ∈ Table.erase t k, e ∈ t := by
    intro t
    induction t with
    | nil => simp [Table.erase]
    | cons e t ih =>
      obtain ⟨i, y⟩ := e
      unfold Table.erase
      split
      · intro e h; exact List.mem_cons_of_mem _ (ih e h)
      · intro e h
        rcases List.mem_cons.mp h with rfl | h
        · simp
        · exact List.mem_cons_of_mem _ (ih e h)
  have hi : ∀ (t : Table α), ∀ e ∈ Table.insert k x t, e.1 = k ∨ e ∈ t := by
    intro t
    induction t with
    | nil => intro e h; left; simp [Table.insert] at h; simp [h]
    | cons e t ih =>
      obtain ⟨i, y⟩ := e
      unfold Table.insert
      split
      · intro e h
        rcases List.mem_cons.mp h with rfl | h
        · simp
        · rcases ih e h with h | h
          · exact .inl h
          · exact .inr (List.mem_cons_of_mem _ h)
      · intro e h
        rcases List.mem_cons.mp h with rfl | h
        · exact .inl rfl
        · exact .inr h
  intro e h
  unfold Table.write at h
  split at h
  · exact .inr (he t e h)
  · rcases hi _ e h with h | h
    · exact .inl h
    · exact .inr (he t e h)

/-- Building the ROM image keeps its canonical form: the one operation that writes it. -/
theorem wf_withRomByte (s : State) (a : Nat) (x : Byte) (h : Memory.wf s.params.romSize s.rom = true) :
    Memory.wf (s.withRomByte a x).params.romSize (s.withRomByte a x).rom = true := by
  unfold State.withRomByte
  split
  · next ha =>
    simp only [Memory.wf, Bool.and_eq_true, List.all_eq_true, decide_eq_true_eq] at h ⊢
    refine ⟨Table.wf_write _ _ _ _ h.1, fun e he => ?_⟩
    rcases mem_write_key romDefault s.rom a x e he with h1 | h1
    · rw [h1]; exact ha
    · exact h.2 e h1
  · exact h

/-- A byte of the image reads back, and every other byte reads as before. -/
theorem romRead_withRomByte (s : State) (a b : Nat) (x : Byte) (ha : a < s.params.romSize) :
    (s.withRomByte a x).romRead b = if b = a then .ok x else s.romRead b := by
  unfold State.withRomByte State.romRead
  simp only [ha, if_true, Table.read_write]
  by_cases hb : b = a
  · subst hb; simp [ha]
  · simp [hb]

/-- The memory of the machine right after reset is in canonical form. -/
theorem wf_reset : Memory.wf State.reset.params.romSize State.reset.rom = true := rfl

/-- The image of a reset instance is the one it was given. -/
theorem romRead_resetOf (p : Params) (rom : List Host.Cell) (a : Nat) :
    (State.resetOf p rom).romRead a = if a < p.romSize then .ok (Table.read romDefault rom a) else .error (.romOutside a) :=
  rfl

end Sys2Proof.Machine
end

