-- ==== Sys2Proof/Laws/Ops.lean ====
section
/-!
SUPPORT. What each shared operation of Machine/Ops.lean can do, said once: reading after writing, recording and taking a
fault, ending a command, the field checks, and the search for an active voice.
-/

namespace Sys2Proof.Machine

/-! ### Reading after writing -/

theorem sysReg_setSysReg (s : State) (id x j : Nat) :
    (s.setSysReg id x).sysReg j = if j = id then x else s.sysReg j := Table.read_write ..

theorem partReg_setPartReg (s : State) {id f : Nat} (p x j : Nat) (hid : id < 256) (hf : f < 256) :
    (s.setPartReg p id x).partReg j f = if j = p ∧ f = id then x else s.partReg j f := by
  simp only [State.partReg, State.setPartReg, Table.read_write, regKey_inj hf hid]

theorem drumReg_setDrumReg (s : State) {k f k' f' : Nat} (m x m' : Nat) (hk : k < 128) (hf : f < 256) (hk' : k' < 128)
    (hf' : f' < 256) :
    (s.setDrumReg m k f x).drumReg m' k' f' = if m' = m ∧ k' = k ∧ f' = f then x else s.drumReg m' k' f' := by
  simp only [State.drumReg, State.setDrumReg, Table.read_write, regKey_inj hf' hf]
  congr 1
  simp only [eq_iff_iff]
  constructor <;> intro h <;> constructor <;> omega

theorem vsReg_setVsReg (s : State) {f g : Nat} (v x j : Nat) (hf : f < 256) (hg : g < 256) :
    (s.setVsReg v f x).vsReg j g = if j = v ∧ g = f then x else s.vsReg j g := by
  simp only [State.vsReg, State.setVsReg, Table.read_write, regKey_inj hg hf]

theorem sdtField_setSdtField (s : State) {f g : Nat} (i x j : Nat) (hf : f < 256) (hg : g < 256) :
    (s.setSdtField i f x).sdtField j g = if j = i ∧ g = f then { written := true, data := x } else s.sdtField j g := by
  simp only [State.sdtField, State.setSdtField, Table.read_write, regKey_inj hg hf]

theorem pdtField_setPdtField (s : State) {f g : Nat} (q x j : Nat) (hf : f < 256) (hg : g < 256) :
    (s.setPdtField q f x).pdtField j g = if j = q ∧ g = f then { written := true, data := x } else s.pdtField j g := by
  simp only [State.pdtField, State.setPdtField, Table.read_write, regKey_inj hg hf]

theorem matrixEntry_setMatrix (s : State) (p : Nat) (m : List (List Int)) (j d src : Nat) :
    (s.setMatrix p m).matrixEntry j d src = if j = p then (m.getD d []).getD src 0 else s.matrixEntry j d src := by
  simp only [State.matrixEntry, State.setMatrix, Table.read_write]
  split <;> rfl

theorem pbfOf_setPbf (s : State) (p : Nat) (x : R) (j : Nat) :
    (s.setPbf p x).pbfOf j = if j = p then x else s.pbfOf j := Table.read_write ..

theorem voice_setVoice (s : State) (v : Nat) (x : Voice) (j : Nat) :
    (s.setVoice v x).voice j = if j = v then x else s.voice j := Table.read_write ..

theorem bankOf_setBank (s : State) (i : Nat) (b : Bank) (j : Nat) :
    (s.setBank i b).bankOf j = if j = i then b else s.bankOf j := Table.read_write ..

@[simp] theorem voice_setVoice_same (s : State) (v : Nat) (x : Voice) : (s.setVoice v x).voice v = x := by
  simp [voice_setVoice]

@[simp] theorem bankOf_setBank_same (s : State) (i : Nat) (b : Bank) : (s.setBank i b).bankOf i = b := by
  simp [bankOf_setBank]

/-! ### Faults (60_exceptions.md R146) -/

@[simp] theorem record_fault (c : Cause) (v : BitVec 8) (w : Word) (s : State) :
    (record c v w s).fault = s.fault ||| c.bit := rfl

@[simp] theorem record_faultCause (c : Cause) (v : BitVec 8) (w : Word) (s : State) :
    (record c v w s).faultCause = if s.fault = 0 then BitVec.ofNat 8 c.code else s.faultCause := rfl

@[simp] theorem record_faultVoice (c : Cause) (v : BitVec 8) (w : Word) (s : State) :
    (record c v w s).faultVoice = if s.fault = 0 then v else s.faultVoice := rfl

@[simp] theorem record_faultCmd (c : Cause) (v : BitVec 8) (w : Word) (s : State) :
    (record c v w s).faultCmd = if s.fault = 0 then w else s.faultCmd := rfl

theorem Cause.bit_ne_zero (c : Cause) : c.bit ≠ 0 := by cases c <;> decide

theorem Cause.bit_lt (c : Cause) : c.bit.toNat < 4096 := by cases c <;> decide

/-- After a fault the FAULT register is not zero. -/
theorem record_fault_ne_zero (c : Cause) (v : BitVec 8) (w : Word) (s : State) : (record c v w s).fault ≠ 0 := by
  rw [record_fault]
  intro h
  apply c.bit_ne_zero
  have := BitVec.or_eq_zero_iff.mp h
  exact this.2

/-- What taking a command fault leaves: the record, and the position advanced. -/
theorem raise_eq (c : Cause) (w : Word) (s : State) :
    raise c w s = { record c 0xFF w s with cp := s.cp + 1 } := rfl

/-! ### Commands -/

@[simp] theorem finishCommand_ok (w : Word) (s t : State) :
    finishCommand w s (.ok t) = .next { t with cp := t.cp + 1 } := rfl

@[simp] theorem finishCommand_error (w : Word) (s : State) (c : Cause) :
    finishCommand w s (.error c) = .next (raise c w s) := rfl

/-- A command that ends through `finishCommand` answers a next state. -/
theorem finishCommand_next (w : Word) (s : State) (e : Except Cause State) : ∃ t, finishCommand w s e = .next t := by
  cases e <;> exact ⟨_, rfl⟩

/-- The three outcomes of a field check. -/
theorem checkField_cases (limit : Option Nat) (value : Nat) (effect : State) :
    (limit = none ∧ checkField limit value effect = .error .index) ∨
    (∃ m, limit = some m ∧ m < value ∧ checkField limit value effect = .error .value) ∨
    (∃ m, limit = some m ∧ value ≤ m ∧ checkField limit value effect = .ok effect) := by
  cases limit with
  | none => exact .inl ⟨rfl, rfl⟩
  | some m =>
    by_cases h : m < value
    · exact .inr (.inl ⟨m, rfl, h, by simp [checkField, h]⟩)
    · exact .inr (.inr ⟨m, rfl, by omega, by simp [checkField, h]⟩)

theorem checkField_none (value : Nat) (effect : State) : checkField none value effect = .error .index := rfl

theorem checkField_value {m value : Nat} (h : m < value) (effect : State) :
    checkField (some m) value effect = .error .value := by simp [checkField, h]

theorem checkField_ok {m value : Nat} (h : value ≤ m) (effect : State) :
    checkField (some m) value effect = .ok effect := by simp [checkField, Nat.not_lt.mpr h]

/-- No active voice slot below `NV` has the property. -/
theorem someActive_false (s : State) (p : Voice → Bool) :
    s.someActive p = false ↔ ∀ v, v < s.params.nv → (s.voice v).active = true → p (s.voice v) = false := by
  simp [State.someActive]

/-- Some active voice slot below `NV` has the property. -/
theorem someActive_true (s : State) (p : Voice → Bool) :
    s.someActive p = true ↔ ∃ v, v < s.params.nv ∧ (s.voice v).active = true ∧ p (s.voice v) = true := by
  simp [State.someActive]

/-- The assigned ids are below 256. -/
theorem partMax_lt {id m : Nat} (h : partMax id = some m) : id < 256 := by
  unfold partMax isDepthId at h
  repeat' split at h
  all_goals first | omega | (simp at *; done) | (simp at *; omega)

theorem sysMax_lt {id m : Nat} (h : sysMax id = some m) : id < 4 := by
  unfold sysMax at h
  repeat' split at h
  all_goals first | omega | (simp at *)

theorem sdtMax_lt {f m : Nat} (h : sdtMax f = some m) : f < 8 := by
  unfold sdtMax at h
  repeat' split at h
  all_goals first | omega | (simp at *)

theorem drumMax_lt {f m : Nat} (h : drumMax f = some m) : f < 2 := by
  unfold drumMax at h
  repeat' split at h
  all_goals first | omega | (simp at *)

theorem pdtMax_lt {ntv f m : Nat} (hn : ntv ≤ 192) (h : pdtMax ntv f = some m) : f < 256 := by
  unfold pdtMax at h
  repeat' split at h
  all_goals first | omega | (simp at *)

theorem vsMax_lt {p : Params} {f m : Nat} (hn : p.nit ≤ 240) (h : vsMax p f = some m) : f < 256 := by
  unfold vsMax at h
  repeat' split at h
  all_goals first | omega | (simp at *)

end Sys2Proof.Machine
end

