-- ==== Sys2Proof/Laws/Decoding.lean ====
section
/-!
SUPPORT. What the PCM expansion and the decoding loop can do, said once: inside the ROM they never fault, and the elements
are those of the cascade (40_decode_filters.md R85, R86, R87).
-/

namespace Sys2Proof.Machine

/-- Every nibble address is at most its data address (R86). -/
theorem nibbleAddress_le (a : Nat) : nibbleAddress a ≤ a := by
  have hlow : a &&& 0xFFFFF = a % 2 ^ 20 := Nat.and_two_pow_sub_one_eq_mod a 20
  have hmid : a &&& 0xF00000 = 2 ^ 20 * (a / 2 ^ 20 % 2 ^ 4) := by
    have h1 : a &&& 0xF00000 = (a / 2 ^ 20 % 2 ^ 4) * 2 ^ 20 := by
      rw [← Nat.and_two_pow_sub_one_eq_mod, ← Nat.shiftRight_eq_div_pow, ← Nat.shiftLeft_eq, Nat.shiftLeft_and_distrib]
      apply Nat.eq_of_testBit_eq
      intro i
      simp only [Nat.testBit_and, Nat.testBit_shiftLeft, Nat.testBit_shiftRight]
      by_cases h : 20 ≤ i
      · simp only [h, decide_true, Bool.true_and]
        rw [show 20 + (i - 20) = i by omega]
        congr 1
        rw [show (0xF00000 : Nat) = (2 ^ 4 - 1) <<< 20 by decide, Nat.testBit_shiftLeft]
        simp [h]
      · rw [show (0xF00000 : Nat) = (2 ^ 4 - 1) <<< 20 by decide, Nat.testBit_shiftLeft]
        simp [h]
    rw [h1]; omega
  unfold nibbleAddress
  rw [hlow, hmid, Nat.shiftRight_eq_div_pow]
  rw [Nat.lor_comm, ← Nat.two_pow_add_eq_or_of_lt (by omega : a % 2 ^ 20 / 2 ^ 5 < 2 ^ 20)]
  omega

theorem romRead_ok (s : State) {a : Nat} (h : a < s.params.romSize) :
    s.romRead a = .ok (Table.read romDefault s.rom a) := if_pos h

/-- Inside the ROM an expansion gives its element. -/
theorem expand_ok (s : State) {base i : Nat} (h : base + i < s.params.romSize) :
    expand s base i = .ok (expanded s base i) := by
  unfold expand
  extract_lets a
  rw [romRead_ok s (show a < _ from h)]
  dsimp only
  rw [romRead_ok s (Nat.lt_of_le_of_lt (nibbleAddress_le a) h)]
  rfl

/-- Inside the ROM the decoding loop gives the elements of the cascade, in order. -/
theorem decodeElements_ok (s : State) (c : Coeffs) (base n i : Nat) (h : base + i + n ≤ s.params.romSize) :
    ∃ l, decodeElements s c base n i (cascade s.params.numerics c (expanded s base) i).1
        (cascade s.params.numerics c (expanded s base) i).2 = .ok l ∧
      l.length = n ∧ ∀ k, k < n → l[k]? = some (decodedElement s.params.numerics c (expanded s base) (i + k)) := by
  induction n generalizing i with
  | zero => exact ⟨[], rfl, rfl, fun k hk => absurd hk (Nat.not_lt_zero k)⟩
  | succ n ih =>
    obtain ⟨l, hl, hlen, hget⟩ := ih (i + 1) (by omega)
    unfold decodeElements
    rw [expand_ok s (by omega)]
    refine ⟨decodedElement s.params.numerics c (expanded s base) i :: l, ?_, by simp [hlen], fun k hk => ?_⟩
    · have hl' : decodeElements s c base n (i + 1)
          (biquad s.params.numerics c (cascade s.params.numerics c (expanded s base) i).1 (expanded s base i)).2
          (biquad s.params.numerics c (cascade s.params.numerics c (expanded s base) i).2
            (biquad s.params.numerics c (cascade s.params.numerics c (expanded s base) i).1 (expanded s base i)).1).2
          = .ok l := hl
      simp only [hl']
      rfl
    · cases k with
      | zero => rfl
      | succ k =>
        rw [List.getElem?_cons_succ, hget k (by omega)]
        congr 2; omega

/-- The base DECODE finds, with the checks that led to it (R87). -/
theorem decodeChecks_ok {s : State} {i base : Nat} (h : decodeChecks s i = .ok base) :
    i < s.params.ns ∧ s.sdtLoaded i = true ∧ (s.someActive fun v => v.s == i) = false ∧
      bankBase (s.sdtData i 0) = some base ∧ base + s.sdtData i 1 < s.params.romSize := by
  unfold decodeChecks at h
  split at h
  · cases h
  split at h
  · cases h
  split at h
  · cases h
  split at h
  · cases h
  split at h
  · cases h
  · rename_i h1 h2 h3 _ base' h4 h5
    cases h
    exact ⟨by omega, by simpa using h2, by simpa using h3, h4, by omega⟩

end Sys2Proof.Machine
end

