-- ==== Sys2Proof/Laws/Commands.lean ====
section
/-!
SUPPORT. What every command can do, said once: it takes a command fault, or its checks have passed and it answers the state
of its effect with the position advanced. Later proofs cite `exec_cases` and `execWord_cases` and unfold no meaning.
-/

namespace Sys2Proof.Machine

/-- What holds of the state before a command whose checks pass and of the state its effect leaves, before the position
advances. -/
def Effect (i : Instr) (s t : State) : Prop :=
  match i with
  | .nop => t = s
  | .reset => t = clearFaults (recomputeParts s.params.nPart (resetVoices (resetRegisters s)))
  | .setfmt fs channels =>
    channels = 2 ∧ 128 ≤ fs ∧ (s.someActive fun _ => true) = false ∧ t = { s with fs := BitVec.ofNat 32 fs }
  | .setinterp mode => mode ≤ 2 ∧ t = { s with interp := BitVec.ofNat 2 mode }
  | .sysparam id value => ∃ m, sysMax id = some m ∧ value ≤ m ∧ t = s.setSysReg id value
  | .partparam p id value =>
    p < s.params.nPart ∧ ∃ m, partMax id = some m ∧ value ≤ m ∧ t = partEffect p id value s
  | .drumparam map key field value => ∃ m, drumMax field = some m ∧ value ≤ m ∧ t = s.setDrumReg map key field value
  | .sdtWr e field value => e < s.params.ns ∧ ∃ m, sdtMax field = some m ∧ value ≤ m ∧ t = sdtEffect e field value s
  | .pdtWr q field value =>
    q < s.params.np ∧ ∃ m, pdtMax s.params.ntv field = some m ∧ value ≤ m ∧ t = s.setPdtField q field value
  | .decode e =>
    ∃ base elements, decodeChecks s e = .ok base ∧ elements.length = s.sdtData e 1 + 1 ∧
      (∀ k, k < s.sdtData e 1 + 1 → elements[k]? =
        some (decodedElement s.params.numerics (riaaCoeffs s.params) (expanded s base) k)) ∧
      t = s.setBank e { decoded := true, data := elements }
  | .vsetup v field value =>
    v < s.params.nv ∧ ∃ m, vsMax s.params field = some m ∧ value ≤ m ∧ t = s.setVsReg v field value
  | .vstart v q => ∃ e, startChecks s v q = .ok e ∧ t = s.setVoice v (startVoice s v q e)
  | .vnoteoff v => v < s.params.nv ∧ t = s.setVoice v (noteOff s (s.voice v))
  | .vkill v => v < s.params.nv ∧ t = s.setVoice v { s.voice v with active := false }
  | .rdvoice v => v < s.params.nv ∧ t = s.emitResp (s.voice v).statusWord
  | .rdfault => t = (s.emitResp s.faultWord).emitResp s.faultCmd
  | .frame => t = emitMix (mixVoices s)

/-- The commands that take no fault: NOP, RESET, RDFAULT and FRAME. -/
def neverFaults : Instr → Bool
  | .nop => true
  | .reset => true
  | .rdfault => true
  | .frame => true
  | _ => false

/-- A command takes a command fault, or has its effect. -/
theorem exec_cases (i : Instr) (s : State) :
    (neverFaults i = false ∧ ∃ c, exec i s = .next (raise c (encode i) s)) ∨
      ∃ t, exec i s = .next { t with cp := t.cp + 1 } ∧ Effect i s t := by
  have field : ∀ (limit : Option Nat) (value : Nat) (effect : State) (w : Word),
      (∃ c, finishCommand w s (checkField limit value effect) = .next (raise c w s)) ∨
      (finishCommand w s (checkField limit value effect) = .next { effect with cp := effect.cp + 1 } ∧
        ∃ m, limit = some m ∧ value ≤ m) := by
    intro limit value effect w
    rcases checkField_cases limit value effect with ⟨h, e⟩ | ⟨m, h, hv, e⟩ | ⟨m, h, hv, e⟩ <;> rw [e]
    · exact .inl ⟨_, rfl⟩
    · exact .inl ⟨_, rfl⟩
    · exact .inr ⟨rfl, m, h, hv⟩
  cases i with
  | nop => exact .inr ⟨s, rfl, rfl⟩
  | reset => exact .inr ⟨_, rfl, rfl⟩
  | rdfault => exact .inr ⟨_, rfl, rfl⟩
  | frame => exact .inr ⟨_, rfl, rfl⟩
  | setfmt fs channels =>
    show (_ ∧ ∃ c, execSetfmt fs channels s = _) ∨ ∃ t, execSetfmt fs channels s = _ ∧ _
    unfold execSetfmt
    split
    · exact .inl ⟨rfl, _, rfl⟩
    split
    · exact .inl ⟨rfl, _, rfl⟩
    · rename_i h1 h2
      exact .inr ⟨_, rfl, by omega, by omega, by simpa using h2, rfl⟩
  | setinterp mode =>
    show (_ ∧ ∃ c, execSetinterp mode s = _) ∨ ∃ t, execSetinterp mode s = _ ∧ _
    unfold execSetinterp
    split
    · exact .inl ⟨rfl, _, rfl⟩
    · exact .inr ⟨_, rfl, by omega, rfl⟩
  | sysparam id value =>
    rcases field (sysMax id) value (s.setSysReg id value) (encode (.sysparam id value)) with h | ⟨h, m, hm⟩
    · exact .inl ⟨rfl, h⟩
    · exact .inr ⟨_, h, m, hm.1, hm.2, rfl⟩
  | partparam p id value =>
    show (_ ∧ ∃ c, execPartparam p id value s = _) ∨ ∃ t, execPartparam p id value s = _ ∧ _
    unfold execPartparam
    split
    · exact .inl ⟨rfl, _, rfl⟩
    · rcases field (partMax id) value (partEffect p id value s) (encode (.partparam p id value)) with h | ⟨h, m, hm⟩
      · exact .inl ⟨rfl, h⟩
      · exact .inr ⟨_, h, by omega, m, hm.1, hm.2, rfl⟩
  | drumparam map key f value =>
    rcases field (drumMax f) value (s.setDrumReg map key f value) (encode (.drumparam map key f value)) with
      h | ⟨h, m, hm⟩
    · exact .inl ⟨rfl, h⟩
    · exact .inr ⟨_, h, m, hm.1, hm.2, rfl⟩
  | sdtWr e f value =>
    show (_ ∧ ∃ c, execSdtWr e f value s = _) ∨ ∃ t, execSdtWr e f value s = _ ∧ _
    unfold execSdtWr
    split
    · exact .inl ⟨rfl, _, rfl⟩
    · rcases field (sdtMax f) value (sdtEffect e f value s) (encode (.sdtWr e f value)) with h | ⟨h, m, hm⟩
      · exact .inl ⟨rfl, h⟩
      · exact .inr ⟨_, h, by omega, m, hm.1, hm.2, rfl⟩
  | pdtWr q f value =>
    show (_ ∧ ∃ c, execPdtWr q f value s = _) ∨ ∃ t, execPdtWr q f value s = _ ∧ _
    unfold execPdtWr
    split
    · exact .inl ⟨rfl, _, rfl⟩
    · rcases field (pdtMax s.params.ntv f) value (s.setPdtField q f value) (encode (.pdtWr q f value)) with
        h | ⟨h, m, hm⟩
      · exact .inl ⟨rfl, h⟩
      · exact .inr ⟨_, h, by omega, m, hm.1, hm.2, rfl⟩
  | decode e =>
    show (_ ∧ ∃ c, execDecode e s = _) ∨ ∃ t, execDecode e s = _ ∧ _
    unfold execDecode
    cases hc : decodeChecks s e with
    | error c => exact .inl ⟨rfl, c, rfl⟩
    | ok base =>
      obtain ⟨-, -, -, -, hr⟩ := decodeChecks_ok hc
      obtain ⟨l, hl, hlen, hget⟩ :=
        decodeElements_ok s (riaaCoeffs s.params) base (s.sdtData e 1 + 1) 0 (by omega)
      have hl' : decodeElements s (riaaCoeffs s.params) base (s.sdtData e 1 + 1) 0 History.zero History.zero = .ok l := hl
      refine .inr ⟨s.setBank e { decoded := true, data := l }, ?_, base, l, hc, hlen, fun k hk => ?_, rfl⟩
      · simp only [hl']; rfl
      · rw [hget k hk, Nat.zero_add]
  | vsetup v f value =>
    show (_ ∧ ∃ c, execVsetup v f value s = _) ∨ ∃ t, execVsetup v f value s = _ ∧ _
    unfold execVsetup
    split
    · exact .inl ⟨rfl, _, rfl⟩
    · rcases field (vsMax s.params f) value (s.setVsReg v f value) (encode (.vsetup v f value)) with h | ⟨h, m, hm⟩
      · exact .inl ⟨rfl, h⟩
      · exact .inr ⟨_, h, by omega, m, hm.1, hm.2, rfl⟩
  | vstart v q =>
    show (_ ∧ ∃ c, execVstart v q s = _) ∨ ∃ t, execVstart v q s = _ ∧ _
    unfold execVstart
    cases hc : startChecks s v q with
    | error c => exact .inl ⟨rfl, c, rfl⟩
    | ok e => exact .inr ⟨_, rfl, e, hc, rfl⟩
  | vnoteoff v =>
    show (_ ∧ ∃ c, execVnoteoff v s = _) ∨ ∃ t, execVnoteoff v s = _ ∧ _
    unfold execVnoteoff
    split
    · exact .inl ⟨rfl, _, rfl⟩
    · exact .inr ⟨_, rfl, by omega, rfl⟩
  | vkill v =>
    show (_ ∧ ∃ c, execVkill v s = _) ∨ ∃ t, execVkill v s = _ ∧ _
    unfold execVkill
    split
    · exact .inl ⟨rfl, _, rfl⟩
    · exact .inr ⟨_, rfl, by omega, rfl⟩
  | rdvoice v =>
    show (_ ∧ ∃ c, execRdvoice v s = _) ∨ ∃ t, execRdvoice v s = _ ∧ _
    unfold execRdvoice
    split
    · exact .inl ⟨rfl, _, rfl⟩
    · exact .inr ⟨_, rfl, by omega, rfl⟩

/-- The sample VSTART finds, with the checks that led to it (42_voice.md R110). -/
theorem startChecks_ok {s : State} {v q e : Nat} (h : startChecks s v q = .ok e) :
    v < s.params.nv ∧ q < s.params.np ∧ s.pdtLoaded q = true ∧
      resolveSample s q (Int.ofNat (s.vsReg v 1) + keyShiftOf s v) = .ok e ∧ s.sdtLoaded e = true ∧
      (s.bankOf e).decoded = true ∧ s.sdtData e 2 ≤ s.sdtData e 1 := by
  unfold startChecks at h
  split at h
  · cases h
  split at h
  · cases h
  split at h
  · cases h
  split at h
  · cases h
  split at h
  · cases h
  split at h
  · cases h
  · rename_i h1 h2 h3 _ e' he h4 h5
    cases h
    simp only [Bool.or_eq_true, Bool.not_eq_true', not_or, Bool.not_eq_false] at h4
    exact ⟨by omega, by omega, by simpa using h3, he, h4.1, h4.2, by omega⟩

/-- A word takes a fault, recorded with the word it reports, or has the effect of the command it stands for. -/
theorem execWord_cases (w : Word) (s : State) :
    (∃ c w', execWord w s = .next (raise c w' s)) ∨
      ∃ i t, decode w = .ok i ∧ execWord w s = .next { t with cp := t.cp + 1 } ∧ Effect i s t := by
  unfold execWord
  cases hd : decode w with
  | error r => exact .inl ⟨_, _, rfl⟩
  | ok i =>
    rcases exec_cases i s with ⟨-, c, h⟩ | ⟨t, h, he⟩
    · exact .inl ⟨c, _, h⟩
    · exact .inr ⟨i, t, rfl, h, he⟩

/-! ### The derived values of the parts -/

/-- A recomputation writes the two derived tables alone. -/
theorem recomputeParts_shape (n : Nat) (s : State) :
    ∃ m p, recomputeParts n s = { s with matrix := m, pbf := p } := by
  induction n with
  | zero => exact ⟨s.matrix, s.pbf, rfl⟩
  | succ n ih =>
    obtain ⟨m, p, h⟩ := ih
    unfold recomputeParts
    rw [h]
    exact ⟨_, _, rfl⟩

/-- The matrix of a part reads the part registers and the parameters alone. -/
theorem matrixOf_congr {s t : State} (h1 : t.part = s.part) (h2 : t.params = s.params) (p : Nat) :
    matrixOf t p = matrixOf s p := by
  have hr : ∀ id, t.partReg p id = s.partReg p id := fun id => by unfold State.partReg; rw [h1]
  have hs : ∀ src, srcVal t p src = srcVal s p src := by
    intro src
    unfold srcVal State.partRegs
    simp only [h2, hr]
  unfold matrixOf matrixValue
  simp only [hr, hs, h2]

/-- After a recomputation the matrix and the bend factor of every part below `n` are those of the registers, and the
others are as they were. -/
theorem recomputeParts_spec (n : Nat) (s : State) (q : Nat) :
    Table.read zeroMatrix (recomputeParts n s).matrix q =
        (if q < n then matrixOf s q else Table.read zeroMatrix s.matrix q) ∧
      (recomputeParts n s).pbfOf q =
        if q < n then pbfValue s.params.numerics (s.partReg q 0x21) (s.partReg q (depthId 1 0)) else s.pbfOf q := by
  induction n with
  | zero => exact ⟨rfl, rfl⟩
  | succ n ih =>
    obtain ⟨m, p, h⟩ := recomputeParts_shape n s
    have hm : (recomputeParts (n + 1) s).matrix = Table.write zeroMatrix (recomputeParts n s).matrix n (matrixOf s n) := by
      show Table.write zeroMatrix (recomputeParts n s).matrix n (matrixOf (recomputeParts n s) n) = _
      rw [matrixOf_congr (s := s) (by rw [h]) (by rw [h])]
    have hp : (recomputeParts (n + 1) s).pbf = Table.write (fun _ => R.one) (recomputeParts n s).pbf n
        (pbfValue s.params.numerics (s.partReg n 0x21) (s.partReg n (depthId 1 0))) := by
      show Table.write (fun _ => R.one) (recomputeParts n s).pbf n (pbfValue (recomputeParts n s).params.numerics
        ((recomputeParts n s).partReg n 0x21) ((recomputeParts n s).partReg n (depthId 1 0))) = _
      have hpart : ∀ id, (recomputeParts n s).partReg n id = s.partReg n id := fun id => by rw [h]; rfl
      rw [hpart, hpart, h]
    constructor
    · rw [hm, Table.read_write]
      rcases Nat.lt_trichotomy q n with hq | hq | hq
      · rw [if_neg (by omega), ih.1, if_pos hq, if_pos (by omega)]
      · rw [if_pos hq, if_pos (by omega), hq]
      · rw [if_neg (by omega), ih.1, if_neg (by omega), if_neg (by omega)]
    · unfold State.pbfOf at ih ⊢
      rw [hp, Table.read_write]
      rcases Nat.lt_trichotomy q n with hq | hq | hq
      · rw [if_neg (by omega), ih.2, if_pos hq, if_pos (by omega)]
      · rw [if_pos hq, if_pos (by omega), hq]
      · rw [if_neg (by omega), ih.2, if_neg (by omega), if_neg (by omega)]

/-- Entry (d, src) of a recomputed matrix (41_parameters.md R90). -/
theorem matrixOf_entry (s : State) (p : Nat) {d src : Nat} (hd : d < 11) (hs : src < 6) :
    ((matrixOf s p).getD d []).getD src 0 = matrixValue s p d src := by
  unfold matrixOf
  simp [List.getD, hd, hs]

end Sys2Proof.Machine
end

