-- ==== Sys2Proof/Laws/Encoding.lean ====
section
/-!
SUPPORT. The fields of a command word: a packed word has the fields it was packed from, and every word is the packing of its
fields (30_encoding.md R68, R69).
-/

namespace Sys2Proof

/-- The fields of a packed word. -/
theorem fields_packWord {op a b data : Nat} (h1 : op < 256) (h2 : a < 256) (h3 : b < 65536) (h4 : data < 4294967296) :
    opField (packWord op a b data) = op ∧ aField (packWord op a b data) = a ∧ bField (packWord op a b data) = b ∧
      dataField (packWord op a b data) = data := by
  have h : (packWord op a b data).toNat = op + a * 256 + b * 65536 + data * 4294967296 := by
    unfold packWord
    rw [BitVec.toNat_ofNat]
    exact Nat.mod_eq_of_lt (by omega)
  unfold opField aField bField dataField
  rw [h]
  refine ⟨?_, ?_, ?_, ?_⟩ <;> omega

/-- Every word is the packing of its fields. -/
theorem packWord_fields (w : Word) : packWord (opField w) (aField w) (bField w) (dataField w) = w := by
  apply BitVec.eq_of_toNat_eq
  unfold packWord opField aField bField dataField
  rw [BitVec.toNat_ofNat]
  have := w.isLt
  omega

/-- The ranges of the fields. -/
theorem fields_lt (w : Word) : opField w < 256 ∧ aField w < 256 ∧ bField w < 65536 ∧ dataField w < 4294967296 := by
  unfold opField aField bField dataField
  have := w.isLt
  refine ⟨?_, ?_, ?_, ?_⟩ <;> omega

/-- What the fields of a word stand for: the match of `decode`, as a function of the fields. -/
def commandOf (op a b data : Nat) : Except Reject Instr :=
  match op with
  | 0x00 => unlessReserved (a == 0 && b == 0 && data == 0) .nop
  | 0x01 => unlessReserved (a == 0 && b == 0 && data == 0) .reset
  | 0x02 => unlessReserved (b == 0) (.setfmt data a)
  | 0x03 => unlessReserved (a == 0 && b == 0) (.setinterp data)
  | 0x10 => unlessReserved (b == 0) (.sysparam a data)
  | 0x11 => .ok (.partparam b a data)
  | 0x12 => unlessReserved (b / 256 == 0) (.drumparam (b / 128 % 2) (b % 128) a data)
  | 0x20 => .ok (.sdtWr b a data)
  | 0x21 => .ok (.pdtWr b a data)
  | 0x22 => unlessReserved (a == 0 && data == 0) (.decode b)
  | 0x30 => .ok (.vsetup b a data)
  | 0x31 => unlessReserved (a == 0) (.vstart b data)
  | 0x32 => unlessReserved (a == 0 && data == 0) (.vnoteoff b)
  | 0x33 => unlessReserved (a == 0 && data == 0) (.vkill b)
  | 0x34 => unlessReserved (a == 0 && data == 0) (.rdvoice b)
  | 0x35 => unlessReserved (a == 0 && b == 0 && data == 0) .rdfault
  | 0x40 => unlessReserved (a == 0 && b == 0 && data == 0) .frame
  | _ => .error .opcode

theorem decode_eq (w : Word) : decode w = commandOf (opField w) (aField w) (bField w) (dataField w) := rfl

/-- Decoding a packed word looks at its fields. -/
theorem decode_packWord {op a b data : Nat} (h1 : op < 256) (h2 : a < 256) (h3 : b < 65536) (h4 : data < 4294967296) :
    decode (packWord op a b data) = commandOf op a b data := by
  obtain ⟨e1, e2, e3, e4⟩ := fields_packWord h1 h2 h3 h4
  rw [decode_eq, e1, e2, e3, e4]

end Sys2Proof
end

