-- ==== Sys2Proof/Laws/Frame.lean ====
section
/-!
SUPPORT. What the voice step and the mix can do, said once: what a voice step reads and which fields of a voice it may
change (45_mixer.md R137), what one voice slot does to the frame in progress, and what the whole mix comes to (R143).
-/

namespace Sys2Proof.Machine

/-! ### What a voice step reads -/

theorem SameInputs.refl (s : State) : SameInputs s s := ⟨rfl, rfl, rfl, rfl, rfl, rfl, rfl, rfl⟩

theorem SameInputs.trans {s t u : State} (h : SameInputs s t) (k : SameInputs t u) : SameInputs s u :=
  ⟨k.fs.trans h.fs, k.interp.trans h.interp, k.sys.trans h.sys, k.part.trans h.part, k.matrix.trans h.matrix,
    k.pbf.trans h.pbf, k.bank.trans h.bank, k.params.trans h.params⟩

section
variable {s t : State} (h : SameInputs s t)
include h

theorem SameInputs.partReg : t.partReg = s.partReg := by funext p id; simp only [State.partReg, h.part]
theorem SameInputs.sysReg : t.sysReg = s.sysReg := by funext id; simp only [State.sysReg, h.sys]
theorem SameInputs.pbfOf : t.pbfOf = s.pbfOf := by funext p; simp only [State.pbfOf, h.pbf]
theorem SameInputs.matrixEntry : t.matrixEntry = s.matrixEntry := by
  funext p d c; simp only [State.matrixEntry, h.matrix]
theorem SameInputs.bankRead : t.bankRead = s.bankRead := by
  funext i k; simp only [State.bankRead, State.bankOf, h.bank]
theorem SameInputs.refreshPeriod : refreshPeriod t = refreshPeriod s := by
  simp only [Sys2Proof.Machine.refreshPeriod, h.fs]
theorem SameInputs.modAcc : modAcc t = modAcc s := by
  have hs : modSum t = modSum s := by funext p d; unfold modSum; rw [h.matrixEntry]
  funext p d
  unfold Sys2Proof.Machine.modAcc
  rw [hs, h.params]
theorem SameInputs.frameInputs : frameInputs t = frameInputs s := by
  funext v; simp only [Sys2Proof.Machine.frameInputs, h.fs]
theorem SameInputs.startInputs : startInputs t = startInputs s := by
  funext v; simp only [Sys2Proof.Machine.startInputs, partInputs, h.frameInputs, h.partReg]
theorem SameInputs.refreshInputs : refreshInputs t = refreshInputs s := by
  funext v; simp only [Sys2Proof.Machine.refreshInputs, h.startInputs, h.modAcc]
theorem SameInputs.envInputs : envInputs t = envInputs s := by
  funext i v; simp only [Sys2Proof.Machine.envInputs, h.params]
theorem SameInputs.refreshTuning : refreshTuning t = refreshTuning s := by
  funext v; simp only [Sys2Proof.Machine.refreshTuning, h.partReg, h.sysReg, h.params]
theorem SameInputs.refreshGenerators : refreshGenerators t = refreshGenerators s := by
  funext v; simp only [Sys2Proof.Machine.refreshGenerators, h.refreshInputs, h.envInputs, h.params]
theorem SameInputs.tickGenerators : tickGenerators t = tickGenerators s := by
  funext v; simp only [Sys2Proof.Machine.tickGenerators, h.frameInputs, h.envInputs, h.params]
theorem SameInputs.refreshTvf : refreshTvf t = refreshTvf s := by
  have hc : tvfCutoff t = tvfCutoff s := by
    funext v; unfold tvfCutoff; rw [h.refreshInputs, h.envInputs, h.partReg, h.modAcc, h.params]
  have hq : tvfQuality t = tvfQuality s := by funext v; unfold tvfQuality; rw [h.partReg, h.params]
  funext v
  unfold Sys2Proof.Machine.refreshTvf
  rw [hc, hq, h.params, h.fs]
theorem SameInputs.refreshIfDue : refreshIfDue t = refreshIfDue s := by
  have hv : refreshVoice t = refreshVoice s := by
    funext v; unfold refreshVoice; rw [h.refreshTuning, h.refreshGenerators, h.refreshTvf]
  funext v
  unfold Sys2Proof.Machine.refreshIfDue
  rw [h.refreshPeriod, hv]
theorem SameInputs.pitchOf : pitchOf t = pitchOf s := by
  funext v x; simp only [Sys2Proof.Machine.pitchOf, h.pbfOf, h.params]
theorem SameInputs.tvpPitch : tvpPitch t = tvpPitch s := by
  funext v; simp only [Sys2Proof.Machine.tvpPitch, h.frameInputs, h.envInputs, h.params]
theorem SameInputs.readSample : readSample t = readSample s := by
  have ht : tap t = tap s := by funext v j; simp only [tap, h.bankRead]
  have hl : readLinear t = readLinear s := by funext v k m; unfold readLinear; rw [ht, h.params]
  have hc : readCubic t = readCubic s := by funext v k m; unfold readCubic; rw [ht, h.params]
  funext v
  unfold Sys2Proof.Machine.readSample
  rw [hl, hc, h.bankRead, h.params, h.interp]
theorem SameInputs.soundVoice : soundVoice t = soundVoice s := by
  have hf : tvfApply t = tvfApply s := by funext v x; unfold tvfApply; rw [h.params]
  have ha : tvaApply t = tvaApply s := by funext v y; unfold tvaApply; rw [h.tickGenerators, h.params]
  funext v
  unfold Sys2Proof.Machine.soundVoice
  rw [hf, ha, h.readSample, h.partReg, h.params]

/-- A voice step reads nothing else. -/
theorem SameInputs.voiceStep : voiceStep t = voiceStep s := by
  have ha : advanceVoice t = advanceVoice s := by
    funext v; unfold advanceVoice; rw [h.pitchOf, h.tvpPitch, h.soundVoice, h.params]
  funext v
  unfold Sys2Proof.Machine.voiceStep
  rw [h.refreshIfDue, ha]

/-- Nor does the master stage. -/
theorem SameInputs.partGain : partGain t = partGain s := by
  have hr : partGainRef t = partGainRef s := by funext p; unfold partGainRef; rw [h.partReg, h.params]
  have hp : t.partRegs = s.partRegs := by funext p; unfold State.partRegs; rw [h.partReg]
  funext p
  unfold Sys2Proof.Machine.partGain
  rw [hr, hp, h.params]
theorem SameInputs.masterGain : masterGain t = masterGain s := by
  funext x; simp only [Sys2Proof.Machine.masterGain, h.sysReg, h.params, h.fs]

end

/-! ### What a voice step can do -/

/-- Two voices with the same fixed fields. -/
theorem Voice.fixed_fields {x y : Voice} (h : x.fixed = y.fixed) :
    x.part = y.part ∧ x.key = y.key ∧ x.releasing = y.releasing ∧ x.s = y.s ∧ x.sampleLen = y.sampleLen ∧
      x.loopLen = y.loopLen ∧ x.loopMode = y.loopMode ∧ x.loopStart = y.loopStart ∧ x.loopEnd = y.loopEnd := by
  refine ⟨?_, ?_, ?_, ?_, ?_, ?_, ?_, ?_, ?_⟩
  · have := congrArg Voice.part h; exact this
  · have := congrArg Voice.key h; exact this
  · have := congrArg Voice.releasing h; exact this
  · have := congrArg Voice.s h; exact this
  · have := congrArg Voice.sampleLen h; exact this
  · have := congrArg Voice.loopLen h; exact this
  · have := congrArg Voice.loopMode h; exact this
  · have := congrArg Voice.loopStart h; exact this
  · have := congrArg Voice.loopEnd h; exact this

theorem refreshTvf_fields (s : State) (v : Voice) :
    ∃ c k, refreshTvf s v = { v with tvf := { v.tvf with coeffs := c, key := k } } := by
  unfold refreshTvf
  extract_lets k
  split
  · exact ⟨v.tvf.coeffs, v.tvf.key, rfl⟩
  · exact ⟨_, _, rfl⟩

/-- A refresh keeps everything but the tuning, the generators' states, and the TVF's coefficients and key. -/
theorem refreshVoice_fields (s : State) (v : Voice) :
    (refreshVoice s v).fixed = v.fixed ∧ (refreshVoice s v).active = v.active ∧
      (refreshVoice s v).finished = v.finished ∧ (refreshVoice s v).isLooping = v.isLooping ∧
      (refreshVoice s v).aborted = v.aborted ∧ (refreshVoice s v).phase = v.phase ∧
      (refreshVoice s v).refreshCnt = v.refreshCnt ∧ (refreshVoice s v).tvf.hist = v.tvf.hist := by
  unfold refreshVoice
  obtain ⟨c, k, h⟩ := refreshTvf_fields s (refreshGenerators s (refreshTuning s v))
  rw [h]
  exact ⟨rfl, rfl, rfl, rfl, rfl, rfl, rfl, rfl⟩

theorem refreshIfDue_fields (s : State) (v : Voice) :
    (refreshIfDue s v).fixed = v.fixed ∧ (refreshIfDue s v).active = v.active ∧
      (refreshIfDue s v).finished = v.finished ∧ (refreshIfDue s v).isLooping = v.isLooping ∧
      (refreshIfDue s v).aborted = v.aborted ∧ (refreshIfDue s v).phase = v.phase ∧
      (refreshIfDue s v).refreshCnt = (v.refreshCnt + 1) % refreshPeriod s ∧
      (refreshIfDue s v).tvf.hist = v.tvf.hist := by
  unfold refreshIfDue
  extract_lets v1
  split
  · exact refreshVoice_fields s v1
  · exact ⟨rfl, rfl, rfl, rfl, rfl, rfl, rfl, rfl⟩

/-- What advancing the phase comes to, said once (R119, R120). -/
theorem advancePhase_cases (N : Numerics) (v : Voice) (pitch : R) :
    (∃ p l, advancePhase N v pitch = .running { v with phase := p, isLooping := l } ∧
        R.le R.zero p = true ∧ R.lt p v.endPhase = true ∧ (v.isLooping = true → l = true)) ∨
    (∃ p, advancePhase N v pitch = .outOfRange { v with phase := p } ∧
        (R.le R.zero p && R.lt p v.endPhase) = false) ∨
    (∃ p, advancePhase N v pitch = .oneShotEnd { v with phase := p } ∧ v.loopMode = 2 ∧ p.isFinite = true ∧
        R.le v.endPhase p = true) := by
  have settle : ∀ p,
      (∃ p' l, settlePhase v p = .running { v with phase := p', isLooping := l } ∧
        R.le R.zero p' = true ∧ R.lt p' v.endPhase = true ∧ (v.isLooping = true → l = true)) ∨
      (∃ p', settlePhase v p = .outOfRange { v with phase := p' } ∧
        (R.le R.zero p' && R.lt p' v.endPhase) = false) := by
    intro p
    unfold settlePhase
    split
    · next h =>
      rw [Bool.and_eq_true] at h
      exact .inl ⟨p, _, rfl, h.1, h.2, fun h => by simp [h]⟩
    · next h => exact .inr ⟨p, rfl, by simpa using h⟩
  unfold advancePhase
  extract_lets phase
  split
  · next h =>
    split
    · next h2 =>
      rw [Bool.and_eq_true] at h
      exact .inr (.inr ⟨phase, rfl, h2, h.1, h.2⟩)
    · rcases settle (N.sub phase (R.ofInt (Int.ofNat v.loopLen + 1))) with h | h
      · exact .inl h
      · exact .inr (.inl h)
  · rcases settle phase with h | h
    · exact .inl h
    · exact .inr (.inl h)

/-- What sounding a voice comes to, said once: its filter history and generators advance, and either the pair is finite or
the voice is aborted (R137 steps 5 to 11, R138). -/
theorem soundVoice_cases (s : State) (v : Voice) :
    ∃ h, (∃ l r, soundVoice s v =
        { voice := tickGenerators s { v with tvf := { v.tvf with hist := h } }, left := l, right := r, fault := none } ∧
        l.isFinite = true ∧ r.isFinite = true) ∨
      soundVoice s v =
        silentOut (tickGenerators s { v with tvf := { v.tvf with hist := h } }).abort (some .numeric) := by
  unfold soundVoice
  extract_lets N x f a lr
  refine ⟨(biquad N v.tvf.coeffs v.tvf.hist x).2, ?_⟩
  split
  · next h =>
    rw [Bool.and_eq_true] at h
    exact .inl ⟨lr.1, lr.2, rfl, h.1, h.2⟩
  · exact .inr rfl

theorem tickGenerators_fields (s : State) (v : Voice) :
    (tickGenerators s v).fixed = v.fixed ∧ (tickGenerators s v).active = v.active ∧
      (tickGenerators s v).finished = v.finished ∧ (tickGenerators s v).isLooping = v.isLooping ∧
      (tickGenerators s v).aborted = v.aborted ∧ (tickGenerators s v).phase = v.phase ∧
      (tickGenerators s v).refreshCnt = v.refreshCnt ∧ (tickGenerators s v).tvf = v.tvf :=
  ⟨rfl, rfl, rfl, rfl, rfl, rfl, rfl, rfl⟩

/-- What a voice step comes to, said once (R137). -/
theorem voiceStep_cases (s : State) (v : Voice) :
    (∃ p, voiceStep s v = silentOut { refreshIfDue s v with phase := p, finished := true, active := false } none ∧
      v.loopMode = 2 ∧ p.isFinite = true ∧ R.le v.endPhase p = true) ∨
    (∃ p, voiceStep s v = silentOut { refreshIfDue s v with phase := p, aborted := true, active := false } (some .phase) ∧
      (R.le R.zero p && R.lt p v.endPhase) = false) ∨
    (∃ p b h, R.le R.zero p = true ∧ R.lt p v.endPhase = true ∧ (v.isLooping = true → b = true) ∧
      ((∃ l r, voiceStep s v =
          { voice := tickGenerators s { refreshIfDue s v with
              phase := p, isLooping := b, tvf := { (refreshIfDue s v).tvf with hist := h } }
            left := l, right := r, fault := none } ∧ l.isFinite = true ∧ r.isFinite = true) ∨
        voiceStep s v = silentOut (tickGenerators s { refreshIfDue s v with
              phase := p, isLooping := b, tvf := { (refreshIfDue s v).tvf with hist := h } }).abort (some .numeric))) := by
  obtain ⟨hf, -, -, hl, -, -, -, -⟩ := refreshIfDue_fields s v
  have he : (refreshIfDue s v).endPhase = v.endPhase := by
    have : (refreshIfDue s v).sampleLen = v.sampleLen := (Voice.fixed_fields hf).2.2.2.2.1
    unfold Voice.endPhase; rw [this]
  have hm : (refreshIfDue s v).loopMode = v.loopMode := (Voice.fixed_fields hf).2.2.2.2.2.2.1
  unfold voiceStep advanceVoice
  rcases advancePhase_cases s.params.numerics (refreshIfDue s v)
      (pitchOf s (refreshIfDue s v) (tvpPitch s (refreshIfDue s v))) with
    ⟨p, b, h, h1, h2, h3⟩ | ⟨p, h, h1⟩ | ⟨p, h, h1, hfin, h2⟩
  · right; right
    rw [h]
    rw [he] at h2
    rw [hl] at h3
    obtain ⟨hist, hc⟩ := soundVoice_cases s { refreshIfDue s v with phase := p, isLooping := b }
    exact ⟨p, b, hist, h1, h2, h3, hc⟩
  · right; left
    rw [he] at h1
    exact ⟨p, by rw [h]; rfl, h1⟩
  · left
    rw [he] at h2
    exact ⟨p, by rw [h]; rfl, hm ▸ h1, hfin, h2⟩

/-- No voice step changes a fixed field. -/
theorem voiceStep_fixed (s : State) (v : Voice) : (voiceStep s v).voice.fixed = v.fixed := by
  have hf := (refreshIfDue_fields s v).1
  rcases voiceStep_cases s v with ⟨p, h, -⟩ | ⟨p, h, -⟩ | ⟨p, b, hist, -, -, -, ⟨l, r, h, -, -⟩ | h⟩ <;> rw [h] <;> exact hf

/-- A fault of a voice step is F_PHASE or F_NUMERIC, and the voice is then aborted and silent (R138). -/
theorem voiceStep_fault (s : State) (v : Voice) {c : Cause} (hc : (voiceStep s v).fault = some c) :
    (c = .phase ∨ c = .numeric) ∧ (voiceStep s v).voice.aborted = true ∧ (voiceStep s v).voice.active = false ∧
      (voiceStep s v).left = R.zero ∧ (voiceStep s v).right = R.zero := by
  rcases voiceStep_cases s v with ⟨p, h, -⟩ | ⟨p, h, -⟩ | ⟨p, b, hist, -, -, -, ⟨l, r, h, -, -⟩ | h⟩ <;>
    rw [h] at hc ⊢ <;> simp_all [silentOut, Voice.abort]

/-! ### The mix -/

/-- What one slot does to a frame in progress (R143). -/
theorem mixVoice_eq (m : Mix) (i : Nat) (h : (m.st.voice i).active = true) :
    mixVoice m i = mixInto m i (frameStep m.st i) := if_pos h

theorem mixVoice_idle (m : Mix) (i : Nat) (h : (m.st.voice i).active = false) : mixVoice m i = m :=
  if_neg (by rw [h]; decide)

theorem recordFrame_append (l k : List (Nat × Cause)) (s : State) :
    recordFrame (l ++ k) s = recordFrame k (recordFrame l s) := by
  induction l generalizing s with
  | nil => rfl
  | cons a l ih => exact ih _

/-- The fault of one slot, as a list. -/
def faultList (i : Nat) (f : Option Cause) : List (Nat × Cause) := (f.map fun c => (i, c)).toList

theorem recordRuntime_eq (f : Option Cause) (i : Nat) (s : State) :
    recordRuntime f i s = recordFrame (faultList i f) s := by cases f <;> rfl

theorem recordRuntime_voice (f : Option Cause) (i : Nat) (s : State) (v : Nat) :
    (recordRuntime f i s).voice v = s.voice v := by cases f <;> rfl

theorem recordRuntime_voices (f : Option Cause) (i : Nat) (s : State) (vs : Table Voice) (x : Voice) :
    ({ (recordRuntime f i s).setVoice i x with voices := vs } : State) = { recordRuntime f i s with voices := vs } := rfl

theorem filterMap_faults (g : Nat → Option Cause) (a : Nat) (l : List Nat) :
    ((a :: l).filterMap fun v => (g v).map fun c => (v, c)) =
      faultList a (g a) ++ l.filterMap fun v => (g v).map fun c => (v, c) := by
  rw [List.filterMap_cons]
  unfold faultList
  cases g a <;> rfl

theorem SameInputs.recordRuntime (f : Option Cause) (i : Nat) (s : State) : SameInputs s (recordRuntime f i s) := by
  cases f <;> exact ⟨rfl, rfl, rfl, rfl, rfl, rfl, rfl, rfl⟩

theorem SameInputs.setVoice {s t : State} (h : SameInputs s t) (i : Nat) (x : Voice) : SameInputs s (t.setVoice i x) :=
  ⟨h.1, h.2, h.3, h.4, h.5, h.6, h.7, h.8⟩

theorem frameStep_congr {s t : State} (h : SameInputs s t) {v : Nat} (hv : t.voice v = s.voice v) :
    frameStep t v = frameStep s v := by
  unfold frameStep; rw [h.voiceStep, hv]

theorem frameVoice_congr {s t : State} (h : SameInputs s t) {v : Nat} (hv : t.voice v = s.voice v) :
    frameVoice t v = frameVoice s v := by
  unfold frameVoice; rw [frameStep_congr h hv]

/-- The faults of the active slots among `l`. -/
def faultsOf (s : State) (l : List Nat) : List (Nat × Cause) :=
  (l.filter fun v => (s.voice v).active).filterMap fun v => (frameStep s v).fault.map fun c => (v, c)

/-- One side of part `p`'s accumulator after the active slots among `l` are added to `acc`. -/
def sideOf (s : State) (side : VoiceOut → R) (p : Nat) (acc : R) (l : List Nat) : R :=
  ((l.filter fun v => (s.voice v).active).filter fun v => (s.voice v).part == p).foldl
    (fun sum v => s.params.numerics.add sum (side (frameStep s v))) acc

/-- What the mix of a list of distinct slots comes to: each active slot takes its step from the state the mix began in. -/
structure MixSpec (m : Mix) (l : List Nat) (m' : Mix) : Prop where
  inputs : SameInputs m.st m'.st
  voice : ∀ v, m'.st.voice v = if v ∈ l ∧ (m.st.voice v).active = true then frameVoice m.st v else m.st.voice v
  state : { m'.st with voices := m.st.voices } = recordFrame (faultsOf m.st l) m.st
  silent : m'.silent = (m.silent || !(faultsOf m.st l).isEmpty)
  accL : ∀ p, accAt m'.accL p = sideOf m.st VoiceOut.left p (accAt m.accL p) l
  accR : ∀ p, accAt m'.accR p = sideOf m.st VoiceOut.right p (accAt m.accR p) l

theorem filter_congr_mem {s t : State} {l : List Nat} (h : ∀ v ∈ l, t.voice v = s.voice v) :
    (l.filter fun v => (t.voice v).active) = l.filter fun v => (s.voice v).active :=
  List.filter_congr fun v hv => by rw [h v hv]

theorem faultsOf_congr {s t : State} (hi : SameInputs s t) {l : List Nat} (h : ∀ v ∈ l, t.voice v = s.voice v) :
    faultsOf t l = faultsOf s l := by
  unfold faultsOf
  rw [filter_congr_mem h]
  exact List.filterMap_congr fun v hv => by rw [frameStep_congr hi (h v (List.mem_filter.mp hv).1)]

theorem foldl_congr_mem {α β : Type} (f g : β → α → β) (l : List α) (b : β) (h : ∀ b, ∀ a ∈ l, f b a = g b a) :
    l.foldl f b = l.foldl g b := by
  induction l generalizing b with
  | nil => rfl
  | cons a l ih =>
    rw [List.foldl_cons, List.foldl_cons, h b a (by simp)]
    exact ih _ fun b a ha => h b a (by simp [ha])

theorem sideOf_congr {s t : State} (hi : SameInputs s t) {l : List Nat} (h : ∀ v ∈ l, t.voice v = s.voice v)
    (side : VoiceOut → R) (p : Nat) (acc : R) : sideOf t side p acc l = sideOf s side p acc l := by
  unfold sideOf
  rw [filter_congr_mem h, hi.params]
  have : ((l.filter fun v => (s.voice v).active).filter fun v => (t.voice v).part == p) =
      (l.filter fun v => (s.voice v).active).filter fun v => (s.voice v).part == p :=
    List.filter_congr fun v hv => by rw [h v (List.mem_filter.mp hv).1]
  rw [this]
  refine foldl_congr_mem _ _ _ _ fun b v hv => ?_
  rw [frameStep_congr hi (h v (List.mem_filter.mp (List.mem_filter.mp hv).1).1)]

theorem accAt_accAdd (N : Numerics) (t : Table R) (p q : Nat) (x : R) :
    accAt (accAdd N t p x) q = if q = p then N.add (accAt t p) x else accAt t q := Table.read_write ..

theorem recordFrame_voices (l : List (Nat × Cause)) (s : State) (vs : Table Voice) :
    recordFrame l { s with voices := vs } = { recordFrame l s with voices := vs } := by
  induction l generalizing s with
  | nil => rfl
  | cons a l ih => exact ih (record a.2 (BitVec.ofNat 8 a.1) (encode .frame) s)

theorem mix_spec (l : List Nat) (hl : l.Nodup) (m : Mix) : MixSpec m l (l.foldl mixVoice m) := by
  induction l generalizing m with
  | nil =>
    exact ⟨SameInputs.refl _, fun v => by simp, rfl, by simp [faultsOf], fun p => rfl, fun p => rfl⟩
  | cons a l ih =>
    obtain ⟨ha, hl⟩ := List.nodup_cons.mp hl
    rw [List.foldl_cons]
    have ih := ih hl (mixVoice m a)
    cases hact : (m.st.voice a).active with
    | false =>
      rw [mixVoice_idle m a hact] at ih ⊢
      have hfilter : ((a :: l).filter fun v => (m.st.voice v).active) = l.filter fun v => (m.st.voice v).active := by
        simp [hact]
      refine ⟨ih.inputs, fun v => ?_, ?_, ?_, ?_, ?_⟩
      · rw [ih.voice v]
        by_cases hv : v = a
        · subst hv; simp [ha, hact]
        · simp [hv]
      · rw [ih.state]; unfold faultsOf; rw [hfilter]
      · rw [ih.silent]; unfold faultsOf; rw [hfilter]
      · intro p; rw [ih.accL]; unfold sideOf; rw [hfilter]
      · intro p; rw [ih.accR]; unfold sideOf; rw [hfilter]
    | true =>
      have hm := mixVoice_eq m a hact
      have hst : (mixVoice m a).st =
          (recordRuntime (frameStep m.st a).fault a m.st).setVoice a (frameVoice m.st a) := by
        rw [hm]; rfl
      have hin : SameInputs m.st (mixVoice m a).st := by
        rw [hst]; exact (SameInputs.recordRuntime _ _ _).setVoice _ _
      have hvoice : ∀ v, (mixVoice m a).st.voice v = if v = a then frameVoice m.st a else m.st.voice v := by
        intro v
        rw [hst, voice_setVoice, recordRuntime_voice]
      have hsame : ∀ v ∈ l, (mixVoice m a).st.voice v = m.st.voice v := by
        intro v hv
        rw [hvoice, if_neg (by rintro rfl; exact ha hv)]
      have hpart : (frameStep m.st a).voice.part = (m.st.voice a).part :=
        (Voice.fixed_fields (voiceStep_fixed m.st (m.st.voice a))).1
      have hfilter : ((a :: l).filter fun v => (m.st.voice v).active) =
          a :: l.filter fun v => (m.st.voice v).active :=
        List.filter_cons_of_pos (p := fun v => (m.st.voice v).active) hact
      have hfaults : faultsOf m.st (a :: l) = faultList a (frameStep m.st a).fault ++ faultsOf m.st l := by
        unfold faultsOf
        rw [hfilter]
        exact filterMap_faults (fun v => (frameStep m.st v).fault) a _
      have hside : ∀ side p acc, sideOf m.st side p acc (a :: l) =
          sideOf m.st side p
            (if p = (m.st.voice a).part then m.st.params.numerics.add acc (side (frameStep m.st a)) else acc) l := by
        intro side p acc
        unfold sideOf
        rw [hfilter]
        by_cases hp : p = (m.st.voice a).part
        · rw [List.filter_cons_of_pos (by simp [hp]), List.foldl_cons, if_pos hp]
        · rw [List.filter_cons_of_neg (by simpa using Ne.symm hp), if_neg hp]
      have hacc : ∀ (side : VoiceOut → R) t p, accAt (accAdd m.st.params.numerics t (frameStep m.st a).voice.part
            (side (frameStep m.st a))) p =
          if p = (m.st.voice a).part then m.st.params.numerics.add (accAt t p) (side (frameStep m.st a))
          else accAt t p := by
        intro side t p
        rw [hpart, accAt_accAdd]
        by_cases hp : p = (m.st.voice a).part
        · rw [if_pos hp, if_pos hp, hp]
        · rw [if_neg hp, if_neg hp]
      refine ⟨hin.trans ih.inputs, fun v => ?_, ?_, ?_, fun p => ?_, fun p => ?_⟩
      · rw [ih.voice v]
        by_cases hv : v = a
        · subst hv
          rw [if_neg (by simp [ha]), hvoice, if_pos rfl, if_pos ⟨by simp, hact⟩]
        · by_cases hvl : v ∈ l
          · rw [hsame v hvl, frameVoice_congr hin (hsame v hvl)]
            simp [hv]
          · rw [hvoice, if_neg hv]
            simp [hv, hvl]
      · have hs := ih.state
        rw [faultsOf_congr hin hsame] at hs
        have h1 : ({ (l.foldl mixVoice (mixVoice m a)).st with voices := m.st.voices } : State) =
            { recordFrame (faultsOf m.st l) (mixVoice m a).st with voices := m.st.voices } := by
          rw [← hs]
        rw [h1, ← recordFrame_voices, hst, recordRuntime_voices, hfaults, recordFrame_append, recordRuntime_eq,
          ← recordFrame_voices]
      · rw [ih.silent, faultsOf_congr hin hsame, hfaults, hm]
        show (m.silent || (frameStep m.st a).fault.isSome || _) = _
        unfold faultList
        cases (frameStep m.st a).fault <;> simp
      · rw [ih.accL, sideOf_congr hin hsame, hside, hm]
        exact congrArg (fun x => sideOf m.st VoiceOut.left p x l) (hacc VoiceOut.left m.accL p)
      · rw [ih.accR, sideOf_congr hin hsame, hside, hm]
        exact congrArg (fun x => sideOf m.st VoiceOut.right p x l) (hacc VoiceOut.right m.accR p)

end Sys2Proof.Machine
end

