-- ==== Sys2Proof/Laws/Envelopes.lean ====
section
/-!
SUPPORT. The constraints every `ENV` keeps (44_envelopes.md R125, R126), for the reference and for every unknown one, and
what the four operations on a voice's generators do to them.
-/

namespace Sys2Proof.Machine

theorem orReference_cases {α : Type} (legal : Bool) (x y : α) :
    (legal = true ∧ orReference legal x y = x) ∨ orReference legal x y = y := by
  cases legal
  · exact .inr rfl
  · exact .inl ⟨rfl, rfl⟩

theorem legalLevel_zero (g : Gen) : legalLevel g R.zero = true := by cases g <;> decide

theorem legalLevel_one (g : Gen) : legalLevel g R.one = true := by cases g <;> decide

/-- R126.1 -/
theorem envInit_legal (c : Choice) (g : Gen) (i : EnvInputs) :
    (envInit c g i).stage.code ≤ 3 ∧ legalLevel g (envInit c g i).level = true := by
  have href : (t0Init g).stage.code ≤ 3 ∧ legalLevel g (t0Init g).level = true :=
    ⟨show Stage.sustain.code ≤ 3 by decide, by cases g <;> decide⟩
  cases c with
  | reference => exact href
  | other n =>
    rcases orReference_cases (legalInit g (Config.envInit n g i)) (Config.envInit n g i) (t0Init g) with ⟨h, he⟩ | he
    · rw [show envInit (.other n) g i = _ from he]
      simpa [legalInit] using h
    · rw [show envInit (.other n) g i = _ from he]
      exact href

theorem forwardMove_refl (x : Stage) : forwardMove x x = true := by cases x <;> decide

theorem tvaDoneAtZero_refl (g : Gen) (e : EG) : tvaDoneAtZero g e e = true := by
  unfold tvaDoneAtZero
  cases g <;> cases h : e.stage <;> simp

theorem legalMove_iff {g : Gen} {old new : EG} : legalMove g old new = true ↔
    (forwardMove old.stage new.stage = true ∧ legalLevel g new.level = true ∧ tvaDoneAtZero g old new = true) ∧
      tvaReleaseEnds g old new = true ∧ tvaReleasePositive g new = true := by
  simp only [legalMove, Bool.and_eq_true, and_assoc]

theorem settledRefresh_legal (g : Gen) (e : EG) (h : legalLevel g e.level = true) :
    (forwardMove e.stage (settledRefresh g e).stage = true ∧ legalLevel g (settledRefresh g e).level = true ∧
      tvaDoneAtZero g e (settledRefresh g e) = true) ∧
      tvaReleaseEnds g e (settledRefresh g e) = true ∧ tvaReleasePositive g (settledRefresh g e) = true := by
  unfold settledRefresh
  split
  · next hp => exact ⟨⟨forwardMove_refl _, h, tvaDoneAtZero_refl g e⟩, by unfold tvaReleaseEnds; rw [hp]; rfl, hp⟩
  · next hp =>
    have hr : e.stage = .release := by
      unfold tvaReleasePositive at hp
      simp only [Bool.or_eq_true, bne_iff_ne, not_or, Decidable.not_not] at hp
      exact hp.1.2
    refine ⟨⟨by rw [hr]; exact (by decide : forwardMove .release .done = true), legalLevel_zero g, ?_⟩, ?_, ?_⟩
    · unfold tvaDoneAtZero; simp
    · unfold tvaReleaseEnds; simp
    · unfold tvaReleasePositive; simp

/-- R126.2, R126.4, R126.5 of a refresh. -/
theorem envRefresh_legal (c : Choice) (g : Gen) (i : EnvInputs) (e : EG) (h : legalLevel g e.level = true) :
    forwardMove e.stage (envRefresh c g i e).stage = true ∧ legalLevel g (envRefresh c g i e).level = true ∧
      tvaDoneAtZero g e (envRefresh c g i e) = true := by
  cases c with
  | reference => exact ⟨forwardMove_refl _, h, tvaDoneAtZero_refl g e⟩
  | other n =>
    rcases orReference_cases (legalMove g e (Config.envRefresh n g i e)) (Config.envRefresh n g i e)
      (settledRefresh g e) with ⟨hl, he⟩ | he
    · rw [show envRefresh (.other n) g i e = _ from he]
      exact (legalMove_iff.mp hl).1
    · rw [show envRefresh (.other n) g i e = _ from he]
      exact (settledRefresh_legal g e h).1

/-- R126.5: a refresh by an unknown `ENV` ends a TVA it finds in RELEASE with a level at or below 0, and leaves none so. -/
theorem envRefresh_release (n : Nat) (g : Gen) (i : EnvInputs) (e : EG) (h : legalLevel g e.level = true) :
    tvaReleaseEnds g e (envRefresh (.other n) g i e) = true ∧
      tvaReleasePositive g (envRefresh (.other n) g i e) = true := by
  rcases orReference_cases (legalMove g e (Config.envRefresh n g i e)) (Config.envRefresh n g i e)
    (settledRefresh g e) with ⟨hl, he⟩ | he
  · rw [show envRefresh (.other n) g i e = _ from he]
    exact (legalMove_iff.mp hl).2
  · rw [show envRefresh (.other n) g i e = _ from he]
    exact (settledRefresh_legal g e h).2

theorem t0Tick_legal (g : Gen) (e : EG) (h : legalLevel g e.level = true) :
    forwardMove e.stage (t0Tick g e).stage = true ∧ legalLevel g (t0Tick g e).level = true ∧
      tvaDoneAtZero g e (t0Tick g e) = true := by
  unfold t0Tick
  split
  · next hr =>
    refine ⟨by rw [hr]; exact (by decide : forwardMove .release .done = true), ?_, ?_⟩
    · show legalLevel g (if g = .tva then R.zero else e.level) = true
      split
      · exact legalLevel_zero g
      · exact h
    · unfold tvaDoneAtZero
      cases g <;> simp
  · exact ⟨forwardMove_refl _, h, tvaDoneAtZero_refl g e⟩

/-- R126.2, R126.4, R126.5 of a tick. -/
theorem envTick_legal (c : Choice) (g : Gen) (i : EnvInputs) (e : EG) (h : legalLevel g e.level = true) :
    forwardMove e.stage (envTick c g i e).stage = true ∧ legalLevel g (envTick c g i e).level = true ∧
      tvaDoneAtZero g e (envTick c g i e) = true := by
  cases c with
  | reference => exact t0Tick_legal g e h
  | other n =>
    rcases orReference_cases (legalMove g e (Config.envTick n g i e)) (Config.envTick n g i e) (t0Tick g e) with
      ⟨hl, he⟩ | he
    · rw [show envTick (.other n) g i e = _ from he]
      exact (legalMove_iff.mp hl).1
    · rw [show envTick (.other n) g i e = _ from he]
      exact t0Tick_legal g e h

/-- R126.5: a tick ends a TVA it finds in RELEASE with a level at or below 0, and leaves none so. -/
theorem envTick_release (c : Choice) (g : Gen) (i : EnvInputs) (e : EG) :
    tvaReleaseEnds g e (envTick c g i e) = true ∧ tvaReleasePositive g (envTick c g i e) = true := by
  have href : tvaReleaseEnds g e (t0Tick g e) = true ∧ tvaReleasePositive g (t0Tick g e) = true := by
    unfold t0Tick tvaReleaseEnds tvaReleasePositive
    split
    · simp
    · next hr => simp [hr]
  cases c with
  | reference => exact href
  | other n =>
    rcases orReference_cases (legalMove g e (Config.envTick n g i e)) (Config.envTick n g i e) (t0Tick g e) with
      ⟨hl, he⟩ | he
    · rw [show envTick (.other n) g i e = _ from he]
      exact (legalMove_iff.mp hl).2
    · rw [show envTick (.other n) g i e = _ from he]
      exact href

/-- R126.3 -/
theorem envRelease_legal (c : Choice) (g : Gen) (i : EnvInputs) (e : EG) (h : legalLevel g e.level = true) :
    legalLevel g (envRelease c g i e).level = true ∧
      (e.stage = .release ∨ e.stage = .done → envRelease c g i e = e) ∧
      (e.stage ≠ .release → e.stage ≠ .done → (envRelease c g i e).stage = .release) := by
  unfold envRelease
  by_cases hs : e.stage = .release ∨ e.stage = .done
  · rw [if_pos hs]
    exact ⟨h, fun _ => rfl, fun h1 h2 => absurd hs (by simp [h1, h2])⟩
  · rw [if_neg hs]
    cases c with
    | reference => exact ⟨h, fun h' => absurd h' hs, fun _ _ => rfl⟩
    | other n =>
      dsimp only
      rcases orReference_cases (legalRelease g (Config.envRelease n g i e)) (Config.envRelease n g i e) (t0Release e) with
        ⟨hl, he⟩ | he
      · refine ⟨?_, fun h' => absurd h' hs, fun _ _ => ?_⟩
        · rw [he]
          simp only [legalRelease, Bool.and_eq_true] at hl; exact hl.2
        · rw [he]
          simp only [legalRelease, Bool.and_eq_true, beq_iff_eq] at hl; exact hl.1
      · refine ⟨?_, fun h' => absurd h' hs, fun _ _ => ?_⟩
        · rw [he]
          exact h
        · rw [he]
          rfl

/-! ### The generators of a voice -/

theorem initGenerators_eg (s : State) (v : Voice) (g : Gen) : ∃ i, (initGenerators s v).eg g = envInit s.params.env g i := by
  cases g <;> exact ⟨_, rfl⟩

theorem refreshGenerators_eg (s : State) (v : Voice) (g : Gen) :
    ∃ i, (refreshGenerators s v).eg g = envRefresh s.params.env g i (v.eg g) := by
  cases g <;> exact ⟨_, rfl⟩

theorem tickGenerators_eg (s : State) (v : Voice) (g : Gen) :
    ∃ i, (tickGenerators s v).eg g = envTick s.params.env g i (v.eg g) := by
  cases g <;> exact ⟨_, rfl⟩

theorem releaseGenerators_eg (s : State) (v : Voice) (g : Gen) :
    ∃ i, (releaseGenerators s v).eg g = envRelease s.params.env g i (v.eg g) := by
  cases g <;> exact ⟨_, rfl⟩

theorem refreshTvf_eg (s : State) (v : Voice) (g : Gen) : (refreshTvf s v).eg g = v.eg g := by
  obtain ⟨c, k, h⟩ := refreshTvf_fields s v
  rw [h]; cases g <;> rfl

/-- The generators after the refresh of a frame, where one is due (R128). -/
theorem refreshIfDue_eg (s : State) (v : Voice) (g : Gen) :
    (refreshIfDue s v).eg g = v.eg g ∨ ∃ i, (refreshIfDue s v).eg g = envRefresh s.params.env g i (v.eg g) := by
  unfold refreshIfDue
  extract_lets v1
  split
  · right
    unfold refreshVoice
    rw [refreshTvf_eg]
    obtain ⟨i, h⟩ := refreshGenerators_eg s (refreshTuning s v1) g
    exact ⟨i, h.trans (by cases g <;> rfl)⟩
  · left; cases g <;> rfl

theorem refreshIfDue_legal (s : State) (v : Voice) (g : Gen) (h : legalLevel g (v.eg g).level = true) :
    forwardMove (v.eg g).stage ((refreshIfDue s v).eg g).stage = true ∧
      legalLevel g ((refreshIfDue s v).eg g).level = true ∧ tvaDoneAtZero g (v.eg g) ((refreshIfDue s v).eg g) = true := by
  rcases refreshIfDue_eg s v g with he | ⟨i, he⟩
  · rw [he]; exact ⟨forwardMove_refl _, h, tvaDoneAtZero_refl g _⟩
  · rw [he]; exact envRefresh_legal _ g i _ h

theorem forwardMove_trans {a b c : Stage} (h : forwardMove a b = true) (k : forwardMove b c = true) :
    forwardMove a c = true := by
  cases a <;> cases b <;> cases c <;> revert h k <;> decide

end Sys2Proof.Machine
end

