-- ==== Sys2Proof/Laws/Numbers.lean ====
section
/-!
SUPPORT. The few facts about binary64 that the statements need: what a packed datum reads as, that a positive integer
converts to a positive number, and that a number below a converted integer has its integer part below it.
-/

namespace Sys2Proof

theorem R.mag_pack (neg : Bool) {m : Nat} (h : m < 0x8000000000000000) : (R.pack neg m).mag = m := by
  unfold R.mag R.pack
  cases neg <;> simp only [BitVec.toNat_ofNat, if_true, Bool.false_eq_true, if_false] <;> omega

theorem R.neg_pack (neg : Bool) {m : Nat} (h : m < 0x8000000000000000) : (R.pack neg m).neg? = neg := by
  unfold R.neg? R.pack
  cases neg
  · rw [Bool.eq_false_iff]
    intro hb
    simp only [Bool.false_eq_true, if_false, BitVec.toNat_ofNat, Nat.ble_eq] at hb
    omega
  · simp only [if_true, BitVec.toNat_ofNat, Nat.ble_eq]; omega

/-- A rounded magnitude is at most infinity's. -/
theorem roundBits_le (p : Nat) (emin : Int) (infBits m : Nat) (e : Int) : roundBits p emin infBits m e ≤ infBits := by
  unfold roundBits
  split
  · exact Nat.zero_le _
  · exact Nat.min_le_right _ _

/-- A positive integer of at most 53 bits does not round to zero. -/
theorem roundBits_pos {m : Nat} (hm : m ≠ 0) (hb : Nat.log2 m < 53) : 0 < roundBits 53 (-1074) infBits64 m 0 := by
  unfold roundBits
  rw [if_neg hm]
  extract_lets q mant
  have hq : q ≤ 0 := by
    show max (0 + Int.ofNat (Nat.log2 m + 1) - Int.ofNat 53) (-1074) ≤ 0
    simp only [Int.ofNat_eq_natCast]
    omega
  have hmant : 0 < mant := by
    show 0 < if q ≤ 0 then _ else _
    rw [if_pos hq, Nat.shiftLeft_eq]
    exact Nat.mul_pos (Nat.pos_of_ne_zero hm) (Nat.two_pow_pos _)
  have : 0 < infBits64 := by decide
  omega

/-- `toR(n + 1)` is above +0.0, for every `n` the spec converts. -/
theorem R.zero_lt_ofInt_succ {n : Nat} (h : n < 0x10000000000000) :
    R.lt R.zero (R.ofInt (Int.ofNat n + 1)) = true := by
  have hm : (Int.ofNat n + 1).natAbs = n + 1 := by simp only [Int.ofNat_eq_natCast]; omega
  have hn : decide (Int.ofNat n + 1 < 0) = false := by
    simp only [Int.ofNat_eq_natCast, decide_eq_false_iff_not]; omega
  have hlog : Nat.log2 (n + 1) < 53 := by
    rw [Nat.log2_lt (by omega)]; omega
  have hpos := roundBits_pos (m := n + 1) (by omega) hlog
  have hle := roundBits_le 53 (-1074) infBits64 (n + 1) 0
  have hinf : infBits64 = 0x7FF0000000000000 := rfl
  have hlt : roundBits 53 (-1074) infBits64 (n + 1) 0 < 0x8000000000000000 := by omega
  unfold R.ofInt R.ofDyadic
  rw [hm, hn]
  unfold R.lt R.isNaN R.key
  rw [R.mag_pack false hlt, R.neg_pack false hlt]
  have hz : R.zero.mag = 0 := rfl
  have hz2 : R.zero.neg? = false := rfl
  rw [hz, hz2]
  have h1 : Nat.blt infBits64 0 = false := rfl
  have h2 : Nat.blt infBits64 (roundBits 53 (-1074) infBits64 (n + 1) 0) = false := by
    rw [Bool.eq_false_iff]; intro hb; rw [Nat.blt_eq] at hb; omega
  rw [h1, h2]
  simpa using hpos

/-- The magnitude bits of `toR(n)` for a positive `n` of at most 53 bits: the exponent of its leading bit, and its bits
below that one. -/
theorem R.mag_ofInt {n : Nat} (hn : n ≠ 0) (hb : Nat.log2 n < 53) :
    (R.ofInt (Int.ofNat n)).mag = (Nat.log2 n + 1022) * 2 ^ 52 + n * 2 ^ (52 - Nat.log2 n) ∧
      (R.ofInt (Int.ofNat n)).neg? = false := by
  have hlt : n < 2 ^ (Nat.log2 n + 1) := (Nat.log2_lt hn).mp (Nat.lt_succ_self _)
  have hpow : 2 ^ (Nat.log2 n + 1) * 2 ^ (52 - Nat.log2 n) = 2 ^ 53 := by
    rw [← Nat.pow_add]; congr 1; omega
  have hm : n * 2 ^ (52 - Nat.log2 n) < 2 ^ 53 := hpow ▸ Nat.mul_lt_mul_of_pos_right hlt (Nat.two_pow_pos _)
  have hr : roundBits 53 (-1074) infBits64 n 0 = (Nat.log2 n + 1022) * 2 ^ 52 + n * 2 ^ (52 - Nat.log2 n) := by
    unfold roundBits
    rw [if_neg hn]
    have hq : max (0 + Int.ofNat (Nat.log2 n + 1) - Int.ofNat 53) (-1074) = (Nat.log2 n : Int) - 52 := by
      simp only [Int.ofNat_eq_natCast]; omega
    rw [hq]
    dsimp only
    rw [if_pos (by omega), Nat.shiftLeft_eq, show (0 - ((Nat.log2 n : Int) - 52)).toNat = 52 - Nat.log2 n by omega,
      show ((Nat.log2 n : Int) - 52 - -1074).toNat = Nat.log2 n + 1022 by omega]
    refine Nat.min_eq_left ?_
    have : infBits64 = 2047 * 2 ^ 52 := rfl
    show (Nat.log2 n + 1022) * 2 ^ 52 + n * 2 ^ (52 - Nat.log2 n) ≤ infBits64
    omega
  have hd : decide (Int.ofNat n < 0) = false := by simp
  unfold R.ofInt R.ofDyadic
  rw [hd, show (Int.ofNat n).natAbs = n from rfl, hr]
  have hs : (Nat.log2 n + 1022) * 2 ^ 52 + n * 2 ^ (52 - Nat.log2 n) < 0x8000000000000000 := by omega
  exact ⟨R.mag_pack false hs, R.neg_pack false hs⟩

/-- A non-negative number below `toR(n)` has an integer part below `n`. -/
theorem R.floor_lt_ofInt {x : R} {n : Nat} (hn : n ≠ 0) (hb : Nat.log2 n < 52) (h0 : R.le R.zero x = true)
    (h : R.lt x (R.ofInt (Int.ofNat n)) = true) : ∃ k : Nat, x.floor = Int.ofNat k ∧ k < n := by
  obtain ⟨hmag, hneg⟩ := R.mag_ofInt hn (by omega)
  have hself := Nat.log2_self_le hn
  have hpow : 2 ^ Nat.log2 n * 2 ^ (52 - Nat.log2 n) = 2 ^ 52 := by rw [← Nat.pow_add]; congr 1; omega
  have hlt : n < 2 ^ (Nat.log2 n + 1) := (Nat.log2_lt hn).mp (Nat.lt_succ_self _)
  have hpow' : 2 ^ (Nat.log2 n + 1) * 2 ^ (52 - Nat.log2 n) = 2 ^ 53 := by
    rw [← Nat.pow_add]; congr 1; omega
  have hm : n * 2 ^ (52 - Nat.log2 n) < 2 ^ 53 := hpow' ▸ Nat.mul_lt_mul_of_pos_right hlt (Nat.two_pow_pos _)
  simp only [R.le, R.lt, Bool.and_eq_true, Bool.not_eq_true', decide_eq_true_eq] at h0 h
  obtain ⟨⟨-, hnan⟩, hx0⟩ := h0
  have hx := h.2
  rw [show R.zero.key = 0 from rfl] at hx0
  unfold R.key at hx hx0
  rw [hneg, hmag] at hx
  simp only [Bool.false_eq_true, if_false, Int.ofNat_eq_natCast] at hx hx0
  cases hs : x.neg? with
  | true =>
    rw [hs] at hx0
    simp only [if_true] at hx0
    have hxm : x.mag = 0 := by omega
    refine ⟨0, ?_, Nat.pos_of_ne_zero hn⟩
    have hup (k : Nat) : (0 + (Nat.pow 2 k - 1)) >>> k = 0 := by
      rw [Nat.shiftRight_eq_div_pow]
      exact Nat.div_eq_of_lt (by have := Nat.two_pow_pos k; show 0 + (2 ^ k - 1) < 2 ^ k; omega)
    unfold R.floor R.unpack
    rw [hxm, hs]
    dsimp only
    rw [if_neg (by decide), if_neg (by decide), if_pos (by decide)]
    dsimp only
    rw [if_neg (by decide), if_pos rfl, Nat.zero_mod, hup]
    rfl
  | false =>
    rw [hs] at hx
    simp only [Bool.false_eq_true, if_false] at hx
    have hlt' : x.mag < (Nat.log2 n + 1022) * 2 ^ 52 + n * 2 ^ (52 - Nat.log2 n) := by omega
    have hinf : infBits64 = 2047 * 2 ^ 52 := rfl
    unfold R.floor R.unpack
    dsimp only
    rw [if_neg (by omega), if_neg (by omega), hs]
    by_cases hex : x.mag / 0x10000000000000 = 0
    · rw [if_pos hex]
      dsimp only
      rw [if_neg (by decide)]
      refine ⟨(x.mag % 0x10000000000000) >>> (- -1074 : Int).toNat, rfl, ?_⟩
      rw [Nat.shiftRight_eq_div_pow, Nat.div_eq_of_lt]
      · omega
      · exact Nat.lt_of_lt_of_le (Nat.mod_lt _ (by decide)) (by decide +kernel)
    · rw [if_neg hex]
      dsimp only
      have he : x.mag / 0x10000000000000 ≤ Nat.log2 n + 1023 := by omega
      rw [if_neg (by simp only [Int.ofNat_eq_natCast]; omega)]
      simp only [Bool.false_eq_true, if_false]
      refine ⟨_, rfl, ?_⟩
      generalize hk : (-(Int.ofNat (x.mag / 0x10000000000000) - 1075)).toNat = k
      have hk' : k = 1075 - x.mag / 0x10000000000000 := by
        rw [← hk]; simp only [Int.ofNat_eq_natCast]; omega
      rw [Nat.shiftRight_eq_div_pow, Nat.div_lt_iff_lt_mul (Nat.two_pow_pos _)]
      by_cases heq : x.mag / 0x10000000000000 = Nat.log2 n + 1023
      · rw [hk', heq, show 1075 - (Nat.log2 n + 1023) = 52 - Nat.log2 n by omega]
        omega
      · have : 2 ^ (53 - Nat.log2 n) ≤ 2 ^ k := Nat.pow_le_pow_right (by decide) (by omega)
        have h2 : 2 ^ Nat.log2 n * 2 ^ (53 - Nat.log2 n) = 2 ^ 53 := by rw [← Nat.pow_add]; congr 1; omega
        have h3 : 2 ^ Nat.log2 n * 2 ^ (53 - Nat.log2 n) ≤ n * 2 ^ k := Nat.mul_le_mul hself this
        omega
end Sys2Proof
end

