-- ==== Sys2Proof/Laws/PerInstr.lean ====
section
/-!
SUPPORT. The family of statements about every command: the opcode field of its word is its row of the opcode map
(30_encoding.md R69, R71), whatever its operands.
-/

namespace Sys2Proof.Laws.OpcodeField

/-- The opcode field of the command's word is the command's opcode, an assigned one. -/
def Statement (i : Instr) : Prop :=
  opField (encode i) = i.opcode ∧
    i.opcode ∈ [0x00, 0x01, 0x02, 0x03, 0x10, 0x11, 0x12, 0x20, 0x21, 0x22, 0x30, 0x31, 0x32, 0x33, 0x34, 0x35, 0x40]

/-- The operands above the opcode field do not reach into it. -/
theorem opField_packWord {op : Nat} (h : op < 256) (a b data : Nat) : opField (packWord op a b data) = op := by
  unfold opField packWord
  rw [BitVec.toNat_ofNat]
  omega

theorem nop : Statement .nop :=
  ⟨opField_packWord (op := 0x00) (by decide) _ _ _, by decide⟩

theorem reset : Statement .reset :=
  ⟨opField_packWord (op := 0x01) (by decide) _ _ _, by decide⟩

theorem setfmt (w x : Nat) : Statement (.setfmt w x) :=
  ⟨opField_packWord (op := 0x02) (by decide) _ _ _, by simp [Instr.opcode]⟩

theorem setinterp (w : Nat) : Statement (.setinterp w) :=
  ⟨opField_packWord (op := 0x03) (by decide) _ _ _, by simp [Instr.opcode]⟩

theorem sysparam (w x : Nat) : Statement (.sysparam w x) :=
  ⟨opField_packWord (op := 0x10) (by decide) _ _ _, by simp [Instr.opcode]⟩

theorem partparam (w x y : Nat) : Statement (.partparam w x y) :=
  ⟨opField_packWord (op := 0x11) (by decide) _ _ _, by simp [Instr.opcode]⟩

theorem drumparam (w x y z : Nat) : Statement (.drumparam w x y z) :=
  ⟨opField_packWord (op := 0x12) (by decide) _ _ _, by simp [Instr.opcode]⟩

theorem sdtWr (w x y : Nat) : Statement (.sdtWr w x y) :=
  ⟨opField_packWord (op := 0x20) (by decide) _ _ _, by simp [Instr.opcode]⟩

theorem pdtWr (w x y : Nat) : Statement (.pdtWr w x y) :=
  ⟨opField_packWord (op := 0x21) (by decide) _ _ _, by simp [Instr.opcode]⟩

theorem decode (w : Nat) : Statement (.decode w) :=
  ⟨opField_packWord (op := 0x22) (by decide) _ _ _, by simp [Instr.opcode]⟩

theorem vsetup (w x y : Nat) : Statement (.vsetup w x y) :=
  ⟨opField_packWord (op := 0x30) (by decide) _ _ _, by simp [Instr.opcode]⟩

theorem vstart (w x : Nat) : Statement (.vstart w x) :=
  ⟨opField_packWord (op := 0x31) (by decide) _ _ _, by simp [Instr.opcode]⟩

theorem vnoteoff (w : Nat) : Statement (.vnoteoff w) :=
  ⟨opField_packWord (op := 0x32) (by decide) _ _ _, by simp [Instr.opcode]⟩

theorem vkill (w : Nat) : Statement (.vkill w) :=
  ⟨opField_packWord (op := 0x33) (by decide) _ _ _, by simp [Instr.opcode]⟩

theorem rdvoice (w : Nat) : Statement (.rdvoice w) :=
  ⟨opField_packWord (op := 0x34) (by decide) _ _ _, by simp [Instr.opcode]⟩

theorem rdfault : Statement .rdfault :=
  ⟨opField_packWord (op := 0x35) (by decide) _ _ _, by decide⟩

theorem frame : Statement .frame :=
  ⟨opField_packWord (op := 0x40) (by decide) _ _ _, by decide⟩

end Sys2Proof.Laws.OpcodeField
end

