-- ==== Sys2Proof/Tests/Slice0.lean ====
section
/-!
SUPPORT. Tests: the checks of WellFormed.lean, the decoding of words written out from 30_encoding.md, one or two single
steps per command with results taken from 95_test_vectors.md (the vector is named at each), and for every statement with
hypotheses a witness that meets them.
-/

namespace Sys2Proof.Tests

open Sys2Proof Sys2Proof.Machine

set_option Elab.async false

/-! ### Setups of 95_test_vectors.md section 0 -/

/-- ROM0 -/
def rom0 : List Host.Cell := [(0x8, 0x36#8), (0x100, 0x40#8), (0x101, 0x7F#8), (0x102, 0x80#8), (0x103, 0x20#8)]

/-- Setup H -/
def setupH : State := State.resetOf vectorParams rom0

/-- Descriptor fields, all written. -/
def fields (l : List (Nat × Nat)) : Table Field := l.map fun e => (e.1, { written := true, data := e.2 })

/-- Sample 0 of setup L, with the given address, loopLen and loopMode. -/
def sample (address loopLen loopMode : Nat) : Table Field :=
  fields [(0, address), (1, 3), (2, loopLen), (3, loopMode), (4, 60), (5, 1024), (6, 127), (7, 1024)]

/-- Partial 0 of setup L, with the given breaks and first sample. -/
def partialOf (brk first : Nat) : Table Field :=
  fields ([(0, 0x40), (1, 0x40), (2, 0x4A), (3, 127)] ++ (List.range 16).map (fun j => (0x10 + j, brk)) ++
    [(0x20, first)] ++ (List.range 15).map (fun j => (0x21 + j, 0xFFFF)))

/-- The decoded bank of vector DV3. -/
def bank0 : Bank where
  decoded := true
  data := [R.ofRat 8913320489227772 1000000000000000000, R.ofRat 30932636931538582 1000000000000000000,
    R.ofRat 23588882759213448 1000000000000000000, R.ofRat 23777363821864128 1000000000000000000].map R.toF32

/-- Setup L without PDT and DECODE, with the given sample. -/
def withSample (sdt : Table Field) : State := { setupH with sdt := sdt }

/-- Setup L -/
def setupL : State := { setupH with sdt := sample 0x100 1 0, pdt := partialOf 0x7F 0, bank := [(0, bank0)] }

/-- Setup A: voice 0 plays. -/
def setupA : State := setupL.setVoice 0 (startVoice setupL 0 0 0)

/-- Setup A with the given change to voice 0. -/
def withVoice (f : Voice → Voice) : State := setupA.setVoice 0 (f (setupA.voice 0))

/-- Setup L with a drum setup and a drum whose key 60 receives no note-off (vector CV70), playing. -/
def setupDrumA : State :=
  let s := { setupL with vs := [(3, 1)], drum := [(regKey 60 1, 0)] }
  s.setVoice 0 (startVoice s 0 0 0)

/-- The state of program P1 at its first FRAME: one-shot, nearest, hard left, 32 kHz, Volume 127. -/
def setupP1 : State :=
  let s := { setupL with sdt := sample 0x100 0 2, fs := 32000, interp := 0, part := [(0x10, 127)], vs := [(5, 0)] }
  s.setVoice 0 (startVoice s 0 0 0)

/-- The property holds of the next state. -/
def holds (o : Host.Outcome State Fault Refusal) (p : State → Bool) : Bool :=
  match o with
  | .next t => p t
  | .fault _ => false
  | .refused _ => false

/-- The property holds after one step whose word is `w`. -/
def after (s : State) (w : Nat) (p : State → Bool) : Bool := holds (step (s.withFetchWord 64 w)) p

/-- After one step on `w` the state is `s` with the command fault `c`. -/
def faultsWith (s : State) (w : Nat) (c : Cause) : Bool := after s w fun t => t == raise c (BitVec.ofNat 64 w) s

/-! ### WellFormed: an ill-formed command for each check -/

theorem test_wf_setfmt_fs : (Instr.setfmt 0x100000000 2).wellFormed = false := by decide
theorem test_wf_setfmt_channels : (Instr.setfmt 32000 256).wellFormed = false := by decide
theorem test_wf_setinterp_mode : (Instr.setinterp 0x100000000).wellFormed = false := by decide
theorem test_wf_sysparam_id : (Instr.sysparam 256 0).wellFormed = false := by decide
theorem test_wf_sysparam_value : (Instr.sysparam 0 0x100000000).wellFormed = false := by decide
theorem test_wf_partparam_part : (Instr.partparam 0x10000 0 0).wellFormed = false := by decide
theorem test_wf_partparam_id : (Instr.partparam 0 256 0).wellFormed = false := by decide
theorem test_wf_partparam_value : (Instr.partparam 0 0 0x100000000).wellFormed = false := by decide
theorem test_wf_drumparam_map : (Instr.drumparam 2 0 0 0).wellFormed = false := by decide
theorem test_wf_drumparam_key : (Instr.drumparam 0 128 0 0).wellFormed = false := by decide
theorem test_wf_drumparam_field : (Instr.drumparam 0 0 256 0).wellFormed = false := by decide
theorem test_wf_drumparam_value : (Instr.drumparam 0 0 0 0x100000000).wellFormed = false := by decide
theorem test_wf_sdtWr_s : (Instr.sdtWr 0x10000 0 0).wellFormed = false := by decide
theorem test_wf_sdtWr_field : (Instr.sdtWr 0 256 0).wellFormed = false := by decide
theorem test_wf_sdtWr_value : (Instr.sdtWr 0 0 0x100000000).wellFormed = false := by decide
theorem test_wf_pdtWr_q : (Instr.pdtWr 0x10000 0 0).wellFormed = false := by decide
theorem test_wf_pdtWr_field : (Instr.pdtWr 0 256 0).wellFormed = false := by decide
theorem test_wf_pdtWr_value : (Instr.pdtWr 0 0 0x100000000).wellFormed = false := by decide
theorem test_wf_decode : (Instr.decode 0x10000).wellFormed = false := by decide
theorem test_wf_vsetup_v : (Instr.vsetup 0x10000 0 0).wellFormed = false := by decide
theorem test_wf_vsetup_field : (Instr.vsetup 0 256 0).wellFormed = false := by decide
theorem test_wf_vsetup_value : (Instr.vsetup 0 0 0x100000000).wellFormed = false := by decide
theorem test_wf_vstart_v : (Instr.vstart 0x10000 0).wellFormed = false := by decide
theorem test_wf_vstart_q : (Instr.vstart 0 0x100000000).wellFormed = false := by decide
theorem test_wf_vnoteoff : (Instr.vnoteoff 0x10000).wellFormed = false := by decide
theorem test_wf_vkill : (Instr.vkill 0x10000).wellFormed = false := by decide
theorem test_wf_rdvoice : (Instr.rdvoice 0x10000).wellFormed = false := by decide

/-! ### Decoding words written out from 30_encoding.md R68, R71: data | b | a | op -/

theorem test_decode_nop : decodeTableWord 64 0x0000000000000000 = some .nop := by decide
theorem test_decode_reset : decodeTableWord 64 0x0000000000000001 = some .reset := by decide
theorem test_decode_setfmt : decodeTableWord 64 0x00007D0000000202 = some (.setfmt 32000 2) := by decide
theorem test_decode_setinterp : decodeTableWord 64 0x0000000100000003 = some (.setinterp 1) := by decide
theorem test_decode_sysparam : decodeTableWord 64 0x0000044F00000110 = some (.sysparam 1 0x44F) := by decide
theorem test_decode_partparam : decodeTableWord 64 0x00003FFF000F2111 = some (.partparam 15 0x21 16383) := by decide
theorem test_decode_drumparam : decodeTableWord 64 0x0000000000B10112 = some (.drumparam 1 49 1 0) := by decide
theorem test_decode_sdtWr : decodeTableWord 64 0x0000010000030520 = some (.sdtWr 3 5 0x100) := by decide
theorem test_decode_pdtWr : decodeTableWord 64 0x0000FFFF00022121 = some (.pdtWr 2 0x21 0xFFFF) := by decide
theorem test_decode_decode : decodeTableWord 64 0x00000000ABCD0022 = some (.decode 0xABCD) := by decide
theorem test_decode_vsetup : decodeTableWord 64 0x0000007F00170530 = some (.vsetup 23 5 127) := by decide
theorem test_decode_vstart : decodeTableWord 64 0x0000000300010031 = some (.vstart 1 3) := by decide
theorem test_decode_vnoteoff : decodeTableWord 64 0x0000000000020032 = some (.vnoteoff 2) := by decide
theorem test_decode_vkill : decodeTableWord 64 0x0000000000040033 = some (.vkill 4) := by decide
theorem test_decode_rdvoice : decodeTableWord 64 0x0000000000050034 = some (.rdvoice 5) := by decide
theorem test_decode_rdfault : decodeTableWord 64 0x0000000000000035 = some .rdfault := by decide
theorem test_decode_frame : decodeTableWord 64 0x0000000000000040 = some .frame := by decide
/-- R53: the least significant byte comes first. -/
theorem test_decode_bytes : decodeBytes [0x11, 0x21, 0, 0, 0xFF, 0x3F, 0, 0, 0xAA] = some (.partparam 0 0x21 0x3FFF, [0xAA]) := by
  decide
theorem test_decode_short : decodeBytes [0x40, 0, 0, 0, 0, 0, 0] = none := by decide
theorem test_decode_illegal : decode 0x7F = .error .opcode := by decide
theorem test_decode_reserved : decode 0x140 = .error .reserved := by decide

/-! ### One step of each command -/

/-- CV1, CV2 -/
theorem test_nop : after setupH 0 (fun t => t == { setupH with cp := 1 }) ∧ faultsWith setupH 0x100000000 .rsvd := by
  decide +kernel
/-- CV33: PitchBend back at 8192 and PBF at 1.0. -/
theorem test_reset :
    after (({ setupH with part := [(0x21, 0), (0x50, 0x4C)] } : State).setPbf 0 (R.ofRat 1 2)) 1
      (fun t => t.partReg 0 0x21 == 8192 && t.pbfOf 0 == R.one && t.fault == 0) := by decide +kernel
/-- R94: the voice is stopped, its key 0; the tables stay. -/
theorem test_reset_voice : after setupA 1 (fun t =>
    !(t.voice 0).active && (t.voice 0).key == 0 && (t.voice 0).egTva.stage == .done && t.sdtLoaded 0 &&
      (t.bankOf 0).decoded) := by decide +kernel
/-- CV5 to CV9 -/
theorem test_setfmt : after setupH 0x00007D0000000202 (fun t => t == { setupH with fs := 32000, cp := 1 }) ∧
    faultsWith setupH 0x00007D0000000102 .value ∧ faultsWith setupH 0x0000007F00000202 .value ∧
    after setupH 0x0000008000000202 (fun t => t.fs == 128) ∧ faultsWith setupH 0x00007D0000010202 .rsvd := by
  decide +kernel
/-- CV10 -/
theorem test_setfmt_busy : faultsWith setupA 0x0000BB8000000202 .busy := by decide +kernel
/-- CV11, CV12 -/
theorem test_setinterp : after setupH 0x0000000100000003 (fun t => t.interp == 1) ∧
    faultsWith setupH 0x0000000300000003 .value := by decide +kernel
/-- CV13 to CV16 -/
theorem test_sysparam : after setupH 0x0000044F00000010 (fun t => t.sysReg 0 == 0x44F) ∧
    faultsWith setupH 0x0000000000000410 .index ∧ faultsWith setupH 0x0000008000000110 .value ∧
    faultsWith setupH 0x0000006400010110 .rsvd := by decide +kernel
/-- CV18, CV19: PitchBend 0 and 16383 at 12 semitones. -/
theorem test_partparam_bend :
    after { setupH with part := [(0x50, 0x4C)] } 0x0000000000002111 (fun t => t.pbfOf 0 == R.ofRat 1 2) ∧
    after { setupH with part := [(0x50, 0x4C)] } 0x00003FFF00002111
      (fun t => t.pbfOf 0 == R.ofRat 19998307817732268 10000000000000000) := by decide +kernel
/-- CV26, CV28, CV21 to CV24 -/
theorem test_partparam :
    after { setupH with part := [(0x61, 0x30)] } 0x0000006400002211 (fun t => t.matrixEntry 0 1 2 == -1600) ∧
    after setupH 0x0000004A00004411 (fun t => t.matrixEntry 0 4 0 == 0 && t.partReg 0 0x44 == 0x4A) ∧
    faultsWith setupH 0x0000000100101011 .index ∧ faultsWith setupH 0x0000000100001B11 .index ∧
    faultsWith setupH 0x0000000100004B11 .index ∧ faultsWith setupH 0x0000400000002111 .value := by decide +kernel
/-- CV29 to CV32 -/
theorem test_drumparam : after setupH 0x0000000000B10112 (fun t => t.drumReg 1 49 1 == 0 && t.drumReg 0 49 1 == 1) ∧
    faultsWith setupH 0x0000000200310112 .value ∧ faultsWith setupH 0x0000000000310212 .index ∧
    faultsWith setupH 0x0000000001000012 .rsvd := by decide +kernel
/-- CV34 to CV38 -/
theorem test_sdtWr : after setupH 0x0000000200000320 (fun t => t.sdtData 0 3 == 2) ∧
    faultsWith setupH 0x0000000300000320 .value ∧ faultsWith setupH 0x0000000000040020 .index ∧
    faultsWith setupH 0x0000000000000820 .index ∧ faultsWith setupH 0x0100000000000020 .value := by decide +kernel
/-- CV39 -/
theorem test_sdtWr_decoded : after setupL 0x0000006400000620
    (fun t => !(t.bankOf 0).decoded && (t.bankOf 0).data.length == 4) := by decide +kernel
/-- CV40 to CV43 -/
theorem test_pdtWr : after setupH 0x0000FFFF00002021 (fun t => t.pdtData 0 0x20 == 0xFFFF) ∧
    faultsWith setupH 0x0000000000000421 .index ∧ faultsWith setupH 0x0000000000004021 .index ∧
    faultsWith setupH 0x0000008000000321 .value := by decide +kernel
/-- CV48: the bank of vector DV3. -/
theorem test_decode : after (withSample (sample 0x100 1 0)) 0x22 (fun t => t.bankOf 0 == bank0) := by decide +kernel
/-- CV49 to CV53, CV55, CV56 -/
theorem test_decode_faults : faultsWith setupH 0x22 .unloaded ∧ faultsWith setupH 0x0000000000040022 .index ∧
    faultsWith setupH 0x0000000100000022 .rsvd ∧ faultsWith (withSample (sample 0x312345 1 0)) 0x22 .bankSel ∧
    faultsWith (withSample (sample 0x800100 1 0)) 0x22 .bankSel ∧
    faultsWith (withSample (sample 0x0FFFFD 1 0)) 0x22 .romRange ∧ faultsWith setupA 0x22 .busy := by decide +kernel
/-- CV44 to CV47 -/
theorem test_vsetup : after setupH 0x0000007F00000530 (fun t => t.vsReg 0 5 == 127) ∧
    faultsWith setupH 0x0000001000000030 .value ∧ faultsWith setupH 0x0000000400000330 .value ∧
    faultsWith setupH 0x0000003C00040130 .index := by decide +kernel
/-- CV57 -/
theorem test_vstart : after setupL 0x31 (fun t => (t.voice 0).active &&
    (t.voice 0).staticPitch == R.ofRat 7256235827664399 10000000000000000) := by decide +kernel
/-- CV58 to CV66 -/
theorem test_vstart_faults : faultsWith setupL 0x131 .rsvd ∧ faultsWith setupL 0x0000000000040031 .index ∧
    faultsWith setupL 0x0000000400000031 .index ∧ faultsWith { setupL with pdt := [] } 0x31 .unloaded ∧
    faultsWith { setupL with pdt := partialOf 0x7F 0xFFFF } 0x31 .noSample ∧
    faultsWith { setupL with pdt := partialOf 0x7F 9 } 0x31 .index ∧ faultsWith { setupL with bank := [] } 0x31 .unloaded ∧
    faultsWith { setupL with sdt := sample 0x100 4 0 } 0x31 .loopGeom ∧
    faultsWith { setupL with pdt := partialOf 10 0 } 0x31 .noSample := by decide +kernel
/-- CV68, CV69 -/
theorem test_vnoteoff : after setupA 0x32 (fun t => (t.voice 0).releasing && (t.voice 0).egTva.stage == .release) ∧
    after setupH 0x32 (fun t => !(t.voice 0).releasing) := by decide +kernel
/-- CV70 -/
theorem test_vnoteoff_drum : after setupDrumA 0x32
    (fun t => !(t.voice 0).releasing && (t.voice 0).egTva.stage == .sustain) := by decide +kernel
/-- CV72, CV73 -/
theorem test_vkill : after setupA 0x33 (fun t => !(t.voice 0).active && (t.voice 0).key == 60) ∧
    faultsWith setupH 0x0000000000040033 .index := by decide +kernel
/-- CV74 to CV76 -/
theorem test_rdvoice : after setupH 0x34 (fun t => t.resp == [0x00000000000000A0]) ∧
    after setupA 0x34 (fun t => t.resp == [0x3F800000003C0061]) ∧ faultsWith setupH 0x0000000000040034 .index := by
  decide +kernel
/-- CV80, FV3 -/
theorem test_rdfault : after setupH 0x35 (fun t => t.resp == [0x0000FF0000000000, 0]) ∧
    after (raise .opcode 0x7F#64 setupH) 0x35 (fun t => t.resp == [0x0000FF0100000001, 0x7F]) := by decide +kernel
/-- CV77 to CV79 -/
theorem test_frame : after setupH 0x40 (fun t => t.out == [(0, 0)] && t.cp == 1) ∧ faultsWith setupH 0x140 .rsvd ∧
    after setupA 0x40 (fun t => t.out == [(22, 23)]) := by decide +kernel
/-- P1, frame 1 -/
theorem test_frame_p1 : after setupP1 0x40 (fun t => t.out == [(148, 0)] && (t.voice 0).phase == R.one) := by
  decide +kernel

/-! ### The streams, the numbers and the assembler -/

/-- MV4 -/
theorem test_outBytes : ({ setupH with out := [(148, 0), (BitVec.ofInt 16 (-16383), 16383)] } : State).outBytes =
    [0x94, 0, 0, 0, 0x01, 0xC0, 0xFF, 0x3F] := by decide
/-- R54: Settings bytes assembled most significant first. -/
theorem test_settings : nibble32 0 4 0 0 = 0x400 ∧ midi14 0x40 0 = 8192 ∧ uint16BE 0x12 0x34 = 0x1234 := by decide
/-- R76: symbolic operands. -/
theorem test_assemble : assembleLine 0 "PARTPARAM 0, PitchBend, 16383".toList = some [.partparam 0 0x21 16383] ∧
    assembleLine 0 "DRUMPARAM 1, 49, RxNoteOff, 0".toList = some [.drumparam 1 49 1 0] := by decide +kernel

/-! ### Witnesses: states and operands that meet the hypotheses of a statement, each clause at the edge of its range -/

/-- Every command with its operands at the greatest values of their fields. -/
theorem test_meets_DecodeOfEncode : [Instr.nop, .reset, .setfmt 0xFFFFFFFF 255, .setinterp 0xFFFFFFFF,
    .sysparam 255 0xFFFFFFFF, .partparam 65535 255 0xFFFFFFFF, .drumparam 1 127 255 0xFFFFFFFF,
    .sdtWr 65535 255 0xFFFFFFFF, .pdtWr 65535 255 0xFFFFFFFF, .decode 65535, .vsetup 65535 255 0xFFFFFFFF,
    .vstart 65535 0xFFFFFFFF, .vnoteoff 65535, .vkill 65535, .rdvoice 65535, .rdfault, .frame].all
      Instr.wellFormed = true := by decide
theorem test_meets_OneEncoding : decode 0x00003FFF00002111#64 = .ok (.partparam 0 0x21 16383) := by decide
/-- One word for each clause: an unassigned opcode, and a reserved field of each group of commands. -/
theorem test_meets_IllegalWords :
    opField 0x04#64 = 0x04 ∧ opField 0xFF#64 = 0xFF ∧
    (opField 0x100#64 = 0x00 ∧ aField 0x100#64 = 1) ∧ (opField 0x0000000100000040#64 = 0x40) ∧
    (opField 0x00010002#64 = 0x02 ∧ bField 0x00010002#64 ≠ 0) ∧ (opField 0xFFFF0010#64 = 0x10) ∧
    (opField 0x0103#64 = 0x03 ∧ aField 0x0103#64 ≠ 0) ∧ (opField 0x01000012#64 = 0x12 ∧ bField 0x01000012#64 = 256) ∧
    (opField 0x0122#64 = 0x22 ∧ aField 0x0122#64 ≠ 0) ∧ (opField 0xFF31#64 = 0x31 ∧ aField 0xFF31#64 = 255) := by
  decide
theorem test_meets_ByteStreams : (7 : Nat) < 8 ∧ (bytesOfWord 0x4000000000000001#64)[7]? = some 0x40 := by decide
theorem test_meets_ProgramRuns :
    holds (runWords [0x00007D0000000202#64, 0x7F#64] { setupH with port := [] }) (fun t => t.cp == 2 && t.fault == 1) := by
  decide +kernel
theorem test_meets_ProgramRuns_merge :
    Merge [0x00#64, 0x01#64] [0x40#64] [0x00#64, 0x40#64, 0x01#64] := .left _ (.right _ (.left _ .nil))
/-- A command, an unassigned opcode, a reserved field, and an empty port. -/
theorem test_meets_StepRunsDecoded :
    ({ setupH with port := [0x40#64, 0x7F#64] } : State).port = [0x40#64, 0x7F#64] ∧ decode 0x40#64 = .ok .frame ∧
    decode 0x7F#64 = .error .opcode ∧ decode 0x140#64 = .error .reserved ∧ setupH.port = [] := by decide
theorem test_meets_PortAndRomUntouched : holds (execWord 0x40#64 setupA) (fun t => t.rom == rom0) := by decide +kernel
/-- A word of each clause: FRAME, RDFAULT, RDVOICE of the last slot, RDVOICE of no slot. -/
theorem test_meets_StreamsOnlyGrow : (0x40#64 = encode .frame) ∧ 0x35#64 = encode .rdfault ∧
    (bField 0x00030034#64 < setupH.params.nv ∧ 0x00030034#64 = encode (.rdvoice (bField 0x00030034#64))) ∧
    ¬ bField 0x00040034#64 < setupH.params.nv := by decide
theorem test_meets_FaultOrNoRecord : Instr.vstart 0 0 ≠ .frame ∧ Instr.vstart 0 0 ≠ .reset := by decide
theorem test_meets_FaultRecording : setupH.fault = 0 ∧ (raise .opcode 0x7F#64 setupH).fault ≠ 0 := by decide
theorem test_meets_ResetValues : (0x1A ≤ 0x1A ∧ 0x1A ∉ [0x02, 0x03, 0x10, 0x11]) ∧ 0x25 ∈ [0x20, 0x22, 0x23, 0x24, 0x25] ∧
    (5 ≤ 5 ∧ 10 ≤ 10) ∧ (1 < 2 ∧ 127 < 128) ∧ 239 < 240 := by decide
theorem test_meets_NopCompletes : opField 0xFF00#64 = 0x00 ∧ 0xFF00#64 ≠ 0x00#64 := by decide
theorem test_meets_ResetCommand_reserved : opField 0x8000000000000001#64 = 0x01 ∧
    0x8000000000000001#64 ≠ 0x01#64 := by decide
theorem test_meets_ResetCommand : 15 < setupA.params.nPart ∧ 127 < 128 ∧ 255 < 256 ∧ 3 < setupA.params.nv ∧ 10 < 11 ∧
    5 < 6 := by decide +kernel
/-- The three outcomes of SETFMT: 127 and 128 are on either side of the bound. -/
theorem test_meets_SetfmtCompletes : 127 < 128 ∧ (1 : Nat) ≠ 2 ∧ (3 < setupA.params.nv + 1 ∧ (setupA.voice 0).active = true) ∧
    (∀ v, v < setupH.params.nv → (setupH.voice v).active = false) := by decide +kernel
theorem test_meets_SetinterpCompletes : 2 < 3 ∧ 2 ≤ 2 := by decide
theorem test_meets_SysparamCompletes : 3 < 4 ∧ (3 ≤ 3 ∧ 127 < 128 ∧ 127 ≤ 127) ∧ (0xFFFF : Nat) < 0x10000 := by decide
theorem test_meets_PartparamCompletes : setupH.params.nPart ≤ 16 ∧ (15 < setupH.params.nPart ∧ partMax 0x1B = none) ∧
    partMax 0x21 = some 16383 ∧ 16383 < 16384 ∧ partMax 0x50 = some 127 := by decide
theorem test_meets_PartRegisterColumns : 0x1A ≤ 0x1A ∧ (0x20 ≤ 0x25 ∧ 0x25 ≤ 0x25) ∧ (0x1B ≤ 0x1F ∧ 0x1F ≤ 0x1F) ∧
    (0x26 ≤ 0x3F ∧ 0x3F ≤ 0x3F) ∧ 0xA0 ≤ 0xA0 ∧ (11 ≤ 15 ∧ 15 ≤ 15 ∧ 5 ≤ 5) := by decide
theorem test_meets_DrumparamCompletes : (1 < 2 ∧ 127 < 128) ∧ 1 < 2 ∧ (1 ≤ 1 ∧ 1 < 2 ∧ 1 ≤ 1) ∧ 127 ≤ 127 := by decide
theorem test_meets_SdtWrCompletes : setupH.params.ns ≤ 4 ∧ 7 < 8 ∧ (3 < setupH.params.ns ∧ 7 ≤ 7 ∧ 0xFFFF < 0x10000) ∧
    0xFFFFFF ≤ 0xFFFFFF := by decide
/-- With and without TV bytes: id 0x40 is assigned only where `NTV` is not 0. -/
theorem test_meets_PdtWrCompletes : setupH.params.ntv ≤ 192 ∧ setupH.params.np ≤ 4 ∧
    ¬ (0x40 ≤ 0x40 ∧ 0x40 < 0x40 + setupH.params.ntv) ∧ (0x10 ≤ 0x2F ∧ 0x2F ≤ 0x2F) ∧ 3 < setupH.params.np ∧
    ({ vectorParams with ntv := 192 } : Params).ntv ≤ 192 := by decide
theorem test_meets_VsetupCompletes : setupH.params.nit ≤ 240 ∧ setupH.params.nv ≤ 4 ∧ 3 < setupH.params.nv ∧
    ¬ (0x10 ≤ 0x10 ∧ 0x10 < 0x10 + setupH.params.nit) ∧ setupH.params.nPart - 1 = 15 := by decide
theorem test_meets_ControllerMatrix : 10 < 11 ∧ 5 < 6 ∧ setupH.params.srcVal = .reference ∧
    setupH.params.mTab = .reference ∧ (1 : Nat) ≠ 0 ∧
    (let m := setupH.matrixEntry 0 0; (m 0 + m 1 + m 2 + m 3 + m 4 + m 5).natAbs < 2 ^ 31) := by decide
theorem test_meets_NeutralBend : 127 ≤ 127 ∧ 16383 ≤ 16383 := by decide
theorem test_meets_DecodeExamples : 15 < 16 ∧ vectorParams.riaaMap = .reference := by decide
theorem test_meets_BankMap : 0xFFFFFF < 0x1000000 ∧ bankBase 0xFFFFFF = none ∧ bankBase 0x4FFFFF = some 0x2FFFFF := by
  decide
/-- A state for each check of DECODE. -/
theorem test_meets_DecodeFaults : setupH.params.ns ≤ 4 ∧ (0 < setupH.params.ns ∧ setupH.sdtLoaded 0 = false) ∧
    (setupA.sdtLoaded 0 = true ∧ (setupA.voice 0).active = true ∧ (setupA.voice 0).s = 0 ∧ 0 < setupA.params.nv) ∧
    (∀ v, v < setupL.params.nv → (setupL.voice v).active = false) ∧
    bankBase ((withSample (sample 0x312345 1 0)).sdtData 0 0) = none ∧
    (bankBase ((withSample (sample 0x0FFFFD 1 0)).sdtData 0 0) = some 0x0FFFFD ∧
      setupL.params.romSize ≤ 0x0FFFFD + 3) := by decide +kernel
/-- The sample ends at the last byte of the ROM. -/
theorem test_meets_DecodeCompletes : let s := withSample (sample 0x0FFFFC 1 0)
    0 < s.params.ns ∧ s.sdtLoaded 0 = true ∧ (∀ v, v < s.params.nv → (s.voice v).active = false) ∧
    bankBase (s.sdtData 0 0) = some 0x0FFFFC ∧ 0x0FFFFC + s.sdtData 0 1 < s.params.romSize ∧ 3 ≤ s.sdtData 0 1 := by
  decide +kernel
/-- No hit; a hit at 0 that is absent, one out of the table, and one that is found. -/
theorem test_meets_SampleResolution :
    (∀ j, j < 16 → ¬ ((60 : Int) ≤ Int.ofNat (({ setupL with pdt := partialOf 10 0 } : State).pdtData 0 (0x10 + j)) ∨
      ({ setupL with pdt := partialOf 10 0 } : State).pdtData 0 (0x10 + j) = 0x7F)) ∧
    setupL.pdtData 0 0x10 = 0x7F ∧ setupL.pdtData 0 0x20 < setupL.params.ns ∧
    ({ setupL with pdt := partialOf 0x7F 0xFFFF } : State).pdtData 0 0x20 = 0xFFFF ∧
    setupL.params.ns ≤ ({ setupL with pdt := partialOf 0x7F 4 } : State).pdtData 0 0x20 := by decide +kernel
theorem test_meets_KeyShift : setupL.vsReg 0 3 % 2 = 0 ∧ setupDrumA.vsReg 0 3 % 2 = 1 ∧ setupDrumA.params.gen = .sc55 ∧
    ({ vectorParams with gen := .sc55mk2 } : Params).gen ≠ .sc55 := by decide +kernel
theorem test_meets_VstartFaults : setupL.params.nv ≤ 4 ∧ (3 < setupL.params.nv ∧ setupL.params.np ≤ 4) ∧
    ({ setupL with pdt := [] } : State).pdtLoaded 0 = false ∧
    (let s : State := { setupL with pdt := partialOf 0x7F 9 };
      s.pdtLoaded 0 = true ∧ resolveSample s 0 (Int.ofNat (s.vsReg 0 1) + keyShiftOf s 0) = .error .index) ∧
    (let s : State := { setupL with bank := [] };
      resolveSample s 0 (Int.ofNat (s.vsReg 0 1) + keyShiftOf s 0) = .ok 0 ∧ (s.bankOf 0).decoded = false) ∧
    (let s : State := { setupL with sdt := sample 0x100 4 0 };
      s.sdtLoaded 0 = true ∧ (s.bankOf 0).decoded = true ∧ s.sdtData 0 1 < s.sdtData 0 2) := by decide +kernel
/-- With a loop as long as its sample, the greatest legal one. -/
theorem test_meets_VstartCompletes : let s : State := { setupL with sdt := sample 0x100 3 0 }
    3 < s.params.nv ∧ 0 < s.params.np ∧ s.pdtLoaded 0 = true ∧
    resolveSample s 0 (Int.ofNat (s.vsReg 3 1) + keyShiftOf s 3) = .ok 0 ∧ s.sdtLoaded 0 = true ∧
    (s.bankOf 0).decoded = true ∧ s.sdtData 0 2 ≤ s.sdtData 0 1 ∧ s.params.fineVol = .reference ∧
    s.params.env = .reference := by decide +kernel
/-- A voice for each clause: inactive; releasing; a drum without note-off; one that is released. -/
theorem test_meets_VnoteoffCompletes : setupH.params.nv ≤ 4 ∧ (setupH.voice 3).active = false ∧
    ((withVoice fun x => { x with releasing := true }).voice 0).releasing = true ∧
    (let x := setupDrumA.voice 0;
      x.drum = true ∧ setupDrumA.drumReg x.map x.key 1 = 0) ∧
    (let x := setupA.voice 0;
      x.active = true ∧ x.releasing = false ∧ x.drum = false ∧ ∀ g ∈ [Gen.tvp, .tvf, .tva],
        (x.eg g).stage ≠ .release ∧ (x.eg g).stage ≠ .done) := by decide +kernel
theorem test_meets_VkillCompletes : opField 0x00000133#64 = 0x33 ∧ aField 0x00000133#64 ≠ 0 ∧ 0xFFFF < 0x10000 ∧
    setupA.params.nv ≤ 4 ∧ 3 < setupA.params.nv := by decide +kernel
theorem test_meets_RdvoiceCompletes : opField 0x0000000100000034#64 = 0x34 ∧ dataField 0x0000000100000034#64 ≠ 0 ∧
    0xFFFF < 0x10000 ∧ setupA.params.nv ≤ 4 ∧ 3 < setupA.params.nv := by decide +kernel
theorem test_meets_RdfaultCompletes : opField 0x00010035#64 = 0x35 ∧ 0x00010035#64 ≠ 0x35#64 := by decide
theorem test_meets_VoiceFieldsStay : 0 < setupA.params.nv ∧ Instr.vnoteoff 0 ≠ .reset ∧ (∀ q, Instr.vnoteoff 0 ≠ .vstart 0 q) ∧
    ((withVoice fun x => { x with isLooping := true }).voice 0).isLooping = true :=
  ⟨by decide +kernel, by decide, fun _ => (by simp), by decide +kernel⟩
/-- A voice that runs away (loopLen 0, phase 3.0, increment 2.0 at 16 kHz: 95_test_vectors.md MV5). -/
def setupRunaway : State :=
  let s := { setupL with sdt := sample 0x100 0 0, fs := 16000, interp := 0 }
  let x := startVoice s 0 0 0
  s.setVoice 0 { x with phase := R.ofInt 3, refreshCnt := 2, pitchExp := R.one, pitchOffsetHz := R.one }
theorem test_meets_FrameCompletes : setupA.params.partGain = .reference ∧ setupA.params.mPan = .reference ∧
    (0 < setupA.params.nv ∧ (setupA.voice 0).active = true) := by decide +kernel
theorem test_meets_FirstFaultOfFrame : 0 < setupRunaway.params.nv ∧ (setupRunaway.voice 0).active = true ∧
    (frameStep setupRunaway 0).fault = some .phase ∧ setupRunaway.fault = 0 := by decide +kernel
theorem test_meets_IdleFrameIsSilent : setupH.params.numerics = .reference ∧
    (∀ v, v < setupH.params.nv → (setupH.voice v).active = false) := by decide +kernel
/-- The phase of voice `x` after its refresh and the advance by its pitch (43_oscillator.md R118). -/
def movedPhase (s : State) (x : Voice) : R :=
  let y := refreshIfDue s x
  R.add x.phase (R.mul (R.mul (R.mul (R.mul y.pitchExp y.pitchOffsetHz) (s.pbfOf x.part)) x.staticPitch) (tvpPitch s y))
/-- Voice 0 of program P1 at phase `phase`, between refreshes. -/
def voiceP1 (phase : R) : Voice :=
  { setupP1.voice 0 with phase := phase, refreshCnt := 3, pitchExp := R.one, pitchOffsetHz := R.one }
/-- Clause 1: the one-shot voice of program P1 on its fourth frame, at phase 3.0. -/
theorem test_meets_PhaseRule : (voiceP1 (R.ofInt 3)).loopMode = 2 ∧ (voiceP1 (R.ofInt 3)).sampleLen + 1 = 4 ∧
    movedPhase setupP1 (voiceP1 (R.ofInt 3)) = R.ofInt 4 ∧ (R.ofInt 4).isFinite = true := by decide +kernel
/-- Clause 2: the runaway voice, and a one-shot voice at an infinite phase, which F_PHASE aborts (R144). -/
theorem test_meets_PhaseRule_outside :
    (let x := setupRunaway.voice 0;
      x.loopMode ≠ 2 ∧ x.sampleLen + 1 = 4 ∧ x.loopLen + 1 = 1 ∧ movedPhase setupRunaway x = R.ofInt 5) ∧
    (let x := voiceP1 (R.inf false);
      x.loopMode = 2 ∧ (movedPhase setupP1 x).isFinite = false ∧ R.lt (movedPhase setupP1 x) (R.ofInt 4) = false ∧
        (voiceStep setupP1 x).fault = some .phase) := by decide +kernel
/-- Clause 3: frame 1 of program P1, whose output 45_mixer.md R137 gives, and a looping voice. -/
theorem test_meets_PhaseRule_running :
    (let x := setupP1.voice 0;
      x.loopMode = 2 ∧ movedPhase setupP1 x = R.one ∧
        (voiceStep setupP1 x).left = R.ofRat 4547224986416385 1000000000000000000) ∧
    (let x := setupA.voice 0;
      x.loopMode ≠ 2 ∧ movedPhase setupA x = R.ofRat 7256235827664399 10000000000000000) ∧
    setupA.params.panMap = .reference := by decide +kernel
theorem test_meets_PlayingBankUnchanged : 0 < setupA.params.nv ∧ (setupA.voice 0).active = true := by decide +kernel
theorem test_meets_RefreshCounter : 0 < setupA.params.nv ∧ (setupA.voice 0).active = true ∧
    (setupA.voice 0).refreshCnt = 0 ∧ (setupRunaway.voice 0).active = true ∧ (setupRunaway.voice 0).refreshCnt ≠ 0 := by
  decide +kernel
/-- Two states that differ in the tuning, the TVF cutoff, a depth and the fault record. -/
theorem test_meets_WritesWaitForRefresh : let s := setupRunaway
    let t := (((s.setSysReg 0 0x44F).setPartReg 0 0x12 0x50).setPartReg 0 0x44 0x0A)
    (s.voice 0).refreshCnt ≠ 0 ∧ t ≠ s ∧ t.fs = s.fs ∧ t.interp = s.interp ∧ t.bank = s.bank ∧ t.params = s.params ∧
    t.pbf = s.pbf := by decide +kernel
theorem test_meets_WritesWaitForRefresh_pan (p : Nat) : let s := setupRunaway
    (((s.setSysReg 0 0x44F).setPartReg 0 0x12 0x50).setPartReg 0 0x44 0x0A).partReg p 0x1A = s.partReg p 0x1A := by
  intro s
  rw [partReg_setPartReg _ _ _ _ (by decide) (by decide), if_neg (by simp),
    partReg_setPartReg _ _ _ _ (by decide) (by decide), if_neg (by simp)]
  rfl
/-- Two states that differ in another voice, in the setup registers and in both streams. -/
theorem test_meets_VoicesIndependent :
    let t := { (setupA.setVoice 1 (setupA.voice 0)) with vs := [], out := [(1, 1)], resp := [0#64], fault := 1 }
    0 < setupA.params.nv ∧ t ≠ setupA ∧ SameInputs setupA t ∧ t.voice 0 = setupA.voice 0 :=
  ⟨by decide +kernel, by decide +kernel, ⟨rfl, rfl, rfl, rfl, rfl, rfl, rfl, rfl⟩, by decide +kernel⟩
/-- The state after a note-off to voice 0. -/
def released (s : State) : State := s.setVoice 0 (noteOff s (s.voice 0))
/-- A looping voice, and a one-shot voice one frame before its end. -/
theorem test_meets_ReleaseEndsVoice :
    (let s := released setupA;
      s.params.env = .reference ∧ 0 < s.params.nv ∧ (s.voice 0).active = true ∧ (s.voice 0).egTva.stage = .release ∧
        (s.voice 0).loopMode ≠ 2 ∧ (frameStep s 0).fault = none) ∧
    (let s := released (setupP1.setVoice 0 (voiceP1 (R.ofInt 2)));
      (s.voice 0).active = true ∧ (s.voice 0).egTva.stage = .release ∧ (s.voice 0).loopMode = 2 ∧
        (frameStep s 0).fault = none ∧ R.lt (frameStep s 0).voice.phase (R.ofInt 4) = true) := by decide +kernel
/-- A generator in RELEASE, and one that is not. -/
theorem test_meets_ReleaseEndsVoice_reference : (t0Release (t0Init .tva)).stage = .release ∧
    ((t0Init .tva).stage ≠ .release ∧ (t0Init .tva).stage ≠ .done) := by decide
theorem test_meets_OutputConversion :
    R.lt (R.ofInt 32767) (Numerics.reference.mul (R.ofRat 3 2) (R.ofInt 32767)) = true ∧
    R.lt (Numerics.reference.mul (R.ofRat (-3) 2) (R.ofInt 32767)) (R.ofInt (-32768)) = true := by decide +kernel
theorem test_meets_InvariantsAtReset : vectorParams.legal = true ∧ Memory.wf vectorParams.romSize rom0 = true := by decide

/-! ### The invariants hold of setup A, where voice 0 plays -/

/-- A check of every id below 256 is a check of every id that is assigned. -/
theorem legal_of_all {max : Nat → Option Nat} {value : Nat → Nat}
    (h : ∀ id, id < 256 → (max id).all (fun m => decide (value id ≤ m)) = true) {id limit : Nat} (hid : id < 256)
    (hm : max id = some limit) : value id ≤ limit := by
  have := h id hid
  rw [hm] at this
  simpa using this

/-- The fields of a descriptor table whose entries are all of entry 0 and legal. -/
theorem fieldLegal {t : Table Field} {max : Nat → Option Nat}
    (h : t.all (fun e => decide (e.1 < 256) && (max e.1).all fun m => decide (e.2.data ≤ m)) = true) (i : Nat)
    {field limit : Nat} (hf : field < 256) (hm : max field = some limit) :
    (Table.read unwritten t (regKey i field)).data ≤ limit := by
  rcases Table.read_mem unwritten t (regKey i field) with e | e
  · rw [e]; exact Nat.zero_le _
  · have he := List.all_eq_true.mp h _ e
    rw [Bool.and_eq_true, decide_eq_true_eq] at he
    have hi : regKey i field = field := by have := he.1; unfold regKey at this ⊢; omega
    have := he.2
    dsimp only at this
    rw [hi, hm] at this
    rw [hi]
    simpa using this

theorem registersLegal_setup {s : State} (hf : 128 ≤ s.fs.toNat) (hi : s.interp.toNat ≤ 2) (h1 : s.sys = []) (h2 : s.part = [])
    (h3 : s.drum = []) (h4 : s.vs = []) (hp : s.params = vectorParams)
    (h5 : s.sdt.all (fun e => decide (e.1 < 256) && (sdtMax e.1).all fun m => decide (e.2.data ≤ m)) = true)
    (h6 : s.pdt.all (fun e => decide (e.1 < 256) && (pdtMax 0 e.1).all fun m => decide (e.2.data ≤ m)) = true) :
    RegistersLegal s where
  fs := hf
  interp := hi
  sys id limit h := by
    have hid : id < 4 := sysMax_lt h
    unfold State.sysReg
    rw [h1]
    exact legal_of_all (max := sysMax) (value := sysReset) (by decide +kernel) (by omega) h
  part p id limit h := by
    have hid : id < 256 := partMax_lt h
    unfold State.partReg
    rw [h2, Table.read_nil, regKey_mod hid]
    exact legal_of_all (max := partMax) (value := partReset) (by decide +kernel) hid h
  drum m k field limit h := by
    have hid : field < 2 := drumMax_lt h
    unfold State.drumReg
    rw [h3, Table.read_nil]
    unfold drumDefault
    rw [regKey_mod (by omega), regKey_div (by omega)]
    unfold drumMax at h
    unfold drumReset
    split at h
    · rw [if_pos ‹_›]; cases h; omega
    · split at h
      · rw [if_neg ‹_›, if_pos ‹_›]; cases h; omega
      · cases h
  sdt i field limit h := fieldLegal h5 i (Nat.lt_trans (sdtMax_lt h) (by decide)) h
  pdt q field limit h := by
    rw [hp] at h
    exact fieldLegal h6 q (pdtMax_lt (by decide) h) h
  vs v field limit h := by
    have hid : field < 256 := vsMax_lt (by rw [hp]; decide) h
    unfold State.vsReg
    rw [h4, Table.read_nil, regKey_mod hid]
    rw [hp] at h
    exact legal_of_all (max := vsMax vectorParams) (value := vsReset) (by decide +kernel) hid h

theorem test_meets_IdleFrameIsSilent_registers : RegistersLegal setupH :=
  registersLegal_setup (by decide) (by decide) rfl rfl rfl rfl rfl rfl rfl

/-- Setup A after the first refresh of voice 0, so that its TVF has coefficients, with a command waiting in its port. -/
def setupInv : State :=
  { (setupA.setVoice 0 (refreshIfDue setupA (setupA.voice 0))) with port := [0x40#64] }

/-- Its instance is the reference one. -/
theorem test_meets_CoefficientsCurrent_reference : setupInv.params.numerics = .reference ∧
    setupInv.params.env = .reference ∧ setupInv.params.lfo = .reference ∧ setupInv.params.tvfMap = .reference := by
  decide +kernel

/-- The coefficients of its TVF are those of its key. -/
theorem test_meets_CoefficientsCurrent : ∃ k, (setupInv.voice 0).tvf.key = some k ∧
    (setupInv.voice 0).tvf.coeffs = lpCoeffs .reference k.cutoff k.quality k.fs := by
  have h : (match (setupInv.voice 0).tvf.key with
      | none => false
      | some k => (setupInv.voice 0).tvf.coeffs == lpCoeffs .reference k.cutoff k.quality k.fs) = true := by
    decide +kernel
  cases hk : (setupInv.voice 0).tvf.key with
  | none => rw [hk] at h; cases h
  | some k => rw [hk] at h; exact ⟨k, rfl, by simpa using h⟩

theorem test_setupInv_registers : RegistersLegal setupInv :=
  registersLegal_setup (by decide +kernel) (by decide +kernel) rfl rfl rfl rfl rfl (by decide +kernel) (by decide +kernel)

/-- Where no other slot than 0 is listed, a voice is that of slot 0 or as reset leaves it. -/
theorem voice_slot0 {s : State} (h : s.voices.all (fun e => e.1 == 0) = true) (v : Nat) :
    s.voice v = Voice.reset ∨ s.voice v = s.voice 0 := by
  rcases Table.read_mem (fun _ => Voice.reset) s.voices v with e | e
  · exact .inl e
  · have := List.all_eq_true.mp h _ e
    simp only [beq_iff_eq] at this
    exact .inr (by rw [this])

theorem voice_setupInv (v : Nat) : setupInv.voice v = Voice.reset ∨ setupInv.voice v = setupInv.voice 0 :=
  voice_slot0 (by decide +kernel) v

theorem test_meets_TapsInsideBank : VoiceSafe setupInv (setupInv.voice 0) := by
  constructor <;> decide +kernel
/-- The nearest read in the last element of the bank. -/
theorem test_meets_TapsInsideBank_nearest : let s : State := { setupInv with interp := 0 }
    VoiceSafe s { s.voice 0 with phase := R.ofRat 7 2 } ∧ (R.ofRat 7 2).floor = 3 := by
  refine ⟨?_, by decide +kernel⟩
  constructor <;> decide +kernel

theorem test_meets_SoundKept : setupInv.params.legal = true ∧ Sound setupInv ∧ holds (step setupInv) (fun _ => true) = true := by
  refine ⟨by decide +kernel, ⟨test_setupInv_registers, fun i hi => ?_, fun v _ ha => ?_⟩, by decide +kernel⟩
  · have h : ∀ j, j < 1 → j < setupInv.params.ns ∧ setupInv.sdtLoaded j = true ∧
        (setupInv.bankOf j).data.length = setupInv.sdtData j 1 + 1 := by decide +kernel
    rcases Table.read_mem emptyBank setupInv.bank i with e | e
    · unfold State.bankOf at hi; rw [e] at hi; cases hi
    · have h0 : setupInv.bank.all (fun e => decide (e.1 < 1)) = true := by decide +kernel
      exact h i (by simpa using List.all_eq_true.mp h0 _ e)
  · rcases voice_setupInv v with e | e
    · rw [e] at ha; cases ha
    · rw [e]; exact test_meets_TapsInsideBank

theorem test_meets_CanonicalKept : Canonical setupInv := by
  constructor <;> decide +kernel

theorem envelopesLegal_slot0 {s : State} (h : s.voices.all (fun e => e.1 == 0) = true)
    (hs : (s.voice 0).egTva.stage ≠ .done ∧ ((s.voice 0).releasing = true ↔ (s.voice 0).egTva.stage = .release))
    (hl : ∀ g ∈ [Gen.tvp, .tvf, .tva], legalLevel g ((s.voice 0).eg g).level = true) : EnvelopesLegal s where
  stage v _ ha := by
    rcases voice_slot0 h v with e | e
    · rw [e] at ha; cases ha
    · rw [e]; exact hs
  level v g := by
    have hr : ∀ g ∈ [Gen.tvp, .tvf, .tva], legalLevel g (Voice.reset.eg g).level = true := by decide +kernel
    rcases voice_slot0 h v with e | e <;> rw [e]
    · exact hr g (by cases g <;> simp)
    · exact hl g (by cases g <;> simp)

theorem test_meets_EnvelopesKept : EnvelopesLegal setupInv :=
  envelopesLegal_slot0 (by decide +kernel) (by decide +kernel) (by decide +kernel)

/-- A looping voice, and a one-shot voice one frame before its end. -/
theorem test_meets_HeldUntilRelease :
    (EnvelopesLegal setupInv ∧ 0 < setupInv.params.nv ∧ (setupInv.voice 0).active = true ∧
      (setupInv.voice 0).releasing = false ∧ (setupInv.voice 0).loopMode ≠ 2 ∧ (frameStep setupInv 0).fault = none) ∧
    (let s := setupP1.setVoice 0 (voiceP1 (R.ofInt 2));
      EnvelopesLegal s ∧ 0 < s.params.nv ∧ (s.voice 0).active = true ∧ (s.voice 0).releasing = false ∧
        (s.voice 0).loopMode = 2 ∧ (frameStep s 0).fault = none ∧
        R.lt (frameStep s 0).voice.phase (R.ofInt 4) = true) :=
  ⟨⟨test_meets_EnvelopesKept, by decide +kernel⟩,
    envelopesLegal_slot0 (by decide +kernel) (by decide +kernel) (by decide +kernel), by decide +kernel⟩

/-- A state with a recorded runtime fault of voice 0. -/
def setupFaulted : State := { record .phase 0 (encode .frame) setupH with port := [0x40#64] }

theorem test_meets_FaultRecordKept : FaultRecord setupFaulted ∧ holds (step setupFaulted) (fun _ => true) = true := by
  refine ⟨⟨by decide, ?_, fun _ => ⟨.phase, by decide, by decide⟩, fun _ => ⟨.inl (by decide), by decide⟩⟩,
    by decide +kernel⟩
  intro h
  exact absurd h (by decide)

theorem test_meets_CachesKept : PbfCurrent setupInv ∧ TvfCacheValid setupInv := by
  constructor
  · intro p hp
    have h : ∀ p, p < 16 → setupInv.pbfOf p =
        pbfValue .reference (setupInv.partReg p 0x21) (setupInv.partReg p 0x50) := by decide +kernel
    exact h p hp
  · intro v k hk
    obtain ⟨j, hj, hc⟩ := test_meets_CoefficientsCurrent
    rcases voice_setupInv v with e | e <;> rw [e] at hk ⊢
    · cases hk
    · rw [hj] at hk; cases hk; exact hc

end Sys2Proof.Tests
end

section
/-!
The canonical form of the indexed state (log entry 13) as an invariant of a step: each operation that writes a table keeps
it, so every effect of a command does, and so does the mix of a frame.
-/

namespace Sys2Proof.Machine

/-! ### The operations -/

section
variable {s : State} (h : Canonical s)
include h

/-- The canonical form says nothing of the position, the format, the fault record, the streams and the port. Whatever
writes these alone keeps it. -/
theorem Canonical.withControl (cp : Nat) (fs : BitVec 32) (interp : BitVec 2) (fault : BitVec 32)
    (cause voice : BitVec 8) (cmd : Word) (out : List (BitVec 16 × BitVec 16)) (resp port : List Word) :
    Canonical { s with
      cp := cp, fs := fs, interp := interp, fault := fault, faultCause := cause, faultVoice := voice
      faultCmd := cmd, out := out, resp := resp, port := port } :=
  { h with }

theorem Canonical.record (c : Cause) (v : BitVec 8) (w : Word) : Canonical (record c v w s) := h.withControl ..

theorem Canonical.raise (c : Cause) (w : Word) : Canonical (raise c w s) := h.withControl ..

theorem Canonical.clearFaults : Canonical (clearFaults s) := h.withControl ..

theorem Canonical.emitResp (w : Word) : Canonical (s.emitResp w) := h.withControl ..

theorem Canonical.emitFrame (l r : BitVec 16) : Canonical (s.emitFrame l r) := h.withControl ..

theorem Canonical.setSysReg (id x : Nat) : Canonical (s.setSysReg id x) :=
  { h with sys := Table.wf_write _ _ _ _ h.sys }

theorem Canonical.setPartReg (p id x : Nat) : Canonical (s.setPartReg p id x) :=
  { h with part := Table.wf_write _ _ _ _ h.part }

theorem Canonical.setDrumReg (m k field x : Nat) : Canonical (s.setDrumReg m k field x) :=
  { h with drum := Table.wf_write _ _ _ _ h.drum }

theorem Canonical.setSdtField (i field x : Nat) : Canonical (s.setSdtField i field x) :=
  { h with sdt := Table.wf_write _ _ _ (Field.mk true x) h.sdt }

theorem Canonical.setPdtField (q field x : Nat) : Canonical (s.setPdtField q field x) :=
  { h with pdt := Table.wf_write _ _ _ (Field.mk true x) h.pdt }

theorem Canonical.setVsReg (v field x : Nat) : Canonical (s.setVsReg v field x) :=
  { h with vs := Table.wf_write _ _ _ _ h.vs }

theorem Canonical.setBank (i : Nat) (b : Bank) : Canonical (s.setBank i b) :=
  { h with bank := Table.wf_write _ _ _ _ h.bank }

theorem Canonical.setVoice (v : Nat) (x : Voice) : Canonical (s.setVoice v x) :=
  { h with voices := Table.wf_write _ _ _ _ h.voices }

theorem Canonical.recomputeMatrix (p : Nat) : Canonical (recomputeMatrix p s) :=
  { h with matrix := Table.wf_write _ _ _ _ h.matrix }

theorem Canonical.recomputePbf (p : Nat) : Canonical (recomputePbf p s) :=
  { h with pbf := Table.wf_write _ _ _ _ h.pbf }

/-! ### The effects of the commands -/

theorem Canonical.resetRegisters : Canonical (resetRegisters s) :=
  { h with sys := Table.wf_nil _, part := Table.wf_nil _, drum := Table.wf_nil _, vs := Table.wf_nil _ }

theorem Canonical.resetVoices : Canonical (resetVoices s) :=
  { h with voices := Table.wf_updateBelow _ _ _ _ h.voices }

theorem Canonical.recomputeParts (n : Nat) : Canonical (recomputeParts n s) := by
  induction n with
  | zero => exact h
  | succ n ih => exact (ih.recomputeMatrix n).recomputePbf n

theorem Canonical.partEffect (p id value : Nat) : Canonical (partEffect p id value s) := by
  have hpart := h.setPartReg p id value
  unfold Sys2Proof.Machine.partEffect
  extract_lets s1 s2
  have hmatrix : Canonical s2 := by
    unfold s2
    split
    · exact hpart.recomputeMatrix p
    · exact hpart
  split
  · exact hmatrix.recomputePbf p
  · exact hmatrix

theorem Canonical.sdtEffect (i field value : Nat) : Canonical (sdtEffect i field value s) :=
  (h.setSdtField i field value).setBank i _

/-! ### The mix of a frame -/

theorem Canonical.recordRuntime (fault : Option Cause) (i : Nat) : Canonical (recordRuntime fault i s) := by
  cases fault with
  | none => exact h
  | some c => exact h.record ..

end

theorem Canonical.mixVoice {m : Mix} (h : Canonical m.st) (i : Nat) : Canonical (mixVoice m i).st := by
  cases hact : (m.st.voice i).active with
  | false => rw [mixVoice_idle m i hact]; exact h
  | true => rw [mixVoice_eq m i hact]; exact (h.recordRuntime _ i).setVoice i _

theorem Canonical.mixVoices {s : State} (h : Canonical s) : Canonical (mixVoices s).st := by
  have fold : ∀ (l : List Nat) (m : Mix), Canonical m.st → Canonical (l.foldl Machine.mixVoice m).st := by
    intro l
    induction l with
    | nil => exact fun m hm => hm
    | cons i l ih => exact fun m hm => ih _ (hm.mixVoice i)
  exact fold _ _ h

theorem Canonical.emitMix {m : Mix} (h : Canonical m.st) : Canonical (emitMix m) := by
  unfold Sys2Proof.Machine.emitMix
  extract_lets s lr
  split
  · exact (h.record ..).emitFrame ..
  split <;> exact h.emitFrame ..

/-! ### A step -/

/-- Whatever a command does once its checks have passed keeps the canonical form. -/
theorem Canonical.effect {i : Instr} {s t : State} (h : Canonical s) (he : Effect i s t) : Canonical t := by
  cases i with
  | nop => cases he; exact h
  | reset => cases he; exact (h.resetRegisters.resetVoices.recomputeParts _).clearFaults
  | setfmt fs channels => obtain ⟨-, -, -, rfl⟩ := he; exact h.withControl ..
  | setinterp mode => obtain ⟨-, rfl⟩ := he; exact h.withControl ..
  | sysparam id value => obtain ⟨_, -, -, rfl⟩ := he; exact h.setSysReg ..
  | partparam p id value => obtain ⟨-, _, -, -, rfl⟩ := he; exact h.partEffect ..
  | drumparam map key field value => obtain ⟨_, -, -, rfl⟩ := he; exact h.setDrumReg ..
  | sdtWr e field value => obtain ⟨-, _, -, -, rfl⟩ := he; exact h.sdtEffect ..
  | pdtWr q field value => obtain ⟨-, _, -, -, rfl⟩ := he; exact h.setPdtField ..
  | decode e => obtain ⟨_, _, -, -, -, rfl⟩ := he; exact h.setBank ..
  | vsetup v field value => obtain ⟨-, _, -, -, rfl⟩ := he; exact h.setVsReg ..
  | vstart v q => obtain ⟨_, -, rfl⟩ := he; exact h.setVoice ..
  | vnoteoff v => obtain ⟨-, rfl⟩ := he; exact h.setVoice ..
  | vkill v => obtain ⟨-, rfl⟩ := he; exact h.setVoice ..
  | rdvoice v => obtain ⟨-, rfl⟩ := he; exact h.emitResp _
  | rdfault => cases he; exact (h.emitResp _).emitResp _
  | frame => cases he; exact h.mixVoices.emitMix

/-- Executing any word keeps it, whether the word faults or has its effect. -/
theorem Canonical.execWord {w : Word} {s t : State} (h : Canonical s) (ht : execWord w s = .next t) : Canonical t := by
  rcases execWord_cases w s with ⟨c, w', hr⟩ | ⟨i, u, -, hu, he⟩
  · cases hr.symm.trans ht
    exact h.raise c w'
  · cases hu.symm.trans ht
    exact (h.effect he).withControl ..

/-- Settles O55: an idle step changes nothing, and any other executes a word in the state without it in the port. -/
theorem canonicalKept : Obligations.CanonicalKept := by
  intro s t h hs
  unfold step at hs
  split at hs
  · cases hs
    exact h
  · next w rest _ =>
    have hport : Canonical { s with port := rest } := h.withControl ..
    exact hport.execWord hs

end Sys2Proof.Machine
end

section
/-!
What a decoded word is: the encoding of its command, with every operand inside its field (30_encoding.md R68 to R71).
-/

namespace Sys2Proof

theorem unlessReserved_ok {zero : Bool} {i j : Instr} :
    unlessReserved zero i = .ok j ↔ zero = true ∧ i = j := by
  cases zero <;> simp [unlessReserved]

/-- A command read from the fields of a word fits these fields, and they are the ones its encoding packs. -/
theorem commandOf_ok {op a b data : Nat} {i : Instr} (ha : a < 256) (hb : b < 65536) (hd : data < 4294967296)
    (h : commandOf op a b data = .ok i) : i.wellFormed = true ∧ encode i = packWord op a b data := by
  unfold commandOf at h
  split at h
  -- PARTPARAM, SDT_WR, PDT_WR and VSETUP have no reserved field.
  case h_6 | h_8 | h_9 | h_11 =>
    cases h
    simp [Instr.wellFormed, encode, Instr.opcode, ha, hb, hd]
  -- DRUMPARAM splits `b` into the map and the key.
  case h_7 =>
    obtain ⟨hz, rfl⟩ := unlessReserved_ok.mp h
    have hmap : b / 128 % 2 * 128 + b % 128 = b := by
      simp only [beq_iff_eq] at hz
      omega
    simp only [Instr.wellFormed, encode, Instr.opcode, hmap, Bool.and_eq_true, decide_eq_true_eq]
    refine ⟨?_, trivial⟩
    omega
  -- An opcode that is not assigned.
  case h_18 => cases h
  all_goals
    obtain ⟨hz, rfl⟩ := unlessReserved_ok.mp h
    simp_all [Instr.wellFormed, encode, Instr.opcode]

/-- A word that decodes is the encoding of its command, and the command is well formed. -/
theorem decode_ok {w : Word} {i : Instr} (h : decode w = .ok i) : i.wellFormed = true ∧ encode i = w := by
  obtain ⟨-, ha, hb, hd⟩ := fields_lt w
  rw [decode_eq] at h
  rw [← packWord_fields w]
  exact commandOf_ok ha hb hd h

/-! ### The words of the commands that append to a stream -/

theorem decode_eq_frame {w : Word} : decode w = .ok .frame ↔ w = encode .frame :=
  ⟨fun h => (decode_ok h).2.symm, fun h => by rw [h]; rfl⟩

theorem decode_eq_rdfault {w : Word} : decode w = .ok .rdfault ↔ w = encode .rdfault :=
  ⟨fun h => (decode_ok h).2.symm, fun h => by rw [h]; rfl⟩

theorem decode_eq_rdvoice {w : Word} {v : Nat} :
    decode w = .ok (.rdvoice v) ↔ v = bField w ∧ w = encode (.rdvoice (bField w)) := by
  constructor
  · intro h
    obtain ⟨hwf, hw⟩ := decode_ok h
    have hv : v < 65536 := by simpa [Instr.wellFormed] using hwf
    have hb : bField w = v := by
      obtain ⟨-, -, hfield, -⟩ := fields_packWord (op := 0x34) (a := 0) (data := 0) (by decide) (by decide) hv (by decide)
      rw [← hw]
      exact hfield
    exact ⟨hb.symm, by rw [hb, hw]⟩
  · rintro ⟨rfl, hw⟩
    obtain ⟨-, -, hb, -⟩ := fields_lt w
    have hdecode : decode (encode (.rdvoice (bField w))) = commandOf 0x34 0 (bField w) 0 :=
      decode_packWord (op := 0x34) (by decide) (by decide) hb (by decide)
    rw [← hw] at hdecode
    exact hdecode

end Sys2Proof
end

section
/-!
What the effects of the commands write, said once by their shape: a recomputation writes the two derived tables, RESET the
registers, the voices, the derived tables and the fault record, FRAME the voices, the fault record and OUT.
-/

namespace Sys2Proof.Machine

/-! ### The commands that write more than one field -/

theorem partEffect_shape (p id value : Nat) (s : State) :
    ∃ m f, partEffect p id value s = { s.setPartReg p id value with matrix := m, pbf := f } := by
  unfold partEffect
  split <;> split <;> exact ⟨_, _, rfl⟩

/-- The state RESET leaves (41_parameters.md R94). -/
def softResetState (s : State) : State :=
  clearFaults (recomputeParts s.params.nPart (resetVoices (resetRegisters s)))

theorem softResetState_shape (s : State) :
    ∃ m f, softResetState s =
      { clearFaults (resetVoices (resetRegisters s)) with matrix := m, pbf := f } := by
  obtain ⟨m, f, h⟩ := recomputeParts_shape s.params.nPart (resetVoices (resetRegisters s))
  refine ⟨m, f, ?_⟩
  unfold softResetState
  rw [h]
  rfl

/-- RESET silences every slot below `NV` and keeps the rest of each voice. -/
theorem softResetState_voice (s : State) (v : Nat) :
    (softResetState s).voice v = if v < s.params.nv then (s.voice v).softReset else s.voice v := by
  obtain ⟨m, f, h⟩ := softResetState_shape s
  rw [h]
  exact Table.read_updateBelow ..

/-! ### FRAME -/

/-- The state FRAME leaves, before the position advances (45_mixer.md R143). -/
def frameState (s : State) : State := emitMix (mixVoices s)

/-- The frames' faults touch the fault record alone. -/
theorem recordFrame_shape (l : List (Nat × Cause)) (s : State) :
    ∃ f c v w, recordFrame l s = { s with fault := f, faultCause := c, faultVoice := v, faultCmd := w } := by
  induction l generalizing s with
  | nil => exact ⟨s.fault, s.faultCause, s.faultVoice, s.faultCmd, rfl⟩
  | cons a l ih =>
    obtain ⟨f, c, v, w, h⟩ := ih (record a.2 (BitVec.ofNat 8 a.1) (encode .frame) s)
    exact ⟨f, c, v, w, h⟩

theorem mixVoices_spec (s : State) :
    MixSpec { st := s, silent := false, accL := [], accR := [] } (List.range s.params.nv) (mixVoices s) :=
  mix_spec _ List.nodup_range _

/-- The mix changes the voices and the fault record. -/
theorem mixVoices_shape (s : State) :
    ∃ vs f c v w, (mixVoices s).st =
      { s with voices := vs, fault := f, faultCause := c, faultVoice := v, faultCmd := w } := by
  have hstate : ({ (mixVoices s).st with voices := s.voices } : State) =
      recordFrame (faultsOf s (List.range s.params.nv)) s := (mixVoices_spec s).state
  obtain ⟨f, c, v, w, h⟩ := recordFrame_shape (faultsOf s (List.range s.params.nv)) s
  refine ⟨(mixVoices s).st.voices, f, c, v, w, ?_⟩
  have hvoices := congrArg (fun t : State => ({ t with voices := (mixVoices s).st.voices } : State)) (hstate.trans h)
  exact hvoices

/-- The end of a frame emits one pair, and may record F_NUMERIC. -/
theorem emitMix_shape (m : Mix) : ∃ (t : State) (l r : BitVec 16),
    (t = m.st ∨ t = record .numeric 0xFF (encode .frame) m.st) ∧ emitMix m = t.emitFrame l r := by
  unfold emitMix
  extract_lets s lr
  split
  · exact ⟨_, _, _, .inr rfl, rfl⟩
  · split <;> exact ⟨_, _, _, .inl rfl, rfl⟩

theorem frameState_shape (s : State) : ∃ vs f c v w pair, frameState s =
    { s with voices := vs, fault := f, faultCause := c, faultVoice := v, faultCmd := w, out := s.out ++ [pair] } := by
  obtain ⟨vs, f, c, v, w, hm⟩ := mixVoices_shape s
  obtain ⟨t, l, r, ht, he⟩ := emitMix_shape (mixVoices s)
  unfold frameState
  rw [he]
  rcases ht with rfl | rfl <;> rw [hm] <;> exact ⟨_, _, _, _, _, _, rfl⟩

/-- Each active slot below `NV` takes its frame, the others stay as they are. -/
theorem frameState_voice (s : State) (v : Nat) :
    (frameState s).voice v = if v < s.params.nv ∧ (s.voice v).active = true then frameVoice s v else s.voice v := by
  have hmix : (frameState s).voice v = (mixVoices s).st.voice v := by
    obtain ⟨t, l, r, ht, he⟩ := emitMix_shape (mixVoices s)
    unfold frameState
    rw [he]
    rcases ht with rfl | rfl <;> rfl
  rw [hmix, (mixVoices_spec s).voice v]
  simp only [List.mem_range]

/-! ### The voice of a frame -/

/-- A voice that is active after its frame was not ended by it: it is what its step made of it. -/
theorem endVoice_active {x : Voice} (h : (endVoice x).active = true) : x.active = true ∧ endVoice x = x := by
  unfold endVoice completeVoice at h ⊢
  split at h
  · next ha =>
    rw [if_pos ha]
    split at h
    · cases h
    · next hd => exact ⟨ha, if_neg hd⟩
  · next ha => exact absurd h ha

/-- Completion touches the two flags that end a voice. -/
theorem endVoice_shape (x : Voice) : ∃ a f, endVoice x = { x with active := a, finished := f } := by
  unfold endVoice completeVoice
  split
  · split <;> exact ⟨_, _, rfl⟩
  · exact ⟨x.active, x.finished, rfl⟩

/-- A voice that its step leaves active has gone through the whole step: its phase has advanced inside its range, and
nothing has ended or aborted it (45_mixer.md R137). -/
theorem voiceStep_active {s : State} {x : Voice} (h : (voiceStep s x).voice.active = true) :
    ∃ p b hist, R.le R.zero p = true ∧ R.lt p x.endPhase = true ∧
      (voiceStep s x).voice = tickGenerators s { refreshIfDue s x with
        phase := p, isLooping := b, tvf := { (refreshIfDue s x).tvf with hist := hist } } := by
  rcases voiceStep_cases s x with ⟨p, e, -⟩ | ⟨p, e, -⟩ | ⟨p, b, hist, hlow, hhigh, -, ⟨l, r, e, -⟩ | e⟩
  · rw [e] at h; cases h
  · rw [e] at h; cases h
  · exact ⟨p, b, hist, hlow, hhigh, by rw [e]⟩
  · rw [e] at h; cases h

end Sys2Proof.Machine
end

section
/-!
The registers as an invariant: every register file holds, at each assigned field, a value of its column (10_state.md R27 to
R35). A file is legal at reset, and a write that passed its field check keeps it so.
-/

namespace Sys2Proof.Machine

/-! ### The columns at reset -/

theorem sysReset_le {id m : Nat} (h : sysMax id = some m) : sysReset id ≤ m := by
  unfold sysMax at h
  unfold sysReset
  split_ifs at h ⊢ <;> cases h <;> omega

theorem bias_le (d : Nat) : bias d ≤ 0x40 := by
  unfold bias
  split <;> omega

theorem partReset_le {id m : Nat} (h : partMax id = some m) : partReset id ≤ m := by
  have hbias := bias_le ((id - 0x40) % 16)
  unfold partMax at h
  unfold partReset
  split_ifs at h ⊢ <;> cases h <;> omega

theorem drumReset_le {key field m : Nat} (hk : key ≤ 127) (h : drumMax field = some m) : drumReset key field ≤ m := by
  unfold drumMax at h
  unfold drumReset
  split_ifs at h ⊢ <;> cases h <;> omega

theorem vsReset_le {p : Params} {field m : Nat} (h : vsMax p field = some m) : vsReset field ≤ m := by
  unfold vsMax at h
  unfold vsReset
  split_ifs at h ⊢ <;> cases h <;> omega

theorem Params.limits_of_legal {p : Params} (h : p.legal = true) : p.ntv ≤ 192 ∧ p.nit ≤ 240 := by
  unfold Params.legal at h
  simp only [decide_eq_true_eq] at h
  omega

/-! What an unlisted register reads as is the reset column of its field. -/

theorem partDefault_le (p : Nat) {id m : Nat} (hm : partMax id = some m) : partReset (regKey p id % 256) ≤ m := by
  rw [regKey_mod (partMax_lt hm)]
  exact partReset_le hm

theorem drumDefault_le (i : Nat) {field m : Nat} (hm : drumMax field = some m) : drumDefault (regKey i field) ≤ m := by
  have hfield := drumMax_lt hm
  unfold drumDefault
  rw [regKey_mod (by omega)]
  exact drumReset_le (by omega) hm

theorem vsDefault_le {p : Params} (hp : p.legal = true) (v : Nat) {field m : Nat} (hm : vsMax p field = some m) :
    vsReset (regKey v field % 256) ≤ m := by
  rw [regKey_mod (vsMax_lt (Params.limits_of_legal hp).2 hm)]
  exact vsReset_le hm

/-! ### A file whose fields have limits -/

/-- Every entry of the file holds, at each field with a limit, a value up to that limit. -/
def WithinLimits {α : Type} (dflt : Nat → α) (val : α → Nat) (limit : Nat → Option Nat) (t : Table α) : Prop :=
  ∀ i field m, limit field = some m → val (Table.read dflt t (regKey i field)) ≤ m

theorem WithinLimits.write {α : Type} [DecidableEq α] {dflt : Nat → α} {val : α → Nat} {limit : Nat → Option Nat}
    {t : Table α} (h : WithinLimits dflt val limit t) (hlt : ∀ field m, limit field = some m → field < 256)
    (i : Nat) {field m : Nat} {x : α} (hm : limit field = some m) (hx : val x ≤ m) :
    WithinLimits dflt val limit (Table.write dflt t (regKey i field) x) := by
  intro j g m' hg
  rw [Table.read_write]
  split
  · next hkey =>
    obtain ⟨-, rfl⟩ := (regKey_inj (hlt g m' hg) (hlt field m hm)).mp hkey
    cases hm.symm.trans hg
    exact hx
  · exact h j g m' hg

/-! ### Writes -/

section
variable {s : State} (h : RegistersLegal s)
include h

/-- The registers are not the position, the fault record, the derived tables, the banks, the voices, the streams or the
port. Whatever writes these alone keeps them legal. -/
theorem RegistersLegal.withRest (cp : Nat) (fault : BitVec 32) (cause voice : BitVec 8) (cmd : Word)
    (out : List (BitVec 16 × BitVec 16)) (resp port : List Word) (matrix : Table (List (List Int))) (pbf : Table R)
    (bank : Table Bank) (voices : Table Voice) :
    RegistersLegal { s with
      cp := cp, fault := fault, faultCause := cause, faultVoice := voice, faultCmd := cmd, out := out, resp := resp
      port := port, matrix := matrix, pbf := pbf, bank := bank, voices := voices } :=
  { h with }

theorem RegistersLegal.setFs (fs : BitVec 32) (hfs : 128 ≤ fs.toNat) : RegistersLegal { s with fs := fs } :=
  { h with fs := hfs }

theorem RegistersLegal.setInterp (mode : BitVec 2) (hm : mode.toNat ≤ 2) : RegistersLegal { s with interp := mode } :=
  { h with interp := hm }

theorem RegistersLegal.setSysReg {id m x : Nat} (hm : sysMax id = some m) (hx : x ≤ m) :
    RegistersLegal (s.setSysReg id x) :=
  { h with
    sys := fun j m' hj => by
      rw [sysReg_setSysReg]
      split
      · next e =>
        cases e
        cases hm.symm.trans hj
        exact hx
      · exact h.sys j m' hj }

theorem RegistersLegal.setPartReg {id m x : Nat} (p : Nat) (hm : partMax id = some m) (hx : x ≤ m) :
    RegistersLegal (s.setPartReg p id x) :=
  { h with part := WithinLimits.write (val := fun x => x) h.part (fun _ _ => partMax_lt) p hm hx }

theorem RegistersLegal.setDrumReg {field m x : Nat} (map key : Nat) (hm : drumMax field = some m) (hx : x ≤ m) :
    RegistersLegal (s.setDrumReg map key field x) := by
  have hdrum : WithinLimits drumDefault (fun x => x) drumMax s.drum := fun i f m' hf => by
    simpa [State.drumReg] using h.drum 0 i f m' hf
  have hlt : ∀ f m', drumMax f = some m' → f < 256 := fun f m' hf => by have := drumMax_lt hf; omega
  have hwrite := hdrum.write hlt (map * 128 + key) hm hx
  exact { h with drum := fun m' k => hwrite (m' * 128 + k) }

theorem RegistersLegal.setSdtField {field m x : Nat} (i : Nat) (hm : sdtMax field = some m) (hx : x ≤ m) :
    RegistersLegal (s.setSdtField i field x) :=
  have hlt : ∀ f m', sdtMax f = some m' → f < 256 := fun f m' hf => by have := sdtMax_lt hf; omega
  { h with sdt := WithinLimits.write (val := Field.data) (x := Field.mk true x) h.sdt hlt i hm hx }

theorem RegistersLegal.setPdtField {field m x : Nat} (hp : s.params.legal = true) (q : Nat)
    (hm : pdtMax s.params.ntv field = some m) (hx : x ≤ m) : RegistersLegal (s.setPdtField q field x) :=
  have hlt : ∀ f m', pdtMax s.params.ntv f = some m' → f < 256 := fun _ _ => pdtMax_lt (Params.limits_of_legal hp).1
  { h with pdt := WithinLimits.write (val := Field.data) (x := Field.mk true x) h.pdt hlt q hm hx }

theorem RegistersLegal.setVsReg {field m x : Nat} (hp : s.params.legal = true) (v : Nat)
    (hm : vsMax s.params field = some m) (hx : x ≤ m) : RegistersLegal (s.setVsReg v field x) :=
  have hlt : ∀ f m', vsMax s.params f = some m' → f < 256 := fun _ _ => vsMax_lt (Params.limits_of_legal hp).2
  { h with vs := WithinLimits.write (val := fun x => x) h.vs hlt v hm hx }

/-- The four files RESET clears read as their reset columns. -/
theorem RegistersLegal.resetRegisters (hp : s.params.legal = true) : RegistersLegal (resetRegisters s) :=
  { h with
    sys := fun _ _ hm => sysReset_le hm
    part := fun p _ _ hm => partDefault_le p hm
    drum := fun map k _ _ hm => drumDefault_le (map * 128 + k) hm
    vs := fun v _ _ hm => vsDefault_le hp v hm }

end

end Sys2Proof.Machine
end

section
/-!
Soundness as an invariant of a step: legal registers, decoded banks that match their descriptors, and safe active voices
(10_state.md R22, R23, R34, 43_oscillator.md R115, R119).
-/

namespace Sys2Proof.Machine

/-! ### Safe voices -/

/-- A safe voice rests on the parameters, the format and the length of its bank. -/
theorem VoiceSafe.transfer {s t : State} {x : Voice} (h : VoiceSafe s x) (hparams : t.params = s.params)
    (hfs : t.fs = s.fs) (hbank : (t.bankOf x.s).data.length = (s.bankOf x.s).data.length) : VoiceSafe t x :=
  { h with
    part := hparams ▸ h.part
    sample := hparams ▸ h.sample
    bank := hbank.trans h.bank
    refresh := by
      have hr := h.refresh
      unfold refreshPeriod at hr ⊢
      rwa [hfs] }

theorem refreshPeriod_pos {s : State} (h : 128 ≤ s.fs.toNat) : 0 < refreshPeriod s := by
  unfold refreshPeriod
  omega

theorem Params.nPart_pos (p : Params) : 0 < p.nPart := by
  unfold Params.nPart Generation.nPart
  cases p.gen <;> decide

/-- The sample a key resolves to is a slot of the descriptor table (42_voice.md R104). -/
theorem resolveSample_ok {s : State} {q e : Nat} {t : Int} (h : resolveSample s q t = .ok e) : e < s.params.ns := by
  unfold resolveSample at h
  split at h
  · cases h
  extract_lets i at h
  split_ifs at h
  have hi := Except.ok.inj h
  omega

/-- VSTART starts a safe voice: its indices come from legal registers, its sample is decoded, so its bank matches, and its
phase and its counter are 0 (42_voice.md R109, R110). -/
theorem startVoice_safe {s : State} (h : Sound s) {v q e : Nat} (hc : startChecks s v q = .ok e) :
    VoiceSafe s (startVoice s v q e) := by
  obtain ⟨-, -, -, hsample, -, hdecoded, hloop⟩ := startChecks_ok hc
  obtain ⟨-, -, hbank⟩ := h.banks e hdecoded
  have hlen : s.sdtData e 1 ≤ 0xFFFFFF := h.registers.sdt e 1 _ rfl
  have hpart : s.vsReg v 0 ≤ s.params.nPart - 1 := h.registers.vs v 0 _ rfl
  have hpos := Params.nPart_pos s.params
  exact {
    alive := ⟨rfl, rfl⟩
    part := show s.vsReg v 0 < s.params.nPart by omega
    key := h.registers.vs v 1 127 rfl
    sample := resolveSample_ok hsample
    bank := hbank
    length := hlen
    loop := hloop
    loopStart := rfl
    loopEnd := rfl
    loopMode := h.registers.sdt e 3 2 rfl
    phaseLow := show R.le R.zero R.zero = true by decide
    phaseHigh := R.zero_lt_ofInt_succ (n := s.sdtData e 1) (by omega)
    refresh := refreshPeriod_pos h.registers.fs }

/-- A note-off changes the release flag and the generators. -/
theorem noteOff_safe {s : State} {x : Voice} (h : VoiceSafe s x) : VoiceSafe s (noteOff s x) := by
  unfold noteOff
  split
  · exact h
  split
  · exact h
  · exact { h with }

theorem noteOff_active (s : State) (x : Voice) : (noteOff s x).active = x.active := by
  unfold noteOff
  split
  · rfl
  split <;> rfl

/-- A voice that is still active after its frame is safe: the phase and the counter have stayed in their ranges, and the
fixed fields are as they were. -/
theorem frameVoice_safe {s : State} (h : RegistersLegal s) {v : Nat} (hx : VoiceSafe s (s.voice v))
    (ha : (frameVoice s v).active = true) : VoiceSafe s (frameVoice s v) := by
  unfold frameVoice at ha ⊢
  obtain ⟨hstep, hend⟩ := endVoice_active ha
  rw [hend]
  unfold frameStep at hstep ⊢
  obtain ⟨hpart, hkey, -, hs, hlen, hloop, hmode, hstart, hlast⟩ :=
    Voice.fixed_fields (voiceStep_fixed s (s.voice v))
  obtain ⟨p, b, hist, hlow, hhigh, hvoice⟩ := voiceStep_active hstep
  obtain ⟨-, -, hfin, -, habort, -, hcnt, -⟩ := refreshIfDue_fields s (s.voice v)
  exact {
    alive := by
      rw [hvoice]
      exact ⟨hfin.trans hx.alive.1, habort.trans hx.alive.2⟩
    part := hpart ▸ hx.part
    key := hkey ▸ hx.key
    sample := hs ▸ hx.sample
    bank := by rw [hs, hlen]; exact hx.bank
    length := hlen ▸ hx.length
    loop := by rw [hloop, hlen]; exact hx.loop
    loopStart := by rw [hstart, hloop, hlen]; exact hx.loopStart
    loopEnd := by rw [hlast, hlen]; exact hx.loopEnd
    loopMode := hmode ▸ hx.loopMode
    phaseLow := by rw [hvoice]; exact hlow
    phaseHigh := by
      unfold Voice.endPhase at hhigh ⊢
      rw [hlen, hvoice]
      exact hhigh
    refresh := by
      rw [hvoice]
      show (refreshIfDue s (s.voice v)).refreshCnt < _
      rw [hcnt]
      exact Nat.mod_lt _ (refreshPeriod_pos h.fs) }

/-! ### The operations -/

section
variable {s : State} (h : Sound s)
include h

/-- Soundness says nothing of the position, the fault record, the streams, the port and the derived tables. -/
theorem Sound.withControl (cp : Nat) (fault : BitVec 32) (cause voice : BitVec 8) (cmd : Word)
    (out : List (BitVec 16 × BitVec 16)) (resp port : List Word) (matrix : Table (List (List Int))) (pbf : Table R) :
    Sound { s with
      cp := cp, fault := fault, faultCause := cause, faultVoice := voice, faultCmd := cmd, out := out, resp := resp
      port := port, matrix := matrix, pbf := pbf } where
  registers := h.registers.withRest ..
  banks := h.banks
  voices v hv ha := (h.voices v hv ha).transfer rfl rfl rfl

theorem Sound.raise (c : Cause) (w : Word) : Sound (raise c w s) := h.withControl ..

theorem Sound.emitResp (w : Word) : Sound (s.emitResp w) := h.withControl ..

/-- The banks and the voices do not read the register files. -/
theorem Sound.withRegisters {sys part drum pdt vs : Table _}
    (hr : RegistersLegal { s with sys := sys, part := part, drum := drum, pdt := pdt, vs := vs }) :
    Sound { s with sys := sys, part := part, drum := drum, pdt := pdt, vs := vs } where
  registers := hr
  banks := h.banks
  voices v hv ha := (h.voices v hv ha).transfer rfl rfl rfl

theorem Sound.setInterp (mode : BitVec 2) (hm : mode.toNat ≤ 2) : Sound { s with interp := mode } where
  registers := h.registers.setInterp mode hm
  banks := h.banks
  voices v hv ha := (h.voices v hv ha).transfer rfl rfl rfl

/-- The rate changes only while no voice is active, so no refresh counter is held to the new period. -/
theorem Sound.setFs (fs : BitVec 32) (hfs : 128 ≤ fs.toNat) (hidle : (s.someActive fun _ => true) = false) :
    Sound { s with fs := fs } where
  registers := h.registers.setFs fs hfs
  banks := h.banks
  voices v hv ha := absurd ((someActive_false s _).mp hidle v hv ha) (by decide)

/-- A descriptor write takes the decoded flag from its bank, whose data stay. -/
theorem Sound.sdtEffect {i field m x : Nat} (hm : sdtMax field = some m) (hx : x ≤ m) :
    Sound (sdtEffect i field x s) where
  registers := (h.registers.setSdtField i hm hx).withRest ..
  banks j hj := by
    unfold Sys2Proof.Machine.sdtEffect at hj ⊢
    rw [bankOf_setBank] at hj ⊢
    split at hj
    · cases hj
    · next hne =>
      have hfield (f : Nat) (hf : f < 256) : (s.setSdtField i field x).sdtField j f = s.sdtField j f := by
        have hfld : field < 256 := by have := sdtMax_lt hm; omega
        rw [sdtField_setSdtField s i x j hfld hf, if_neg fun e => hne e.1]
      obtain ⟨hns, hloaded, hlen⟩ := h.banks j hj
      refine ⟨hns, ?_, ?_⟩
      · unfold State.sdtLoaded at hloaded ⊢
        rw [List.all_eq_true] at hloaded ⊢
        intro f hf
        rw [setBank_sdtField, hfield f (by have := List.mem_range.mp hf; omega)]
        exact hloaded f hf
      · rw [if_neg hne, setBank_sdtData]
        unfold State.sdtData
        rw [hfield 1 (by decide)]
        exact hlen
  voices v hv ha := (h.voices v hv ha).transfer rfl rfl (by
    unfold Sys2Proof.Machine.sdtEffect
    rw [bankOf_setBank]
    split
    · next e => rw [e]
    · rfl)

/-- DECODE fills the bank of a loaded descriptor, which no active voice plays (40_decode_filters.md R87). -/
theorem Sound.decodeBank {e base : Nat} {elements : List F32} (hc : decodeChecks s e = .ok base)
    (hlen : elements.length = s.sdtData e 1 + 1) :
    Sound (s.setBank e { decoded := true, data := elements }) := by
  obtain ⟨hns, hloaded, hidle, -, -⟩ := decodeChecks_ok hc
  refine ⟨h.registers.withRest .., fun j hj => ?_, fun v hv ha => ?_⟩
  · rw [bankOf_setBank] at hj ⊢
    split at hj
    · next hje =>
      rw [if_pos hje, hje]
      exact ⟨hns, hloaded, hlen⟩
    · next hje =>
      rw [if_neg hje]
      exact h.banks j hj
  · refine (h.voices v hv ha).transfer rfl rfl ?_
    have hother : (s.voice v).s ≠ e := by simpa using (someActive_false s _).mp hidle v hv ha
    rw [bankOf_setBank, if_neg hother]

/-- Any safe voice, or an inactive one, may take a slot. -/
theorem Sound.setVoice (v : Nat) {x : Voice} (hx : v < s.params.nv → x.active = true → VoiceSafe s x) :
    Sound (s.setVoice v x) where
  registers := h.registers.withRest ..
  banks := h.banks
  voices j hj ha := by
    rw [voice_setVoice] at ha ⊢
    split at ha
    · next e =>
      rw [if_pos e]
      exact (hx (e ▸ hj) ha).transfer rfl rfl rfl
    · next e =>
      rw [if_neg e]
      exact (h.voices j hj ha).transfer rfl rfl rfl

/-- After RESET no slot is active. -/
theorem Sound.softReset (hp : s.params.legal = true) : Sound (softResetState s) := by
  have hvoice := softResetState_voice s
  obtain ⟨m, f, hshape⟩ := softResetState_shape s
  refine ⟨?_, ?_, fun v hv ha => ?_⟩
  · rw [hshape]
    exact (h.registers.resetRegisters hp).withRest ..
  · rw [hshape]
    exact h.banks
  · have hv' : v < s.params.nv := by rw [hshape] at hv; exact hv
    rw [hvoice, if_pos hv'] at ha
    cases ha

theorem Sound.frame : Sound (frameState s) := by
  have hvoice := frameState_voice s
  obtain ⟨vs, f, c, w, cmd, pair, hshape⟩ := frameState_shape s
  refine ⟨?_, ?_, fun v hv ha => ?_⟩
  · rw [hshape]
    exact h.registers.withRest ..
  · rw [hshape]
    exact h.banks
  · have hv' : v < s.params.nv := by rw [hshape] at hv; exact hv
    have hsafe : VoiceSafe s ((frameState s).voice v) := by
      rw [hvoice] at ha ⊢
      split at ha
      · next hact =>
        rw [if_pos hact]
        exact frameVoice_safe h.registers (h.voices v hv' hact.2) ha
      · next hact => exact absurd ⟨hv', ha⟩ hact
    exact hsafe.transfer (by rw [hshape]) (by rw [hshape]) (by rw [hshape]; rfl)

end

/-! ### A step -/

/-- Every effect of a well-formed command keeps soundness. -/
theorem Sound.effect {i : Instr} {s t : State} (h : Sound s) (hp : s.params.legal = true) (hi : i.wellFormed = true)
    (he : Effect i s t) : Sound t := by
  cases i with
  | nop => cases he; exact h
  | reset => cases he; exact h.softReset hp
  | setfmt fs channels =>
    obtain ⟨-, hfs, hidle, rfl⟩ := he
    simp only [Instr.wellFormed, Bool.and_eq_true, decide_eq_true_eq] at hi
    exact h.setFs _ (by rw [BitVec.toNat_ofNat]; omega) hidle
  | setinterp mode =>
    obtain ⟨hmode, rfl⟩ := he
    exact h.setInterp _ (by rw [BitVec.toNat_ofNat]; omega)
  | sysparam id value =>
    obtain ⟨_, hm, hv, rfl⟩ := he
    exact h.withRegisters (h.registers.setSysReg hm hv)
  | partparam p id value =>
    obtain ⟨-, _, hm, hv, rfl⟩ := he
    obtain ⟨m, f, hshape⟩ := partEffect_shape p id value s
    rw [hshape]
    exact (h.withRegisters (h.registers.setPartReg p hm hv)).withControl ..
  | drumparam map key field value =>
    obtain ⟨_, hm, hv, rfl⟩ := he
    exact h.withRegisters (h.registers.setDrumReg map key hm hv)
  | sdtWr e field value =>
    obtain ⟨-, _, hm, hv, rfl⟩ := he
    exact h.sdtEffect hm hv
  | pdtWr q field value =>
    obtain ⟨-, _, hm, hv, rfl⟩ := he
    exact h.withRegisters (h.registers.setPdtField hp q hm hv)
  | decode e =>
    obtain ⟨_, _, hc, hlen, -, rfl⟩ := he
    exact h.decodeBank hc hlen
  | vsetup v field value =>
    obtain ⟨-, _, hm, hv, rfl⟩ := he
    exact h.withRegisters (h.registers.setVsReg hp v hm hv)
  | vstart v q =>
    obtain ⟨_, hc, rfl⟩ := he
    exact h.setVoice v fun _ _ => startVoice_safe h hc
  | vnoteoff v =>
    obtain ⟨-, rfl⟩ := he
    exact h.setVoice v fun hv ha => noteOff_safe (h.voices v hv (noteOff_active s _ ▸ ha))
  | vkill v =>
    obtain ⟨-, rfl⟩ := he
    exact h.setVoice v fun _ ha => absurd ha Bool.false_ne_true
  | rdvoice v => obtain ⟨-, rfl⟩ := he; exact h.emitResp _
  | rdfault => cases he; exact (h.emitResp _).emitResp _
  | frame => cases he; exact h.frame

theorem Sound.execWord {w : Word} {s t : State} (h : Sound s) (hp : s.params.legal = true)
    (ht : execWord w s = .next t) : Sound t := by
  rcases execWord_cases w s with ⟨c, w', hr⟩ | ⟨i, u, hd, hu, he⟩
  · cases hr.symm.trans ht
    exact h.raise c w'
  · cases hu.symm.trans ht
    exact (h.effect hp (decode_ok hd).1 he).withControl ..

/-- A step is idle, or it executes a word in the state without that word in the port. -/
theorem step_cases {s t : State} (h : step s = .next t) :
    t = s ∨ ∃ w rest, s.port = w :: rest ∧ execWord w { s with port := rest } = .next t := by
  unfold step at h
  split at h
  · cases h
    exact .inl rfl
  · next w rest hport => exact .inr ⟨w, rest, hport, h⟩

/-- Settles O56: an idle step changes nothing, and every word keeps soundness, whether it faults or has its effect. -/
theorem soundKept : Obligations.SoundKept := by
  intro s t hp h hs
  rcases step_cases hs with rfl | ⟨w, rest, -, hw⟩
  · exact h
  · have hport : Sound { s with port := rest } := h.withControl ..
    exact hport.execWord hp hw

end Sys2Proof.Machine
end

section
/-!
The effects of the commands by what they write: FRAME and RESET write several pieces of the state, the three voice commands
write one voice, and every other effect leaves the voices and the fault record alone.
-/

namespace Sys2Proof.Machine

/-- The one voice a voice command writes (42_voice.md R109, R112, R113). -/
inductive VoiceWrite (s : State) : Instr → Nat → Voice → Prop
  | start {v q e : Nat} (checks : startChecks s v q = .ok e) : VoiceWrite s (.vstart v q) v (startVoice s v q e)
  | noteOff {v : Nat} : VoiceWrite s (.vnoteoff v) v (noteOff s (s.voice v))
  | kill {v : Nat} : VoiceWrite s (.vkill v) v { s.voice v with active := false }

/-- The effect of command `i` leaves the position, the parameters, the ROM image, the port, the voices and the fault record
as they were; and no command but PARTPARAM touches the part registers and the bend factors. -/
structure KeepsVoices (i : Instr) (s t : State) : Prop where
  cp : t.cp = s.cp
  params : t.params = s.params
  rom : t.rom = s.rom
  port : t.port = s.port
  voices : t.voices = s.voices
  fault : t.fault = s.fault
  faultCause : t.faultCause = s.faultCause
  faultVoice : t.faultVoice = s.faultVoice
  faultCmd : t.faultCmd = s.faultCmd
  bend : (∀ p id value, i ≠ .partparam p id value) → t.part = s.part ∧ t.pbf = s.pbf

theorem KeepsVoices.refl (i : Instr) (s : State) : KeepsVoices i s s :=
  ⟨rfl, rfl, rfl, rfl, rfl, rfl, rfl, rfl, rfl, fun _ => ⟨rfl, rfl⟩⟩

theorem KeepsVoices.voice {i : Instr} {s t : State} (h : KeepsVoices i s t) (v : Nat) : t.voice v = s.voice v := by
  unfold State.voice
  rw [h.voices]

/-- The four kinds of effects. -/
theorem Effect.kinds {i : Instr} {s t : State} (he : Effect i s t) :
    (i = .frame ∧ t = frameState s) ∨ (i = .reset ∧ t = softResetState s) ∨
      (∃ v x, VoiceWrite s i v x ∧ t = s.setVoice v x) ∨ KeepsVoices i s t := by
  cases i with
  | frame => exact .inl ⟨rfl, he⟩
  | reset => exact .inr (.inl ⟨rfl, he⟩)
  | vstart v q =>
    obtain ⟨e, hc, rfl⟩ := he
    exact .inr (.inr (.inl ⟨v, _, .start hc, rfl⟩))
  | vnoteoff v => exact .inr (.inr (.inl ⟨v, _, .noteOff, he.2⟩))
  | vkill v => exact .inr (.inr (.inl ⟨v, _, .kill, he.2⟩))
  | partparam p id value =>
    obtain ⟨-, _, -, -, rfl⟩ := he
    obtain ⟨m, f, hshape⟩ := partEffect_shape p id value s
    rw [hshape]
    exact .inr (.inr (.inr ⟨rfl, rfl, rfl, rfl, rfl, rfl, rfl, rfl, rfl, fun h => absurd rfl (h _ _ _)⟩))
  | nop => cases he; exact .inr (.inr (.inr (.refl ..)))
  | setfmt fs channels => obtain ⟨-, -, -, rfl⟩ := he; exact .inr (.inr (.inr { KeepsVoices.refl _ s with }))
  | setinterp mode => obtain ⟨-, rfl⟩ := he; exact .inr (.inr (.inr { KeepsVoices.refl _ s with }))
  | sysparam id value => obtain ⟨_, -, -, rfl⟩ := he; exact .inr (.inr (.inr { KeepsVoices.refl _ s with }))
  | drumparam map key field value =>
    obtain ⟨_, -, -, rfl⟩ := he; exact .inr (.inr (.inr { KeepsVoices.refl _ s with }))
  | sdtWr e field value => obtain ⟨-, _, -, -, rfl⟩ := he; exact .inr (.inr (.inr { KeepsVoices.refl _ s with }))
  | pdtWr q field value => obtain ⟨-, _, -, -, rfl⟩ := he; exact .inr (.inr (.inr { KeepsVoices.refl _ s with }))
  | decode e => obtain ⟨_, _, -, -, -, rfl⟩ := he; exact .inr (.inr (.inr { KeepsVoices.refl _ s with }))
  | vsetup v field value => obtain ⟨-, _, -, -, rfl⟩ := he; exact .inr (.inr (.inr { KeepsVoices.refl _ s with }))
  | rdvoice v => obtain ⟨-, rfl⟩ := he; exact .inr (.inr (.inr { KeepsVoices.refl _ s with }))
  | rdfault => cases he; exact .inr (.inr (.inr { KeepsVoices.refl _ s with }))

/-- No effect moves the position, and none changes the parameters, the ROM image or the port. -/
theorem Effect.control {i : Instr} {s t : State} (he : Effect i s t) :
    t.cp = s.cp ∧ t.params = s.params ∧ t.rom = s.rom ∧ t.port = s.port := by
  rcases he.kinds with ⟨-, rfl⟩ | ⟨-, rfl⟩ | ⟨v, x, -, rfl⟩ | h
  · obtain ⟨vs, f, c, w, cmd, pair, hshape⟩ := frameState_shape s
    rw [hshape]
    exact ⟨rfl, rfl, rfl, rfl⟩
  · obtain ⟨m, f, hshape⟩ := softResetState_shape s
    rw [hshape]
    exact ⟨rfl, rfl, rfl, rfl⟩
  · exact ⟨rfl, rfl, rfl, rfl⟩
  · exact ⟨h.cp, h.params, h.rom, h.port⟩

/-- Settles O9: a fault and a completed effect each advance the position once. -/
theorem positionAdvances : Obligations.PositionAdvances := by
  refine ⟨rfl, fun w s => ?_⟩
  rcases execWord_cases w s with ⟨c, w', h⟩ | ⟨i, t, -, h, he⟩
  · exact ⟨_, h, rfl⟩
  · exact ⟨_, h, congrArg (· + 1) he.control.1⟩

/-! ### What VSTART latched stays -/

theorem Voice.latched_of_fixed {x y : Voice} (h : x.fixed = y.fixed) : x.latched = y.latched :=
  congrArg (fun z : Voice => { z with releasing := false }) h

theorem noteOff_latched (s : State) (x : Voice) :
    (noteOff s x).latched = x.latched ∧ (noteOff s x).isLooping = x.isLooping := by
  unfold noteOff
  split
  · exact ⟨rfl, rfl⟩
  split <;> exact ⟨rfl, rfl⟩

/-- A voice step sets the loop flag or leaves it (43_oscillator.md R119). -/
theorem voiceStep_isLooping (s : State) (x : Voice) (h : x.isLooping = true) :
    (voiceStep s x).voice.isLooping = true := by
  obtain ⟨-, -, -, hkept, -⟩ := refreshIfDue_fields s x
  have hrefresh : (refreshIfDue s x).isLooping = true := hkept.trans h
  rcases voiceStep_cases s x with ⟨p, e, -⟩ | ⟨p, e, -⟩ | ⟨p, b, hist, -, -, hb, ⟨l, r, e, -⟩ | e⟩
  · rw [e]; exact hrefresh
  · rw [e]; exact hrefresh
  · rw [e]; exact hb h
  · rw [e]; exact hb h

theorem frameVoice_latched (s : State) (v : Nat) :
    (frameVoice s v).latched = (s.voice v).latched ∧
      ((s.voice v).isLooping = true → (frameVoice s v).isLooping = true) := by
  unfold frameVoice
  obtain ⟨a, f, hend⟩ := endVoice_shape (frameStep s v).voice
  rw [hend]
  exact ⟨Voice.latched_of_fixed (voiceStep_fixed s (s.voice v)), voiceStep_isLooping s (s.voice v)⟩

/-- Between the starts of its slot a voice keeps what VSTART latched. -/
theorem Effect.latched {i : Instr} {s t : State} {v : Nat} (he : Effect i s t) (hreset : i ≠ .reset)
    (hstart : ∀ q, i ≠ .vstart v q) :
    (t.voice v).latched = (s.voice v).latched ∧
      ((s.voice v).isLooping = true → (t.voice v).isLooping = true) := by
  rcases he.kinds with ⟨-, rfl⟩ | ⟨rfl, -⟩ | ⟨j, x, hx, rfl⟩ | h
  · rw [frameState_voice]
    split
    · exact frameVoice_latched s v
    · exact ⟨rfl, id⟩
  · exact absurd rfl hreset
  · rw [voice_setVoice]
    split
    · next hv =>
      subst hv
      cases hx with
      | start hc => exact absurd rfl (hstart _)
      | noteOff =>
        obtain ⟨hlatched, hloop⟩ := noteOff_latched s (s.voice v)
        exact ⟨hlatched, fun h => hloop.trans h⟩
      | kill => exact ⟨rfl, id⟩
    · exact ⟨rfl, id⟩
  · rw [h.voice]
    exact ⟨rfl, id⟩

/-- Settles O40: a fault leaves the voices alone, and so does every effect in the fields of the statement. -/
theorem voiceFieldsStay : Obligations.VoiceFieldsStay := by
  intro i s v _ hreset hstart
  rcases exec_cases i s with ⟨-, c, h⟩ | ⟨t, h, he⟩
  · exact ⟨_, h, rfl, id⟩
  · exact ⟨_, h, he.latched hreset hstart⟩

end Sys2Proof.Machine
end

section
/-!
The fault record as an invariant: the first fault since the last reset is kept, with its bit set (10_state.md R24, R25,
60_exceptions.md R146).
-/

namespace Sys2Proof.Machine

theorem FaultRecord.transfer {s t : State} (h : FaultRecord s) (hfault : t.fault = s.fault)
    (hcause : t.faultCause = s.faultCause) (hvoice : t.faultVoice = s.faultVoice) (hcmd : t.faultCmd = s.faultCmd) :
    FaultRecord t where
  reserved := hfault ▸ h.reserved
  cleared := by rw [hfault, hcause, hvoice, hcmd]; exact h.cleared
  first := by rw [hfault, hcause]; exact h.first
  voice := by rw [hcause, hvoice, hcmd]; exact h.voice

theorem FaultRecord.clearFaults (s : State) : FaultRecord (clearFaults s) where
  reserved := show (0 : BitVec 32).toNat < 4096 by decide
  cleared _ := ⟨rfl, rfl, rfl⟩
  first h := absurd rfl h
  voice h := absurd rfl h

/-- The faults a frame takes (60_exceptions.md R144). -/
def Cause.isRuntime (c : Cause) : Prop := c = .phase ∨ c = .numeric

theorem Cause.isRuntime.code {c : Cause} (h : c.isRuntime) :
    BitVec.ofNat 8 c.code = 11 ∨ BitVec.ofNat 8 c.code = 12 := by
  rcases h with rfl | rfl
  · exact .inl rfl
  · exact .inr rfl

theorem or_bit_lt {x : BitVec 32} (h : x.toNat < 4096) (c : Cause) : (x ||| c.bit).toNat < 4096 := by
  rw [BitVec.toNat_or]
  exact Nat.or_lt_two_pow (n := 12) h c.bit_lt

/-- A bit that is set stays set. -/
theorem or_and_ne_zero {x y z : BitVec 32} (h : x &&& z ≠ 0) : (x ||| y) &&& z ≠ 0 := by
  rw [BitVec.and_comm, BitVec.and_or_distrib_left]
  intro h0
  exact h (BitVec.and_comm x z ▸ (BitVec.or_eq_zero_iff.mp h0).1)

/-- Recording keeps the record: where it is clear the new fault becomes the first, else the first one stays. A voice is
named by a runtime fault alone. -/
theorem FaultRecord.record {s : State} (h : FaultRecord s) (c : Cause) (v : BitVec 8) (w : Word)
    (hv : v ≠ 0xFF → c.isRuntime ∧ w = encode .frame) : FaultRecord (record c v w s) where
  reserved := or_bit_lt h.reserved c
  cleared h0 := absurd h0 (record_fault_ne_zero c v w s)
  first _ := by
    rw [record_faultCause, record_fault]
    split
    · next h0 =>
      refine ⟨c, rfl, ?_⟩
      rw [h0]
      show (0#32 ||| c.bit) &&& c.bit ≠ 0
      rw [BitVec.zero_or, BitVec.and_self]
      exact c.bit_ne_zero
    · next h0 =>
      obtain ⟨first, hcause, hbit⟩ := h.first h0
      exact ⟨first, hcause, or_and_ne_zero hbit⟩
  voice := by
    rw [record_faultVoice, record_faultCause, record_faultCmd]
    split
    · exact fun hne => ⟨(hv hne).1.code, (hv hne).2⟩
    · exact h.voice

theorem FaultRecord.raise {s : State} (h : FaultRecord s) (c : Cause) (w : Word) : FaultRecord (raise c w s) :=
  (h.record c 0xFF w fun hne => absurd rfl hne).transfer rfl rfl rfl rfl

theorem FaultRecord.recordFrame {s : State} (h : FaultRecord s) {l : List (Nat × Cause)}
    (hl : ∀ e ∈ l, e.2.isRuntime) : FaultRecord (recordFrame l s) := by
  induction l generalizing s with
  | nil => exact h
  | cons e l ih =>
    have he : e.2.isRuntime := hl e (by simp)
    exact ih (h.record e.2 _ _ fun _ => ⟨he, rfl⟩) fun e he => hl e (by simp [he])

theorem faultsOf_isRuntime {s : State} {l : List Nat} : ∀ e ∈ faultsOf s l, e.2.isRuntime := by
  intro e he
  unfold faultsOf at he
  obtain ⟨v, -, hv⟩ := List.mem_filterMap.mp he
  obtain ⟨c, hc, rfl⟩ := Option.map_eq_some_iff.mp hv
  exact (voiceStep_fault s (s.voice v) hc).1

theorem FaultRecord.frame {s : State} (h : FaultRecord s) : FaultRecord (frameState s) := by
  have hstate : ({ (mixVoices s).st with voices := s.voices } : State) =
      Machine.recordFrame (faultsOf s (List.range s.params.nv)) s := (mixVoices_spec s).state
  have hrecorded : FaultRecord ({ (mixVoices s).st with voices := s.voices } : State) := by
    rw [hstate]
    exact h.recordFrame faultsOf_isRuntime
  have hmix : FaultRecord (mixVoices s).st := hrecorded.transfer rfl rfl rfl rfl
  obtain ⟨t, l, r, ht, he⟩ := emitMix_shape (mixVoices s)
  have hend : FaultRecord t := by
    rcases ht with rfl | rfl
    · exact hmix
    · exact hmix.record _ _ _ fun hne => absurd rfl hne
  unfold frameState
  rw [he]
  exact hend.transfer rfl rfl rfl rfl

theorem FaultRecord.effect {i : Instr} {s t : State} (h : FaultRecord s) (he : Effect i s t) : FaultRecord t := by
  rcases he.kinds with ⟨-, rfl⟩ | ⟨-, rfl⟩ | ⟨v, x, -, rfl⟩ | hk
  · exact h.frame
  · exact FaultRecord.clearFaults _
  · exact h.transfer rfl rfl rfl rfl
  · exact h.transfer hk.fault hk.faultCause hk.faultVoice hk.faultCmd

theorem FaultRecord.execWord {w : Word} {s t : State} (h : FaultRecord s) (ht : execWord w s = .next t) :
    FaultRecord t := by
  rcases execWord_cases w s with ⟨c, w', hr⟩ | ⟨i, u, -, hu, he⟩
  · cases hr.symm.trans ht
    exact h.raise c w'
  · cases hu.symm.trans ht
    exact (h.effect he).transfer rfl rfl rfl rfl

/-- Settles O57: every fault a command or a frame takes keeps the record, and RESET clears it. -/
theorem faultRecordKept : Obligations.FaultRecordKept := by
  intro s t h hs
  rcases step_cases hs with rfl | ⟨w, rest, -, hw⟩
  · exact h
  · have hport : FaultRecord { s with port := rest } := h.transfer rfl rfl rfl rfl
    exact hport.execWord hw

end Sys2Proof.Machine
end

section
/-!
The two caches as invariants: the bend factor of every part is that of its registers (10_state.md R30, 41_parameters.md
R92), and the coefficients of every TVF are those of its key (10_state.md R42, R43, 44_envelopes.md R131).
-/

namespace Sys2Proof.Machine

/-! ### The bend factors -/

theorem PbfCurrent.transfer {s t : State} (h : PbfCurrent s) (hparams : t.params = s.params) (hpart : t.part = s.part)
    (hpbf : t.pbf = s.pbf) : PbfCurrent t := by
  intro p hp
  unfold State.pbfOf State.partReg
  rw [hparams, hpart, hpbf]
  exact h p (hparams ▸ hp)

/-- PARTPARAM computes the bend factor again when it writes one of the two registers that factor reads (R98). -/
theorem PbfCurrent.partEffect {s : State} (h : PbfCurrent s) {id m : Nat} (p value : Nat) (hm : partMax id = some m) :
    PbfCurrent (partEffect p id value s) := by
  have hid := partMax_lt hm
  unfold Sys2Proof.Machine.partEffect
  extract_lets s1 s2
  have hs2 : ∃ mx, s2 = { s1 with matrix := mx } := by
    unfold s2
    split
    · exact ⟨_, rfl⟩
    · exact ⟨s1.matrix, rfl⟩
  obtain ⟨mx, hs2⟩ := hs2
  have hkept : ∀ q, q < s.params.nPart → ¬ (q = p ∧ (id = 0x21 ∨ id = depthId 1 0)) →
      s.pbfOf q = pbfValue s.params.numerics (s1.partReg q 0x21) (s1.partReg q 0x50) := by
    intro q hq hne
    unfold s1
    rw [partReg_setPartReg s p value q hid (by decide), partReg_setPartReg s p value q hid (by decide), if_neg, if_neg]
    · exact h q hq
    · rintro ⟨rfl, hf⟩
      exact hne ⟨rfl, .inr hf.symm⟩
    · rintro ⟨rfl, hf⟩
      exact hne ⟨rfl, .inl hf.symm⟩
  rw [hs2]
  by_cases htrig : id = 0x21 ∨ id = depthId 1 0
  · rw [if_pos htrig]
    intro q hq
    unfold recomputePbf
    rw [pbfOf_setPbf]
    split
    · next hqp =>
      subst hqp
      rfl
    · next hqp => exact hkept q hq fun e => hqp e.1
  · rw [if_neg htrig]
    exact fun q hq => hkept q hq fun e => htrig e.2

/-- RESET computes every bend factor again (R94). -/
theorem PbfCurrent.softReset (s : State) : PbfCurrent (softResetState s) := by
  intro p hp
  obtain ⟨m, f, hshape⟩ := softResetState_shape s
  have hp' : p < s.params.nPart := by rw [hshape] at hp; exact hp
  have hspec := (recomputeParts_spec s.params.nPart (resetVoices (resetRegisters s)) p).2
  rw [if_pos hp'] at hspec
  have hpart : (softResetState s).partReg = (resetVoices (resetRegisters s)).partReg := by rw [hshape]; rfl
  have hparams : (softResetState s).params = s.params := by rw [hshape]; rfl
  rw [hpart, hparams]
  exact hspec

theorem PbfCurrent.effect {i : Instr} {s t : State} (h : PbfCurrent s) (he : Effect i s t) : PbfCurrent t := by
  rcases he.kinds with ⟨-, rfl⟩ | ⟨-, rfl⟩ | ⟨v, x, -, rfl⟩ | hk
  · obtain ⟨vs, f, c, w, cmd, pair, hshape⟩ := frameState_shape s
    rw [hshape]
    exact h.transfer rfl rfl rfl
  · exact .softReset s
  · exact h.transfer rfl rfl rfl
  · by_cases hi : ∃ p id value, i = .partparam p id value
    · obtain ⟨p, id, value, rfl⟩ := hi
      obtain ⟨-, m, hm, -, rfl⟩ := he
      exact h.partEffect p value hm
    · obtain ⟨hpart, hpbf⟩ := hk.bend fun p id value e => hi ⟨p, id, value, e⟩
      exact h.transfer hk.params hpart hpbf

theorem PbfCurrent.execWord {w : Word} {s t : State} (h : PbfCurrent s) (ht : execWord w s = .next t) :
    PbfCurrent t := by
  rcases execWord_cases w s with ⟨c, w', hr⟩ | ⟨i, u, -, hu, he⟩
  · cases hr.symm.trans ht
    exact h.transfer rfl rfl rfl
  · cases hu.symm.trans ht
    exact (h.effect he).transfer rfl rfl rfl

/-! ### The TVF coefficients -/

/-- The coefficients are those of the key, if there is one. -/
def Tvf.Current (N : Numerics) (f : Tvf) : Prop :=
  ∀ k, f.key = some k → f.coeffs = lpCoeffs N k.cutoff k.quality k.fs

theorem Tvf.Current.congr {N : Numerics} {f g : Tvf} (h : f.Current N) (hkey : g.key = f.key)
    (hcoeffs : g.coeffs = f.coeffs) : g.Current N := by
  unfold Tvf.Current
  rw [hkey, hcoeffs]
  exact h

theorem tvfCacheValid_iff (s : State) : TvfCacheValid s ↔ ∀ v, (s.voice v).tvf.Current s.params.numerics := Iff.rfl

/-- A key that hits is equal to the wanted one as values (R131). -/
theorem cacheHit_cases {cached : Option TvfKey} {k : TvfKey} (h : cacheHit cached k = true) :
    ∃ c, cached = some c ∧ R.eqv c.cutoff k.cutoff = true ∧ R.eqv c.quality k.quality = true ∧ c.fs = k.fs := by
  cases cached with
  | none => cases h
  | some c =>
    simp only [cacheHit, TvfKey.same, Bool.and_eq_true, beq_iff_eq] at h
    obtain ⟨⟨hcutoff, hquality⟩, hfs⟩ := h
    exact ⟨c, rfl, hcutoff, hquality, hfs⟩

/-- After a refresh the cache has a key, its coefficients are those of the key, and the key is the current cutoff, quality
and rate, the first two at least as values (R131). -/
theorem refreshTvf_spec (s : State) (x : Voice) (h : x.tvf.Current s.params.numerics) :
    ∃ k, (refreshTvf s x).tvf.key = some k ∧
      (refreshTvf s x).tvf.coeffs = lpCoeffs s.params.numerics k.cutoff k.quality k.fs ∧
      (refreshTvf s x).tvf.hist = x.tvf.hist ∧ k.fs = s.fs.toNat ∧
      ((k.cutoff = tvfCutoff s x ∧ k.quality = tvfQuality s x) ∨
       (R.eqv k.cutoff (tvfCutoff s x) = true ∧ R.eqv k.quality (tvfQuality s x) = true)) := by
  unfold refreshTvf
  extract_lets k
  split
  · next hhit =>
    obtain ⟨c, hkey, hcutoff, hquality, hfs⟩ := cacheHit_cases hhit
    exact ⟨c, hkey, h c hkey, rfl, hfs, .inr ⟨hcutoff, hquality⟩⟩
  · exact ⟨k, rfl, rfl, rfl, rfl, .inl ⟨rfl, rfl⟩⟩

theorem refreshTvf_current {s : State} {x : Voice} (h : x.tvf.Current s.params.numerics) :
    (refreshTvf s x).tvf.Current s.params.numerics := by
  obtain ⟨k, hkey, hcoeffs, -⟩ := refreshTvf_spec s x h
  intro j hj
  cases hkey.symm.trans hj
  exact hcoeffs

theorem refreshIfDue_current {s : State} {x : Voice} (h : x.tvf.Current s.params.numerics) :
    (refreshIfDue s x).tvf.Current s.params.numerics := by
  unfold refreshIfDue
  extract_lets x1
  split
  · exact refreshTvf_current (x := refreshGenerators s (refreshTuning s x1)) h
  · exact h

/-- After the refresh a voice step touches the filter's history alone. -/
theorem voiceStep_tvf (s : State) (x : Voice) :
    (voiceStep s x).voice.tvf.key = (refreshIfDue s x).tvf.key ∧
      (voiceStep s x).voice.tvf.coeffs = (refreshIfDue s x).tvf.coeffs := by
  rcases voiceStep_cases s x with ⟨p, e, -⟩ | ⟨p, e, -⟩ | ⟨p, b, hist, -, -, -, ⟨l, r, e, -⟩ | e⟩ <;> rw [e] <;>
    exact ⟨rfl, rfl⟩

theorem frameVoice_current {s : State} {v : Nat} (h : (s.voice v).tvf.Current s.params.numerics) :
    (frameVoice s v).tvf.Current s.params.numerics := by
  unfold frameVoice
  obtain ⟨a, f, hend⟩ := endVoice_shape (frameStep s v).voice
  rw [hend]
  obtain ⟨hkey, hcoeffs⟩ := voiceStep_tvf s (s.voice v)
  exact (refreshIfDue_current h).congr hkey hcoeffs

theorem noteOff_tvf (s : State) (x : Voice) : (noteOff s x).tvf = x.tvf := by
  unfold noteOff
  split
  · rfl
  split <;> rfl

/-- VSTART empties the cache (42_voice.md R109); a note-off and a kill leave it. -/
theorem VoiceWrite.current {s : State} {i : Instr} {v : Nat} {x : Voice} (hx : VoiceWrite s i v x)
    (h : (s.voice v).tvf.Current s.params.numerics) : x.tvf.Current s.params.numerics := by
  cases hx with
  | start hc => exact fun k hk => nomatch hk
  | noteOff => rw [noteOff_tvf]; exact h
  | kill => exact h

theorem TvfCacheValid.transfer {s t : State} (h : TvfCacheValid s) (hparams : t.params = s.params)
    (hvoice : ∀ v, t.voice v = s.voice v) : TvfCacheValid t := by
  rw [tvfCacheValid_iff] at h ⊢
  intro v
  rw [hparams, hvoice]
  exact h v

theorem TvfCacheValid.effect {i : Instr} {s t : State} (h : TvfCacheValid s) (he : Effect i s t) : TvfCacheValid t := by
  obtain ⟨-, hparams, -, -⟩ := he.control
  rw [tvfCacheValid_iff] at h ⊢
  intro v
  rw [hparams]
  rcases he.kinds with ⟨-, rfl⟩ | ⟨-, rfl⟩ | ⟨j, x, hx, rfl⟩ | hk
  · rw [frameState_voice]
    split
    · exact frameVoice_current (h v)
    · exact h v
  · rw [softResetState_voice]
    split
    · exact h v
    · exact h v
  · rw [voice_setVoice]
    split
    · exact hx.current (h j)
    · exact h v
  · rw [hk.voice]
    exact h v

theorem TvfCacheValid.execWord {w : Word} {s t : State} (h : TvfCacheValid s) (ht : execWord w s = .next t) :
    TvfCacheValid t := by
  rcases execWord_cases w s with ⟨c, w', hr⟩ | ⟨i, u, -, hu, he⟩
  · cases hr.symm.trans ht
    exact h.transfer rfl fun _ => rfl
  · cases hu.symm.trans ht
    exact (h.effect he).transfer rfl fun _ => rfl

/-- Settles O59: PARTPARAM and RESET compute the bend factors again, and a refresh writes coefficients and key together. -/
theorem cachesKept : Obligations.CachesKept := by
  refine ⟨fun s t h hs => ?_, fun s t h hs => ?_⟩
  · rcases step_cases hs with rfl | ⟨w, rest, -, hw⟩
    · exact h
    · have hport : PbfCurrent { s with port := rest } := h.transfer rfl rfl rfl
      exact hport.execWord hw
  · rcases step_cases hs with rfl | ⟨w, rest, -, hw⟩
    · exact h
    · have hport : TvfCacheValid { s with port := rest } := h.transfer rfl fun _ => rfl
      exact hport.execWord hw

/-! ### The cutoff in the reference -/

/-- Without envelope and LFO output the reference cutoff is its base (44_envelopes.md R136). -/
theorem tvfCutoff_reference {s : State} (x : Voice) (hN : s.params.numerics = .reference)
    (henv : s.params.env = .reference) (hlfo : s.params.lfo = .reference) (hmap : s.params.tvfMap = .reference) :
    tvfCutoff s x = R.ofInt 8000 := by
  have hsum : R.add (R.add (R.add (R.ofInt 8000) R.zero) (R.mul R.zero R.zero)) (R.mul R.zero R.zero) =
      R.ofInt 8000 := by decide +kernel
  unfold tvfCutoff envInputs
  rw [hN, henv, hlfo, hmap]
  exact hsum

theorem tvfQRef_eq : tvfQRef = R.ofRat 7071067811865476 10000000000000000 := by decide +kernel

/-- Settles O52, from the sum of `tvfCutoff`, its reference value, and what a refresh does to the cache. -/
theorem coefficientsCurrent : Obligations.CoefficientsCurrent := by
  refine ⟨fun s x => ⟨rfl, rfl⟩, fun s x hN henv hlfo hmap => ⟨tvfCutoff_reference x hN henv hlfo hmap, ?_⟩,
    fun s x h => refreshTvf_spec s x h⟩
  unfold tvfQuality
  rw [hmap]
  exact tvfQRef_eq

end Sys2Proof.Machine
end

section
/-!
The state after hardware reset: what its registers read, and that every invariant holds of it (10_state.md R47,
70_reset_and_hazards.md R158). No table lists an entry, so every read answers its default.
-/

namespace Sys2Proof.Machine

/-! ### The columns of the part parameters -/

theorem isDepthId_iff (id : Nat) : isDepthId id = true ↔ 0x40 ≤ id ∧ (id - 0x40) / 16 ≤ 5 ∧ (id - 0x40) % 16 ≤ 10 := by
  unfold isDepthId
  exact decide_eq_true_iff

theorem partMax_depth {src d : Nat} (hs : src ≤ 5) (hd : d ≤ 10) : partMax (0x40 + 16 * src + d) = some 127 := by
  have hid : isDepthId (0x40 + 16 * src + d) = true := (isDepthId_iff _).mpr (by omega)
  unfold partMax
  rw [if_neg (by omega), if_neg (by omega), if_neg (by omega), if_neg (by omega), if_neg (by omega), if_pos hid]

theorem partMax_none {id : Nat} (hlow : 0x1B ≤ id) (hswitch : id < 0x20 ∨ 0x25 < id)
    (hdepth : id < 0x40 ∨ 0xA0 ≤ id ∨ 11 ≤ (id - 0x40) % 16) : partMax id = none := by
  have hid : ¬ isDepthId id = true := by
    rw [isDepthId_iff]
    omega
  unfold partMax
  rw [if_neg (by omega), if_neg (by omega), if_neg (by omega), if_neg (by omega), if_neg (by omega), if_neg hid]

/-- Settles O21, range by range of the ids. -/
theorem partRegisterColumns : Obligations.PartRegisterColumns := by
  refine ⟨fun id hid => ?_, fun id hlow hhigh => ?_, fun src d hs hd => partMax_depth hs hd,
    fun id hlow h => partMax_none hlow (by omega) (by omega), fun src d hs hlow hhigh =>
    partMax_none (by omega) (by omega) (by omega)⟩
  · unfold partMax
    split_ifs <;> rfl
  · unfold partMax
    rw [if_neg (by omega), if_neg (by omega), if_neg (by omega)]
    by_cases hbend : id = 0x21
    · rw [if_pos hbend, if_pos hbend]
    · rw [if_neg hbend, if_pos ⟨hlow, hhigh⟩, if_neg hbend]

/-! ### What the registers read after hardware reset -/

section
variable (p : Params) (rom : List Host.Cell)

theorem resetOf_partReg (part : Nat) {id : Nat} (hid : id < 256) :
    (State.resetOf p rom).partReg part id = partReset id :=
  congrArg partReset (regKey_mod hid)

theorem resetOf_vsReg (v : Nat) {field : Nat} (hf : field < 256) : (State.resetOf p rom).vsReg v field = vsReset field :=
  congrArg vsReset (regKey_mod hf)

theorem resetOf_drumReg (m : Nat) {k field : Nat} (hk : k < 128) (hf : field < 256) :
    (State.resetOf p rom).drumReg m k field = drumReset k field := by
  show drumReset (regKey (m * 128 + k) field / 256 % 128) (regKey (m * 128 + k) field % 256) = _
  rw [regKey_mod hf, regKey_div hf]
  congr 1
  omega

theorem resetOf_matrixEntry (part d src : Nat) : (State.resetOf p rom).matrixEntry part d src = 0 := by
  have hrow : ∀ n, (List.replicate n (0 : Int)).getD src 0 = 0 := by
    intro n
    rw [List.getD_eq_getElem?_getD, List.getElem?_replicate]
    split <;> rfl
  have hrows : ∀ n, ((List.replicate n (List.replicate 6 (0 : Int))).getD d []).getD src 0 = 0 := by
    intro n
    rw [List.getD_eq_getElem?_getD (l := List.replicate n _), List.getElem?_replicate]
    split
    · exact hrow 6
    · rfl
  exact hrows 11

theorem partReset_default {id : Nat} (h : id ≤ 0x1A) (hne : id ∉ [0x02, 0x03, 0x10, 0x11]) : partReset id = 0x40 := by
  simp only [List.mem_cons, List.not_mem_nil, or_false, not_or] at hne
  unfold partReset
  split_ifs <;> omega

theorem partReset_depth {src d : Nat} (hs : src ≤ 5) (hd : d ≤ 10) :
    partReset (0x40 + 16 * src + d) = if d ∈ [0, 1, 2, 3, 7] then 0x40 else 0 := by
  have hid : isDepthId (0x40 + 16 * src + d) = true := (isDepthId_iff _).mpr (by omega)
  have hmod : (0x40 + 16 * src + d - 0x40) % 16 = d := by omega
  have hbias : bias d = if d ∈ [0, 1, 2, 3, 7] then 0x40 else 0 := by
    unfold bias
    refine if_congr ?_ rfl rfl
    simp only [List.mem_cons, List.not_mem_nil, or_false]
    omega
  unfold partReset
  rw [if_neg (by omega), if_neg (by omega), if_neg (by omega), if_neg (by omega), if_neg (by omega), if_neg (by omega),
    if_pos hid, hmod, hbias]

theorem vsReset_instTV {k : Nat} : vsReset (0x10 + k) = 0 := by
  unfold vsReset
  split_ifs <;> omega

end

/-- Settles O14: each register file reads as its reset column, the rest as `State.resetOf` writes it. -/
theorem resetValues : Obligations.ResetValues := by
  intro p rom
  refine ⟨rfl, rfl, rfl, rfl, rfl, rfl, rfl, rfl, rfl, rfl, fun part => ?_, resetOf_matrixEntry p rom, fun _ => rfl,
    fun m k _ hk => ?_, fun _ _ => ⟨rfl, rfl⟩, fun _ => rfl, fun v => ?_⟩
  · have hreg : ∀ id, id < 256 → (State.resetOf p rom).partReg part id = partReset id :=
      fun _ => resetOf_partReg p rom part
    refine ⟨?_, fun id hid hne => ?_, hreg _ (by decide), fun id hid => ?_, fun src d hs hd => ?_⟩
    · simp only [List.map_cons, List.map_nil, hreg 0x02 (by decide), hreg 0x03 (by decide), hreg 0x10 (by decide),
        hreg 0x11 (by decide)]
      rfl
    · rw [hreg id (by omega), partReset_default hid hne]
    · have hzero : ∀ id ∈ [0x20, 0x22, 0x23, 0x24, 0x25], id < 256 ∧ partReset id = 0 := by decide
      rw [hreg id (hzero id hid).1, (hzero id hid).2]
    · rw [hreg _ (by omega), partReset_depth hs hd]
  · exact ⟨resetOf_drumReg p rom m hk (by decide), resetOf_drumReg p rom m hk (by decide)⟩
  · have hreg : ∀ f, f < 256 → (State.resetOf p rom).vsReg v f = vsReset f := fun _ => resetOf_vsReg p rom v
    refine ⟨?_, fun k hk => ?_, rfl, rfl, rfl, rfl, rfl, rfl, rfl, rfl, rfl⟩
    · simp only [List.map_cons, List.map_nil, hreg 0 (by decide), hreg 1 (by decide), hreg 2 (by decide),
        hreg 3 (by decide), hreg 4 (by decide), hreg 5 (by decide)]
      rfl
    · rw [hreg _ (by omega), vsReset_instTV]

/-! ### The invariants -/

theorem Numerics.div_exact (N : Numerics) {x y : R} (h : (x.isZero && y.isFinite && !y.isZero) = true) :
    N.div x y = R.div x y := by
  cases N with
  | reference => rfl
  | other n => exact if_pos h

theorem Numerics.mul_exact (N : Numerics) {x y : R} (h : exactAtZero x y = true) : N.mul x y = R.mul x y := by
  cases N with
  | reference => rfl
  | other n => exact if_pos h

theorem Numerics.exp_zero (N : Numerics) : N.exp R.zero = R.one := by
  cases N with
  | reference => decide +kernel
  | other n => exact if_pos (e := Config.numExp n R.zero) (show R.eqv R.zero R.zero = true by decide)

/-- The centred bend with the centred control gives 1.0 in every arithmetic: each operation has a zero operand, where every
`NUMERICS` is exact (41_parameters.md R92; log entry 3). -/
theorem pbfValue_centred (N : Numerics) : pbfValue N 8192 0x40 = R.one := by
  have hratio : N.div (R.ofInt 0) (R.ofInt 8192) = R.zero :=
    (Numerics.div_exact N (by decide +kernel)).trans (by decide +kernel)
  have hbend : N.mul R.zero (R.ofInt 0) = R.zero := (Numerics.mul_exact N (by decide)).trans (by decide +kernel)
  have hln : N.mul R.zero LN2 = R.zero := (Numerics.mul_exact N (by decide)).trans (by decide +kernel)
  have htwelfth : N.div R.zero (R.ofInt 12) = R.zero :=
    (Numerics.div_exact N (by decide +kernel)).trans (by decide +kernel)
  unfold pbfValue
  rw [show Int.ofNat 8192 - 8192 = 0 from rfl, show Int.ofNat 0x40 - 0x40 = 0 from rfl, hratio, hbend, hln, htwelfth,
    Numerics.exp_zero]

section
variable (p : Params) (rom : List Host.Cell)

theorem Canonical.resetOf (hp : p.legal = true) (hrom : Memory.wf p.romSize rom = true) :
    Canonical (State.resetOf p rom) :=
  ⟨hp, hrom, rfl, rfl, rfl, rfl, rfl, rfl, rfl, rfl, rfl, rfl⟩

/-- A state with nothing written has legal registers, whatever its position, derived tables and voices. -/
theorem RegistersLegal.resetOf (hp : p.legal = true) : RegistersLegal (State.resetOf p rom) where
  fs := show 128 ≤ (44100 : BitVec 32).toNat by decide
  interp := show (2 : BitVec 2).toNat ≤ 2 by decide
  sys _ _ hm := sysReset_le hm
  part q _ _ hm := partDefault_le q hm
  drum map k _ _ hm := drumDefault_le (map * 128 + k) hm
  sdt _ _ _ _ := Nat.zero_le _
  pdt _ _ _ _ := Nat.zero_le _
  vs v _ _ hm := vsDefault_le hp v hm

/-- No bank is decoded and no voice is active. -/
theorem Sound.resetOf (hp : p.legal = true) : Sound (State.resetOf p rom) :=
  ⟨RegistersLegal.resetOf p rom hp, fun _ h => absurd h Bool.false_ne_true,
    fun _ _ h => absurd h Bool.false_ne_true⟩

theorem FaultRecord.resetOf : FaultRecord (State.resetOf p rom) := FaultRecord.clearFaults (State.resetOf p rom)

theorem EnvelopesLegal.resetOf : EnvelopesLegal (State.resetOf p rom) where
  stage _ _ h := absurd h Bool.false_ne_true
  level _ g := by cases g <;> exact legalLevel_zero _

theorem PbfCurrent.resetOf : PbfCurrent (State.resetOf p rom) := by
  intro part _
  rw [resetOf_partReg p rom part (by decide), resetOf_partReg p rom part (by decide)]
  exact (pbfValue_centred p.numerics).symm

theorem TvfCacheValid.resetOf : TvfCacheValid (State.resetOf p rom) := fun _ _ h => nomatch h

end

/-- Settles O60, invariant by invariant; the model's own parameters are legal. -/
theorem invariantsAtReset : Obligations.InvariantsAtReset :=
  ⟨fun p rom hp hrom => ⟨.resetOf p rom hp hrom, .resetOf p rom hp, .resetOf p rom, .resetOf p rom, .resetOf p rom,
    .resetOf p rom⟩, by decide, rfl⟩

end Sys2Proof.Machine
end

section
/-!
The streams and the port as the machine's outside: no command reads them, FRAME, RDVOICE and RDFAULT append to the streams,
and nothing else touches them (10_state.md R26, 20_memory.md R61). A command runs the same whatever stands in them.
-/

namespace Sys2Proof.Machine

/-! ### The state with other streams and another port -/

/-- The state with the given streams and port. -/
def State.withIo (s : State) (o : List (BitVec 16 × BitVec 16)) (r p : List Word) : State :=
  { s with out := o, resp := r, port := p }

section
variable (s : State) (o : List (BitVec 16 × BitVec 16)) (r p : List Word)

theorem SameInputs.withIo : SameInputs s (s.withIo o r p) := ⟨rfl, rfl, rfl, rfl, rfl, rfl, rfl, rfl⟩

theorem someActive_withIo (q : Voice → Bool) : (s.withIo o r p).someActive q = s.someActive q := rfl

theorem raise_withIo (c : Cause) (w : Word) : raise c w (s.withIo o r p) = (raise c w s).withIo o r p := rfl

theorem recomputeMatrix_withIo (q : Nat) :
    recomputeMatrix q (s.withIo o r p) = (recomputeMatrix q s).withIo o r p := by
  unfold recomputeMatrix
  rw [matrixOf_congr (s := s) rfl rfl]
  rfl

theorem recomputePbf_withIo (q : Nat) : recomputePbf q (s.withIo o r p) = (recomputePbf q s).withIo o r p := rfl

theorem recomputeParts_withIo (n : Nat) :
    recomputeParts n (s.withIo o r p) = (recomputeParts n s).withIo o r p := by
  induction n with
  | zero => rfl
  | succ n ih =>
    unfold recomputeParts
    rw [ih, recomputeMatrix_withIo, recomputePbf_withIo]

theorem partEffect_withIo (q id value : Nat) :
    partEffect q id value (s.withIo o r p) = (partEffect q id value s).withIo o r p := by
  have hset : (s.withIo o r p).setPartReg q id value = (s.setPartReg q id value).withIo o r p := rfl
  unfold partEffect
  simp only [hset, recomputeMatrix_withIo]
  split <;> split <;> rfl

theorem expand_withIo (base i : Nat) : expand (s.withIo o r p) base i = expand s base i := rfl

theorem decodeElements_withIo (c : Coeffs) (base n i : Nat) (h1 h2 : History) :
    decodeElements (s.withIo o r p) c base n i h1 h2 = decodeElements s c base n i h1 h2 := by
  induction n generalizing i h1 h2 with
  | zero => rfl
  | succ n ih =>
    unfold decodeElements
    simp only [expand_withIo, ih]
    rfl

theorem decodeChecks_withIo (i : Nat) : decodeChecks (s.withIo o r p) i = decodeChecks s i := rfl

theorem findBreak_withIo (q : Nat) (t : Int) (n j : Nat) :
    findBreak (s.withIo o r p) q t n j = findBreak s q t n j := by
  induction n generalizing j with
  | zero => rfl
  | succ n ih =>
    unfold findBreak
    rw [ih]
    rfl

theorem startChecks_withIo (v q : Nat) : startChecks (s.withIo o r p) v q = startChecks s v q := by
  have hsample : ∀ t, resolveSample (s.withIo o r p) q t = resolveSample s q t := by
    intro t
    unfold resolveSample
    rw [findBreak_withIo]
    rfl
  unfold startChecks
  rw [hsample]
  rfl

theorem startVoice_withIo (v q e : Nat) : startVoice (s.withIo o r p) v q e = startVoice s v q e := rfl

theorem noteOff_withIo (x : Voice) : noteOff (s.withIo o r p) x = noteOff s x := rfl

theorem checkField_withIo (limit : Option Nat) (value : Nat) :
    checkField limit value (s.withIo o r p) = (checkField limit value s).map (State.withIo · o r p) := by
  unfold checkField
  cases limit with
  | none => rfl
  | some m =>
    dsimp only
    split <;> rfl

end

/-! ### The mix of a frame -/

/-- The frame in progress with other streams and another port. -/
def Mix.withIo (m : Mix) (o : List (BitVec 16 × BitVec 16)) (r p : List Word) : Mix :=
  { m with st := m.st.withIo o r p }

section
variable (m : Mix) (o : List (BitVec 16 × BitVec 16)) (r p : List Word)

theorem mixInto_withIo (i : Nat) (out : VoiceOut) :
    mixInto (m.withIo o r p) i out = (mixInto m i out).withIo o r p := by
  unfold mixInto
  cases out.fault <;> rfl

theorem mixVoice_withIo (i : Nat) : mixVoice (m.withIo o r p) i = (mixVoice m i).withIo o r p := by
  have hstep : voiceStep (m.withIo o r p).st = voiceStep m.st := (SameInputs.withIo m.st o r p).voiceStep
  have hvoice : (m.withIo o r p).st.voice i = m.st.voice i := rfl
  unfold mixVoice
  rw [hstep, hvoice, mixInto_withIo]
  split <;> rfl

theorem mixVoices_withIo (s : State) : mixVoices (s.withIo o r p) = (mixVoices s).withIo o r p :=
  (List.foldl_hom (l := List.range s.params.nv) (init := { st := s, silent := false, accL := [], accR := [] })
    (Mix.withIo · o r p) fun m i => mixVoice_withIo m o r p i)

/-- The pair of a frame before its conversion (45_mixer.md R140, R141). -/
def masterPair (m : Mix) : R × R :=
  mPan m.st.params.mPan (masterGain m.st (sumParts m.st m.accL)) (masterGain m.st (sumParts m.st m.accR))
    (m.st.sysReg 3)

theorem emitMix_eq : emitMix m =
    if !((masterPair m).1.isFinite && (masterPair m).2.isFinite) then
      (record .numeric 0xFF (encode .frame) m.st).emitFrame 0 0
    else if m.silent then m.st.emitFrame 0 0
    else m.st.emitFrame (toInt16 m.st.params.numerics (masterPair m).1)
      (toInt16 m.st.params.numerics (masterPair m).2) := rfl

theorem masterPair_withIo : masterPair (m.withIo o r p) = masterPair m := by
  have hgain : partGain (m.withIo o r p).st = partGain m.st := (SameInputs.withIo m.st o r p).partGain
  have hsum : ∀ acc, sumParts (m.withIo o r p).st acc = sumParts m.st acc := fun acc => by
    unfold sumParts
    rw [hgain]
    rfl
  unfold masterPair
  rw [hsum, hsum]
  rfl

/-- The end of the frame appends one pair, which no stream decides. -/
theorem emitMix_withIo : ∃ (t : State) (pair : BitVec 16 × BitVec 16),
    ∀ o r p, emitMix (m.withIo o r p) = t.withIo (o ++ [pair]) r p := by
  have hsilent : ∀ o r p, (m.withIo o r p).silent = m.silent := fun _ _ _ => rfl
  simp only [emitMix_eq, masterPair_withIo, hsilent]
  split
  · exact ⟨record .numeric 0xFF (encode .frame) m.st, (0, 0), fun _ _ _ => rfl⟩
  split
  · exact ⟨m.st, (0, 0), fun _ _ _ => rfl⟩
  · exact ⟨m.st, (toInt16 m.st.params.numerics (masterPair m).1, toInt16 m.st.params.numerics (masterPair m).2),
      fun _ _ _ => rfl⟩

end

/-! ### The commands -/

/-- Run in `s`, `f` appends `outs` pairs to OUT and `resps` words to RESP, keeps the port, and comes to the same whatever the
streams and the port hold. -/
def Appends (f : State → Host.Outcome State Fault Refusal) (s : State) (outs resps : Nat) : Prop :=
  ∃ (t : State) (no : List (BitVec 16 × BitVec 16)) (nr : List Word), no.length = outs ∧ nr.length = resps ∧
    ∀ o r p, f (s.withIo o r p) = .next (t.withIo (o ++ no) (r ++ nr) p)

theorem Appends.of_fault {f : State → Host.Outcome State Fault Refusal} {s : State} {c : Cause} {w : Word}
    (h : ∀ o r p, f (s.withIo o r p) = .next (raise c w (s.withIo o r p))) : Appends f s 0 0 :=
  ⟨raise c w s, [], [], rfl, rfl, fun o r p => by rw [h, raise_withIo, List.append_nil, List.append_nil]⟩

/-- A command whose checks and effect read neither the streams nor the port appends nothing. -/
theorem Appends.of_quiet {w : Word} {f : State → Except Cause State} {s : State}
    (h : ∀ o r p, f (s.withIo o r p) = (f s).map (State.withIo · o r p)) :
    Appends (fun u => finishCommand w u (f u)) s 0 0 := by
  cases hf : f s with
  | error c =>
    refine .of_fault (c := c) (w := w) fun o r p => ?_
    rw [h, hf]
    rfl
  | ok t =>
    refine ⟨{ t with cp := t.cp + 1 }, [], [], rfl, rfl, fun o r p => ?_⟩
    dsimp only
    rw [h, hf, List.append_nil, List.append_nil]
    rfl

/-- A check that reads neither the streams nor the port may stand before what does not either. -/
theorem ite_error_map {a : Prop} [Decidable a] {c : Cause} {e e' : Except Cause State} {g : State → State}
    (h : e' = e.map g) : (if a then .error c else e') = (if a then Except.error c else e).map g := by
  split
  · rfl
  · exact h

/-- How many pairs a command appends to OUT. -/
def outCount (i : Instr) : Nat := if i = .frame then 1 else 0

/-- How many words a command appends to RESP. -/
def respCount (s : State) : Instr → Nat
  | .rdfault => 2
  | .rdvoice v => if v < s.params.nv then 1 else 0
  | _ => 0

theorem exec_appends (i : Instr) (s : State) : Appends (exec i) s (outCount i) (respCount s i) := by
  cases i with
  | nop => exact .of_quiet (w := encode .nop) (f := Except.ok) fun _ _ _ => rfl
  | reset =>
    refine .of_quiet (w := encode .reset) (f := fun u => .ok (softResetState u)) fun o r p => ?_
    have hparts := recomputeParts_withIo (resetVoices (resetRegisters s)) o r p s.params.nPart
    exact congrArg (fun u => Except.ok (clearFaults u)) hparts
  | setfmt fs channels => exact .of_quiet fun o r p => ite_error_map (ite_error_map rfl)
  | setinterp mode => exact .of_quiet fun o r p => ite_error_map rfl
  | sysparam id value => exact .of_quiet fun o r p => checkField_withIo (s.setSysReg id value) o r p _ _
  | partparam q id value =>
    refine .of_quiet fun o r p => ite_error_map ?_
    rw [partEffect_withIo]
    exact checkField_withIo (partEffect q id value s) o r p _ _
  | drumparam map key field value =>
    exact .of_quiet fun o r p => checkField_withIo (s.setDrumReg map key field value) o r p _ _
  | sdtWr e field value =>
    exact .of_quiet fun o r p => ite_error_map (checkField_withIo (sdtEffect e field value s) o r p _ _)
  | pdtWr q field value =>
    exact .of_quiet fun o r p => ite_error_map (checkField_withIo (s.setPdtField q field value) o r p _ _)
  | vsetup v field value =>
    exact .of_quiet fun o r p => ite_error_map (checkField_withIo (s.setVsReg v field value) o r p _ _)
  | vnoteoff v => exact .of_quiet fun o r p => ite_error_map rfl
  | vkill v => exact .of_quiet fun o r p => ite_error_map rfl
  | vstart v q =>
    refine .of_quiet fun o r p => ?_
    rw [startChecks_withIo]
    cases startChecks s v q with
    | error c => rfl
    | ok e => rfl
  | decode e =>
    cases hc : decodeChecks s e with
    | error c =>
      refine .of_fault (c := c) (w := encode (.decode e)) fun o r p => ?_
      show execDecode e (s.withIo o r p) = _
      unfold execDecode
      rw [decodeChecks_withIo, hc]
    | ok base =>
      obtain ⟨-, -, -, -, hrange⟩ := decodeChecks_ok hc
      obtain ⟨elements, helements, -⟩ :=
        decodeElements_ok s (riaaCoeffs s.params) base (s.sdtData e 1 + 1) 0 (by omega)
      refine ⟨{ s.setBank e { decoded := true, data := elements } with cp := s.cp + 1 }, [], [], rfl, rfl,
        fun o r p => ?_⟩
      have hrun : decodeElements (s.withIo o r p) (riaaCoeffs (s.withIo o r p).params) base
          ((s.withIo o r p).sdtData e 1 + 1) 0 History.zero History.zero = .ok elements :=
        (decodeElements_withIo s o r p _ _ _ _ _ _).trans helements
      show execDecode e (s.withIo o r p) = _
      unfold execDecode
      rw [decodeChecks_withIo, hc, List.append_nil, List.append_nil]
      dsimp only
      rw [hrun]
      rfl
  | rdvoice v =>
    by_cases hv : v < s.params.nv
    · rw [show respCount s (.rdvoice v) = 1 from if_pos hv]
      exact ⟨{ s with cp := s.cp + 1 }, [], [(s.voice v).statusWord], rfl, rfl, fun o r p => by
        rw [List.append_nil]
        exact congrArg (finishCommand _ _) (if_neg (Nat.not_le.mpr hv))⟩
    · rw [show respCount s (.rdvoice v) = 0 from if_neg hv]
      exact .of_fault fun o r p => congrArg (finishCommand _ _) (if_pos (Nat.not_lt.mp hv))
  | rdfault =>
    refine ⟨{ s with cp := s.cp + 1 }, [], [s.faultWord, s.faultCmd], rfl, rfl, fun o r p => ?_⟩
    rw [List.append_nil, List.append_cons]
    rfl
  | frame =>
    obtain ⟨t, pair, h⟩ := emitMix_withIo (mixVoices s)
    refine ⟨{ t with cp := t.cp + 1 }, [pair], [], rfl, rfl, fun o r p => ?_⟩
    show finishCommand (encode .frame) (s.withIo o r p) (.ok (emitMix (mixVoices (s.withIo o r p)))) = _
    rw [mixVoices_withIo, h, List.append_nil]
    rfl

/-! ### The counts of a word -/

theorem outCount_eq {w : Word} {i : Instr} (h : decode w = .ok i) :
    outCount i = if w = encode .frame then 1 else 0 := by
  refine if_congr ?_ rfl rfl
  rw [← decode_eq_frame, h, Except.ok.injEq]

theorem respCount_eq (s : State) {w : Word} {i : Instr} (h : decode w = .ok i) :
    respCount s i = if w = encode .rdfault then 2
      else if bField w < s.params.nv ∧ w = encode (.rdvoice (bField w)) then 1 else 0 := by
  have hvoice : w = encode (.rdvoice (bField w)) ↔ decode w = .ok (.rdvoice (bField w)) := by
    rw [decode_eq_rdvoice, and_iff_right rfl]
  simp only [← decode_eq_rdfault, hvoice]
  cases i with
  | rdfault => simp [respCount, h]
  | rdvoice v =>
    obtain ⟨hv, -⟩ := decode_eq_rdvoice.mp h
    simp [respCount, h, hv]
  | _ => simp [respCount, h]

/-- A word that is no command is none of those that append. -/
theorem ne_encode_of_decode_error {w : Word} {e : Reject} (h : decode w = .error e) :
    w ≠ encode .frame ∧ w ≠ encode .rdfault ∧ w ≠ encode (.rdvoice (bField w)) := by
  have hne : ∀ i, decode w ≠ .ok i := fun i hi => nomatch h.symm.trans hi
  exact ⟨fun hw => hne _ (decode_eq_frame.mpr hw), fun hw => hne _ (decode_eq_rdfault.mpr hw),
    fun hw => hne _ (decode_eq_rdvoice.mpr ⟨rfl, hw⟩)⟩

theorem execWord_appends (w : Word) (s : State) :
    Appends (execWord w) s (if w = encode .frame then 1 else 0)
      (if w = encode .rdfault then 2 else if bField w < s.params.nv ∧ w = encode (.rdvoice (bField w)) then 1 else 0) := by
  cases hd : decode w with
  | ok i =>
    have hexec : execWord w = exec i := by
      funext u
      unfold execWord
      rw [hd]
    rw [hexec, ← outCount_eq hd, ← respCount_eq s hd]
    exact exec_appends i s
  | error e =>
    obtain ⟨hframe, hrdfault, hrdvoice⟩ := ne_encode_of_decode_error hd
    rw [if_neg hframe, if_neg hrdfault, if_neg fun h => hrdvoice h.2]
    refine .of_fault (c := rejectCause e) (w := w) fun o r p => ?_
    unfold execWord
    rw [hd]

/-- Settles O11: what `execWord_appends` says of the two streams, the port being the state's own. -/
theorem streamsOnlyGrow : Obligations.StreamsOnlyGrow := by
  refine ⟨rfl, rfl, fun w s => ?_⟩
  obtain ⟨t, no, nr, hno, hnr, hrun⟩ := execWord_appends w s
  exact ⟨t.withIo [] [] s.port, no, nr, fun o r => hrun o r s.port, hno, hnr⟩

theorem execWord_control {w : Word} {s t : State} (h : execWord w s = .next t) :
    t.params = s.params ∧ t.rom = s.rom ∧ t.port = s.port := by
  rcases execWord_cases w s with ⟨c, w', hr⟩ | ⟨i, u, -, hu, he⟩
  · cases hr.symm.trans h
    exact ⟨rfl, rfl, rfl⟩
  · cases hu.symm.trans h
    obtain ⟨-, hparams, hrom, hport⟩ := he.control
    exact ⟨hparams, hrom, hport⟩

/-- Settles O10: the frame from `execWord_control`, the independence of the port from `execWord_appends`. -/
theorem portAndRomUntouched : Obligations.PortAndRomUntouched := by
  intro w s t h
  obtain ⟨hparams, hrom, hport⟩ := execWord_control h
  have hread : SameRom s t := fun a => by
    unfold State.romRead
    rw [hparams, hrom]
  refine ⟨hparams, hrom, hread, hport, fun p => ?_⟩
  obtain ⟨u, no, nr, -, -, hrun⟩ := execWord_appends w s
  have ht : u.withIo (s.out ++ no) (s.resp ++ nr) s.port = t :=
    Host.Outcome.next.inj ((hrun s.out s.resp s.port).symm.trans h)
  rw [← ht]
  exact hrun s.out s.resp p

end Sys2Proof.Machine
end

section
/-!
The block's streams as bytes (20_memory.md R52, R53): a word is the concatenation of its bytes, so a serialised command
stream reads back word by word, and each emission appends the bytes of what it emits.
-/

namespace Sys2Proof.Machine

/-- The eight bytes of a word, joined most significant first, are the word again. -/
theorem wordOfBytes_bytesOfWord (w : Word) (rest : List Byte) :
    wordOfBytes (bytesOfWord w ++ rest) = some (w, rest) := by
  have hjoin : w.extractLsb' 56 8 ++ w.extractLsb' 48 8 ++ w.extractLsb' 40 8 ++ w.extractLsb' 32 8
      ++ w.extractLsb' 24 8 ++ w.extractLsb' 16 8 ++ w.extractLsb' 8 8 ++ w.extractLsb' 0 8 = w := by
    simp (disch := rfl) only [BitVec.extractLsb'_append_extractLsb'_eq_extractLsb']
    exact BitVec.extractLsb'_eq_self
  exact congrArg (fun u => some (u, rest)) hjoin

theorem takeWords_commandBytes (ws : List Word) (rest : List Byte) :
    takeWords ws.length (commandBytes ws ++ rest) = some (ws, rest) := by
  induction ws with
  | nil => rfl
  | cons w ws ih =>
    have hbytes : commandBytes (w :: ws) ++ rest = bytesOfWord w ++ (commandBytes ws ++ rest) := by
      simp only [commandBytes, List.flatMap_cons, List.append_assoc]
    rw [hbytes, List.length_cons, takeWords, wordOfBytes_bytesOfWord]
    dsimp only
    rw [ih]

theorem bytesOfWord_getElem? (w : Word) {k : Nat} (hk : k < 8) :
    (bytesOfWord w)[k]? = some (w.extractLsb' (8 * k) 8) := by
  interval_cases k <;> rfl

theorem respBytes_emitResp (s : State) (w : Word) : (s.emitResp w).respBytes = s.respBytes ++ bytesOfWord w := by
  simp only [State.respBytes, State.emitResp, List.flatMap_append, List.flatMap_singleton]

theorem outBytes_emitFrame (s : State) (l r : BitVec 16) :
    (s.emitFrame l r).outBytes = s.outBytes ++ frameBytes (l, r) := by
  simp only [State.outBytes, State.emitFrame, List.flatMap_append, List.flatMap_singleton]

/-- Settles O5: commands read back by induction on the stream, and the emissions append at the end of theirs. -/
theorem byteStreams : Obligations.ByteStreams :=
  ⟨takeWords_commandBytes, fun w _ hk => bytesOfWord_getElem? w hk, respBytes_emitResp, outBytes_emitFrame⟩

end Sys2Proof.Machine
end

section
/-!
The step and the run: a step executes the oldest word of the port, every word answers a next state, and a run of steps is
the run of the port's words (20_memory.md R57, R61, R63, 70_reset_and_hazards.md R169).
-/

namespace Sys2Proof.Machine

/-! ### One word and one step -/

theorem execWord_of_decode {w : Word} {i : Instr} (h : decode w = .ok i) (s : State) : execWord w s = exec i s := by
  unfold execWord
  rw [h]

theorem execWord_of_reject {w : Word} {e : Reject} (h : decode w = .error e) (s : State) :
    execWord w s = .next (raise (rejectCause e) w s) := by
  unfold execWord
  rw [h]

theorem step_of_empty {s : State} (h : s.port = []) : step s = .next s := by
  unfold step
  rw [h]

theorem step_of_cons {s : State} {w : Word} {rest : List Word} (h : s.port = w :: rest) :
    step s = execWord w { s with port := rest } := by
  unfold step
  rw [h]

/-- Settles O7: a step is the execution of the oldest word, which is its command's or its rejection's. -/
theorem stepRunsDecoded : Obligations.StepRunsDecoded := by
  refine fun s => ⟨fun w rest i hport hd => ?_, fun w rest hport hd => ?_, fun w rest hport hd => ?_, step_of_empty⟩
  · rw [step_of_cons hport, execWord_of_decode hd]
  · rw [step_of_cons hport, execWord_of_reject hd]
    rfl
  · rw [step_of_cons hport, execWord_of_reject hd]
    rfl

/-! ### Nothing stops the block -/

theorem exec_next (i : Instr) (s : State) : ∃ t, exec i s = .next t := by
  rcases exec_cases i s with ⟨-, c, h⟩ | ⟨t, h, -⟩
  · exact ⟨_, h⟩
  · exact ⟨_, h⟩

theorem execWord_next (w : Word) (s : State) : ∃ t, execWord w s = .next t := by
  obtain ⟨t, h, -⟩ := positionAdvances.2 w s
  exact ⟨t, h⟩

theorem step_next (s : State) : ∃ t, step s = .next t := by
  cases hport : s.port with
  | nil => exact ⟨s, step_of_empty hport⟩
  | cons w rest =>
    rw [step_of_cons hport]
    exact execWord_next w _

/-- Settles O8: a command faults or has its effect, a word is a command or faults, a step is idle or executes a word. -/
theorem noCommandStops : Obligations.NoCommandStops := ⟨step_next, execWord_next, exec_next⟩

/-! ### Runs -/

theorem runWords_cons_of_next {w : Word} {s u : State} (h : execWord w s = .next u) (ws : List Word) :
    runWords (w :: ws) s = runWords ws u := by
  rw [runWords, h]

theorem run_succ_of_next (M : Host.Core) {s u : M.State} (h : M.step s = .next u) (n : Nat) :
    M.run (n + 1) s = M.run n u := by
  rw [Host.Core.run, h]

/-- The words a run has not reached are in the port of the steps and not in that of the run, and no word reads the port
(`portAndRomUntouched`): both go through the same states but for it. -/
theorem core_run_of_runWords (ws : List Word) (s t : State) (h : runWords ws { s with port := [] } = .next t) :
    Sys2Proof.core.run ws.length { s with port := ws } = .next t := by
  induction ws generalizing s with
  | nil => exact h
  | cons w ws ih =>
    obtain ⟨u, hu⟩ := execWord_next w { s with port := [] }
    obtain ⟨-, -, -, hport, hany⟩ := portAndRomUntouched w _ u hu
    have hstep : Sys2Proof.core.step ({ s with port := w :: ws } : State) = .next ({ u with port := ws } : State) :=
      hany ws
    have hempty : u.port = [] := hport
    have hu' : ({ u with port := [] } : State) = u := by rw [← hempty]
    rw [runWords_cons_of_next hu, ← hu'] at h
    exact (run_succ_of_next _ hstep ws.length).trans (ih u h)

/-- A program runs to its end, and each of its words advances the position once. -/
theorem runWords_next (ws : List Word) (s : State) : ∃ t, runWords ws s = .next t ∧ t.cp = s.cp + ws.length := by
  induction ws generalizing s with
  | nil => exact ⟨s, rfl, rfl⟩
  | cons w ws ih =>
    obtain ⟨u, hu, hcpu⟩ := positionAdvances.2 w s
    obtain ⟨t, ht, hcpt⟩ := ih u
    refine ⟨t, (runWords_cons_of_next hu ws).trans ht, ?_⟩
    rw [hcpt, hcpu, List.length_cons]
    omega

theorem Merge.length_eq {α : Type} {a b c : List α} (h : Merge a b c) : c.length = a.length + b.length := by
  induction h with
  | nil => rfl
  | left x _ ih => simp only [List.length_cons, ih]; omega
  | right x _ ih => simp only [List.length_cons, ih]; omega

/-- Settles O6: steps follow the run by `core_run_of_runWords`; a merge is a program like any other, as long as the two. -/
theorem programRuns : Obligations.ProgramRuns := by
  refine ⟨core_run_of_runWords, fun host puller merged s hmerge => ?_⟩
  obtain ⟨t, ht, hcp⟩ := runWords_next merged s
  refine ⟨t, ht, ?_⟩
  rw [hcp, hmerge.length_eq, Nat.add_assoc]

end Sys2Proof.Machine
end

section
/-!
The data of the sample banks: DECODE alone writes them, and only those of a bank that no active voice plays
(20_memory.md R66, 70_reset_and_hazards.md R164).
-/

namespace Sys2Proof.Machine

/-- An effect leaves the data of a bank as they were, unless it is that of the DECODE of this bank. A descriptor write takes
the `decoded` flag from its bank and keeps the data. -/
theorem Effect.bankData {i : Instr} {s t : State} (he : Effect i s t) {j : Nat} (hj : i ≠ .decode j) :
    (t.bankOf j).data = (s.bankOf j).data := by
  cases i with
  | decode e =>
    obtain ⟨_, _, -, -, -, rfl⟩ := he
    have hne : j ≠ e := fun h => hj (by rw [h])
    rw [bankOf_setBank, if_neg hne]
  | sdtWr e field value =>
    obtain ⟨-, _, -, -, rfl⟩ := he
    unfold sdtEffect
    rw [bankOf_setBank]
    split
    · next h => rw [h]
    · rfl
  | frame =>
    have ht : t = frameState s := he
    obtain ⟨vs, f, c, v, w, pair, hshape⟩ := frameState_shape s
    rw [ht, hshape]
    rfl
  | reset =>
    have ht : t = softResetState s := he
    obtain ⟨m, f, hshape⟩ := softResetState_shape s
    rw [ht, hshape]
    rfl
  | partparam p id value =>
    obtain ⟨-, _, -, -, rfl⟩ := he
    obtain ⟨m, f, hshape⟩ := partEffect_shape p id value s
    rw [hshape]
    rfl
  | nop => cases he; rfl
  | rdfault => cases he; rfl
  | setfmt fs channels => obtain ⟨-, -, -, rfl⟩ := he; rfl
  | setinterp mode => obtain ⟨-, rfl⟩ := he; rfl
  | sysparam id value => obtain ⟨_, -, -, rfl⟩ := he; rfl
  | drumparam map key field value => obtain ⟨_, -, -, rfl⟩ := he; rfl
  | pdtWr q field value => obtain ⟨-, _, -, -, rfl⟩ := he; rfl
  | vsetup v field value => obtain ⟨-, _, -, -, rfl⟩ := he; rfl
  | vstart v q => obtain ⟨_, -, rfl⟩ := he; rfl
  | vnoteoff v => obtain ⟨-, rfl⟩ := he; rfl
  | vkill v => obtain ⟨-, rfl⟩ := he; rfl
  | rdvoice v => obtain ⟨-, rfl⟩ := he; rfl

/-- Nor is it that of the DECODE of a bank that an active voice plays: F_BUSY comes before it. -/
theorem Effect.ne_decode_playing {i : Instr} {s t : State} (he : Effect i s t) {v : Nat} (hv : v < s.params.nv)
    (ha : (s.voice v).active = true) : i ≠ .decode (s.voice v).s := by
  rintro rfl
  obtain ⟨_, _, hc, -, -, -⟩ := he
  obtain ⟨-, -, hidle, -, -⟩ := decodeChecks_ok hc
  have hother : ((s.voice v).s == (s.voice v).s) = false := (someActive_false s _).mp hidle v hv ha
  simp at hother

/-- Settles O46: a fault touches no bank, and no effect that a command has here writes this one. -/
theorem playingBankUnchanged : Obligations.PlayingBankUnchanged := by
  intro w s v hv ha
  rcases execWord_cases w s with ⟨c, w', h⟩ | ⟨i, t, -, h, he⟩
  · exact ⟨_, h, rfl⟩
  · exact ⟨_, h, he.bankData (he.ne_decode_playing hv ha)⟩

end Sys2Proof.Machine
end

section
/-!
The reads of the oscillator inside the bank of a safe voice, whose bank holds the elements 0 to `sampleLen`
(20_memory.md R51, 43_oscillator.md R121, R123).
-/

namespace Sys2Proof.Machine

/-- Positions before the sample and past its loop wrap into it, so every tap is an element of it (R121). -/
theorem tapIndex_le {x : Voice} (hend : x.loopEnd = Int.ofNat x.sampleLen) (j : Int) : tapIndex x j ≤ x.sampleLen := by
  have hcast : Int.ofNat x.sampleLen = (x.sampleLen : Int) := rfl
  unfold tapIndex
  rw [hend]
  split
  · exact Nat.le_refl _
  split
  · omega
  · have hmin : min (j - Int.ofNat x.loopLen) (Int.ofNat x.sampleLen) ≤ Int.ofNat x.sampleLen := Int.min_le_right ..
    omega

/-- The integer part of a phase in `[0, sampleLen + 1)` is an element of the sample. -/
theorem VoiceSafe.floor_phase {s : State} {x : Voice} (h : VoiceSafe s x) :
    ∃ k : Nat, x.phase.floor = Int.ofNat k ∧ k ≤ x.sampleLen := by
  have hlength := h.length
  have hlog : Nat.log2 (x.sampleLen + 1) < 52 := (Nat.log2_lt (Nat.succ_ne_zero _)).mpr (by omega)
  obtain ⟨k, hk, hlt⟩ := R.floor_lt_ofInt (Nat.succ_ne_zero _) hlog h.phaseLow h.phaseHigh
  exact ⟨k, hk, Nat.le_of_lt_succ hlt⟩

/-- The nearest read takes the element at the integer part of the phase (R123). -/
theorem readSample_nearest {s : State} {x : Voice} {k : Nat} (hk : x.phase.floor = Int.ofNat k) (hi : s.interp = 0) :
    readSample s x = s.bankRead x.s k := by
  unfold readSample splitPhase
  rw [hk]
  exact if_pos hi

/-- Settles O53: the bank has `sampleLen + 1` elements, and no read goes beyond `sampleLen`. -/
theorem tapsInsideBank : Obligations.TapsInsideBank := by
  intro s x h
  have hbank : (s.bankOf x.s).data.length = x.sampleLen + 1 := h.bank
  obtain ⟨k, hk, hle⟩ := h.floor_phase
  rw [hbank]
  exact ⟨fun j => Nat.lt_succ_of_le (tapIndex_le h.loopEnd j), k, hk, hle, Nat.lt_succ_of_le hle,
    readSample_nearest hk⟩

end Sys2Proof.Machine
end

section
/-!
The encoding (30_encoding.md R68 to R72, R78): `encode` and `decode` are inverse to each other, and a word that is no command
faults and does nothing else.
-/

namespace Sys2Proof

theorem Instr.opcode_lt (i : Instr) : i.opcode < 256 := by
  cases i <;> simp [Instr.opcode]

/-- A well-formed command is the one its packed fields stand for, by the reserved fields its encoding leaves zero. -/
theorem decode_encode {i : Instr} (h : i.wellFormed = true) : decode (encode i) = .ok i := by
  have hop := i.opcode_lt
  have hzero : 0 < 256 ∧ 0 < 65536 ∧ 0 < 4294967296 := by decide
  obtain ⟨ha0, hb0, hd0⟩ := hzero
  cases i <;> simp only [Instr.wellFormed, Bool.and_eq_true, decide_eq_true_eq] at h
  case nop | reset | rdfault | frame => rfl
  case setfmt => exact decode_packWord hop h.2 hb0 h.1
  case setinterp => exact decode_packWord hop ha0 hb0 h
  case sysparam => exact decode_packWord hop h.1 hb0 h.2
  case partparam | sdtWr | pdtWr | vsetup =>
    obtain ⟨⟨hb, ha⟩, hd⟩ := h
    exact decode_packWord hop ha hb hd
  case decode | vnoteoff | vkill | rdvoice => exact decode_packWord hop ha0 h hd0
  case vstart => exact decode_packWord hop ha0 h.1 h.2
  case drumparam map key field value =>
    obtain ⟨⟨⟨hmap, hkey⟩, ha⟩, hd⟩ := h
    have hb : map * 128 + key < 65536 := by omega
    have hsplit : (map * 128 + key) / 256 = 0 ∧ (map * 128 + key) / 128 % 2 = map ∧ (map * 128 + key) % 128 = key := by
      omega
    obtain ⟨hreserved, hmapOf, hkeyOf⟩ := hsplit
    refine (decode_packWord hop ha hb hd).trans ?_
    show unlessReserved ((map * 128 + key) / 256 == 0)
      (.drumparam ((map * 128 + key) / 128 % 2) ((map * 128 + key) % 128) field value) = _
    rw [hreserved, hmapOf, hkeyOf]
    rfl

/-- Settles O1: the fields of a packed word are the ones it was packed from. -/
theorem decodeOfEncode : Obligations.DecodeOfEncode := fun _ h => decode_encode h

/-- Settles O2: a word is the packing of its fields, and a command keeps each of them that is not zero. -/
theorem oneEncoding : Obligations.OneEncoding := fun _ _ h => decode_ok h

/-- The word a well-formed command encodes to decodes to it. -/
theorem decode_of_encode_eq {w : Word} {i : Instr} (hw : encode i = w) (h : i.wellFormed = true) : decode w = .ok i :=
  hw ▸ decode_encode h

/-- Settles O4: each word is computed once, as an encoding; that it decodes is `decode_encode`. -/
theorem workedEncodings : Obligations.WorkedEncodings :=
  ⟨decode_of_encode_eq rfl rfl, rfl, decode_of_encode_eq rfl rfl, rfl, decode_of_encode_eq rfl rfl, rfl,
    decode_of_encode_eq rfl rfl, rfl, decode_of_encode_eq rfl rfl, rfl, decode_of_encode_eq rfl rfl, rfl,
    decode_of_encode_eq rfl rfl, rfl, rfl⟩

/-! ### Words that are no command -/

theorem commandOf_unassigned {op : Nat} (a b data : Nat) (h : op ∉ [0x00, 0x01, 0x02, 0x03, 0x10, 0x11, 0x12, 0x20, 0x21,
    0x22, 0x30, 0x31, 0x32, 0x33, 0x34, 0x35, 0x40]) : commandOf op a b data = .error .opcode := by
  unfold commandOf
  split
  case h_18 => rfl
  all_goals exact absurd (by decide) h

theorem decode_of_opField {w : Word} {op : Nat} (h : opField w = op) :
    decode w = commandOf op (aField w) (bField w) (dataField w) := by
  rw [decode_eq, h]

end Sys2Proof

namespace Sys2Proof.Machine

theorem execWord_of_reserved {w : Word} {zero : Bool} {i : Instr} (h : decode w = unlessReserved zero i)
    (hz : zero = false) (s : State) : execWord w s = .next (raise .rsvd w s) :=
  execWord_of_reject (h.trans (congrArg (unlessReserved · i) hz)) s

/-- NOP, RESET, RDFAULT and FRAME have no operands: every field is reserved. -/
theorem execWord_noOperands_reserved {w : Word} (hop : opField w ∈ [0x00, 0x01, 0x35, 0x40])
    (h : ¬ (aField w = 0 ∧ bField w = 0 ∧ dataField w = 0)) (s : State) : execWord w s = .next (raise .rsvd w s) := by
  have hz : (aField w == 0 && bField w == 0 && dataField w == 0) = false := by simpa using h
  simp only [List.mem_cons, List.not_mem_nil, or_false] at hop
  rcases hop with hop | hop | hop | hop
  all_goals exact execWord_of_reserved (decode_of_opField hop) hz s

/-- DECODE, VNOTEOFF, VKILL and RDVOICE take an index in `b`: the fields beside it are reserved. -/
theorem execWord_index_reserved {w : Word} (hop : opField w ∈ [0x22, 0x32, 0x33, 0x34])
    (h : ¬ (aField w = 0 ∧ dataField w = 0)) (s : State) : execWord w s = .next (raise .rsvd w s) := by
  have hz : (aField w == 0 && dataField w == 0) = false := by simpa using h
  simp only [List.mem_cons, List.not_mem_nil, or_false] at hop
  rcases hop with hop | hop | hop | hop
  all_goals exact execWord_of_reserved (decode_of_opField hop) hz s

/-- SETFMT and SYSPARAM do not use `b`. -/
theorem execWord_b_reserved {w : Word} (hop : opField w ∈ [0x02, 0x10]) (h : bField w ≠ 0) (s : State) :
    execWord w s = .next (raise .rsvd w s) := by
  have hz : (bField w == 0) = false := by simpa using h
  simp only [List.mem_cons, List.not_mem_nil, or_false] at hop
  rcases hop with hop | hop
  all_goals exact execWord_of_reserved (decode_of_opField hop) hz s

/-- Settles O3, one group of commands after the other by what their reserved fields are; the opcode values are counted. -/
theorem illegalWords : Obligations.IllegalWords := by
  refine fun w s => ⟨fun hop => ?unassigned, fun hop h => execWord_noOperands_reserved hop h s,
    fun hop h => execWord_b_reserved hop h s, fun hop h => ?setinterp, fun hop h => ?drumparam,
    fun hop h => execWord_index_reserved hop h s, fun hop h => ?vstart, ?count⟩
  case unassigned => exact execWord_of_reject ((decode_eq w).trans (commandOf_unassigned _ _ _ hop)) s
  case setinterp => exact execWord_of_reserved (decode_of_opField hop) (by simpa using h) s
  case drumparam =>
    have hb : bField w / 256 ≠ 0 := by omega
    exact execWord_of_reserved (decode_of_opField hop) (by simpa using hb) s
  case vstart => exact execWord_of_reserved (decode_of_opField hop) (by simpa using h) s
  case count => decide +kernel

end Sys2Proof.Machine
end

section
/-!
The commands that report the state in RESP: the word of RDVOICE and the two of RDFAULT (30_encoding.md R74, R75, R114,
60_exceptions.md R149).
-/

namespace Sys2Proof.Machine

/-! ### RDVOICE -/

theorem encode_rdvoice (v : Nat) : encode (.rdvoice v) = BitVec.ofNat 64 (0x34 + v * 65536) :=
  congrArg (BitVec.ofNat 64) (by show 0x34 + 0 * 256 + v * 65536 + 0 * 4294967296 = _; omega)

theorem exec_rdvoice (v : Nat) (s : State) : exec (.rdvoice v) s = finishCommand (encode (.rdvoice v)) s
    (if s.params.nv ≤ v then .error .index else .ok (s.emitResp (s.voice v).statusWord)) := rfl

theorem Stage.code_lt (g : Stage) : g.code < 8 := by cases g <;> decide

theorem statusWord_flags (x : Voice) :
    x.statusWord.getLsbD 0 = x.active ∧ x.statusWord.getLsbD 1 = x.finished ∧ x.statusWord.getLsbD 2 = x.releasing ∧
      x.statusWord.getLsbD 3 = x.isLooping ∧ x.statusWord.getLsbD 4 = x.aborted := by
  simp only [Voice.statusWord, BitVec.getLsbD_append]
  simp

/-- What stands above five flag bits is read five places higher. -/
theorem extractLsb'_append_flags {n : Nat} (high : BitVec n) (b4 b3 b2 b1 b0 : Bool) (start len : Nat) :
    (high ++ BitVec.ofBool b4 ++ BitVec.ofBool b3 ++ BitVec.ofBool b2 ++ BitVec.ofBool b1 ++ BitVec.ofBool b0).extractLsb'
      (start + 5) len = high.extractLsb' start len := by
  simp [BitVec.extractLsb'_append_eq_of_le]

/-- The fields above the flags, each read at the sum of the widths below it. -/
theorem extractLsb'_append_fields (level : BitVec 32) (zero key part : BitVec 8) (stage : BitVec 3) :
    let high := level ++ zero ++ key ++ part ++ stage
    high.extractLsb' 0 3 = stage ∧ high.extractLsb' 3 8 = part ∧ high.extractLsb' 11 8 = key ∧
      high.extractLsb' 19 8 = zero ∧ high.extractLsb' 27 32 = level := by
  simp only [BitVec.extractLsb'_append_eq_ite]
  simp

theorem statusWord_fields (x : Voice) :
    x.statusWord.extractLsb' 5 3 = BitVec.ofNat 3 x.egTva.stage.code ∧
      x.statusWord.extractLsb' 8 8 = BitVec.ofNat 8 x.part ∧ x.statusWord.extractLsb' 16 8 = BitVec.ofNat 8 x.key ∧
      x.statusWord.extractLsb' 24 8 = 0 ∧ x.statusWord.extractLsb' 32 32 = x.egTva.level.toF32.bits := by
  obtain ⟨hstage, hpart, hkey, hzero, hlevel⟩ := extractLsb'_append_fields x.egTva.level.toF32.bits 0#8
    (BitVec.ofNat 8 x.key) (BitVec.ofNat 8 x.part) (BitVec.ofNat 3 x.egTva.stage.code)
  have above (start len : Nat) := extractLsb'_append_flags (x.egTva.level.toF32.bits ++ 0#8 ++ BitVec.ofNat 8 x.key ++
    BitVec.ofNat 8 x.part ++ BitVec.ofNat 3 x.egTva.stage.code) x.aborted x.isLooping x.releasing x.finished x.active
    start len
  exact ⟨(above 0 3).trans hstage, (above 3 8).trans hpart, (above 11 8).trans hkey, (above 19 8).trans hzero,
    (above 27 32).trans hlevel⟩

/-- Settles O38, from the two outcomes of RDVOICE and the fields of the status word. -/
theorem rdvoiceCompletes : Obligations.RdvoiceCompletes := by
  refine ⟨fun w s hop h => ?reserved, fun v s _ => ⟨encode_rdvoice v, fun hv => ?index, fun hv => ?completes⟩,
    fun v => ?reset, fun x => ?word⟩
  case reserved => exact execWord_index_reserved (by simp [hop]) (by omega) s
  case index => rw [exec_rdvoice, if_pos hv, finishCommand_error]
  case completes =>
    rw [exec_rdvoice, if_neg (Nat.not_le.mpr hv), finishCommand_ok]
    rfl
  case reset =>
    show Voice.reset.statusWord = _
    decide +kernel
  case word =>
    obtain ⟨hactive, hfinished, hreleasing, hlooping, haborted⟩ := statusWord_flags x
    obtain ⟨hstage, hpart, hkey, hzero, hlevel⟩ := statusWord_fields x
    have hcode : (x.statusWord.extractLsb' 5 3).toNat = x.egTva.stage.code := by
      rw [hstage, BitVec.toNat_ofNat]
      exact Nat.mod_eq_of_lt (Stage.code_lt _)
    exact ⟨hactive, hfinished, hreleasing, hlooping, haborted, hcode, hpart, hkey, hzero, hlevel⟩

/-! ### RDFAULT -/

theorem faultWord_eq (s : State) : s.faultWord =
    s.fault.setWidth 64 ||| (s.faultCause.setWidth 64 <<< 32) ||| (s.faultVoice.setWidth 64 <<< 40) := by
  have h : s.faultWord = (0#16).setWidth 64 <<< 48 ||| s.faultVoice.setWidth 64 <<< 40 |||
      s.faultCause.setWidth 64 <<< 32 ||| s.fault.setWidth 64 :=
    (BitVec.setWidth_eq _).symm.trans BitVec.setWidth_append_append_append_eq_shiftLeft_setWidth_or
  rw [h, BitVec.setWidth_zero, BitVec.zero_shiftLeft, BitVec.zero_or, BitVec.or_comm,
    BitVec.or_comm (s.faultVoice.setWidth 64 <<< 40), BitVec.or_assoc]

theorem exec_rdfault (s : State) : exec .rdfault s =
    .next { s with resp := s.resp ++ [s.faultWord, s.faultCmd], cp := s.cp + 1 } := by
  show Host.Outcome.next { s with resp := s.resp ++ [s.faultWord] ++ [s.faultCmd], cp := s.cp + 1 } = _
  rw [List.append_assoc]
  rfl

/-- Settles O39: a word of the opcode other than its encoding has a reserved field, and the two words are those of R75. -/
theorem rdfaultCompletes : Obligations.RdfaultCompletes := by
  refine ⟨rfl, fun w s hop hw => ?reserved, fun s => ?completes, by decide, by decide, by decide, by decide⟩
  case reserved =>
    refine execWord_noOperands_reserved (by simp [hop]) (fun hzero => hw ?_) s
    obtain ⟨ha, hb, hd⟩ := hzero
    rw [← packWord_fields w, hop, ha, hb, hd]
    rfl
  case completes => rw [exec_rdfault, faultWord_eq]

end Sys2Proof.Machine
end

section
/-!
How binary64 results are evaluated in proofs: two data are equal when their bits are, and a sum with a zero, which `R.add`
aligns to the least exponent 2^−1074, is the other number (00_scope.md R14).
-/

namespace Sys2Proof

/-! ### Evaluation -/

theorem R.eq_of_bits {x y : R} (h : x.bits = y.bits) : x = y := congrArg R.mk h

theorem Coeffs.eq_of_bits {c d : Coeffs} (hn0 : c.n0.bits = d.n0.bits) (hn1 : c.n1.bits = d.n1.bits)
    (hn2 : c.n2.bits = d.n2.bits) (hd1 : c.d1.bits = d.d1.bits) (hd2 : c.d2.bits = d.d2.bits) : c = d := by
  cases c
  cases d
  rw [Coeffs.mk.injEq]
  exact ⟨R.eq_of_bits hn0, R.eq_of_bits hn1, R.eq_of_bits hn2, R.eq_of_bits hd1, R.eq_of_bits hd2⟩

/-- A power as a shift: `decide` evaluates a shift by any width, but leaves powers above 2^256 alone. -/
theorem two_pow_eq_shiftLeft (n : Nat) : Nat.pow 2 n = 1 <<< n := (Nat.one_shiftLeft n).symm

/-! ### Rounding a shifted number -/

/-- A number written with `k` more zero bits has its leading bit `k` places higher. -/
theorem log2_shiftLeft {m : Nat} (hm : m ≠ 0) (k : Nat) : Nat.log2 (m <<< k) = Nat.log2 m + k := by
  have hpos : 0 < 2 ^ k := Nat.two_pow_pos k
  obtain ⟨hlow, hhigh⟩ := (Nat.log2_eq_iff hm).mp rfl
  rw [Nat.shiftLeft_eq, Nat.log2_eq_iff (Nat.mul_ne_zero hm (Nat.ne_of_gt hpos))]
  constructor
  · rw [Nat.pow_add]
    exact Nat.mul_le_mul_right _ hlow
  · rw [show Nat.log2 m + k + 1 = Nat.log2 m + 1 + k by omega, Nat.pow_add]
    exact Nat.mul_lt_mul_of_pos_right hhigh hpos

/-- Cutting off some of the zero bits a number ends with rounds nothing. -/
theorem roundShift_shiftLeft (m : Nat) {j k : Nat} (h : j ≤ k) : roundShift (m <<< k) j = m <<< (k - j) := by
  have hsplit : m <<< k = m <<< (k - j) <<< j := by rw [← Nat.shiftLeft_add, Nat.sub_add_cancel h]
  have hrest : m <<< k % Nat.pow 2 j = 0 := by
    rw [hsplit, Nat.shiftLeft_eq _ j]
    exact Nat.mul_mod_left ..
  have hquot : m <<< k >>> j = m <<< (k - j) := by rw [hsplit, Nat.shiftLeft_shiftRight]
  have hhalf : 0 ≠ 2 ^ (j - 1) := Nat.ne_of_lt (Nat.two_pow_pos _)
  unfold roundShift
  rw [hrest, hquot]
  split
  · next hj => rw [hj, Nat.sub_zero]
  · simp [hhalf]

/-- The rounding of a number that fits the precision does not ask how the number is written. -/
theorem roundBits_shiftLeft {p m : Nat} (emin : Int) (infBits k : Nat) {e : Int} (hp : Nat.log2 m < p) (he : emin ≤ e) :
    roundBits p emin infBits (m <<< k) (e - k) = roundBits p emin infBits m e := by
  by_cases hm : m = 0
  · rw [hm, Nat.zero_shiftLeft]
    rfl
  have hshift : m <<< k ≠ 0 := fun h => hm (Nat.shiftLeft_eq_zero_iff.mp h)
  have hq : max (e - k + Int.ofNat (Nat.log2 m + k + 1) - Int.ofNat p) emin =
      max (e + Int.ofNat (Nat.log2 m + 1) - Int.ofNat p) emin := by
    simp only [Int.ofNat_eq_natCast]
    omega
  unfold roundBits
  rw [if_neg hm, if_neg hshift, log2_shiftLeft hm, hq]
  have hle : max (e + Int.ofNat (Nat.log2 m + 1) - Int.ofNat p) emin ≤ e := by
    simp only [Int.ofNat_eq_natCast]
    omega
  generalize max (e + Int.ofNat (Nat.log2 m + 1) - Int.ofNat p) emin = q at hle
  have hmant : (if q ≤ e - k then m <<< k <<< (e - k - q).toNat else roundShift (m <<< k) (q - (e - k)).toNat) =
      m <<< (e - q).toNat := by
    split
    · rw [← Nat.shiftLeft_add]
      congr 1
      omega
    · rw [roundShift_shiftLeft m (by omega)]
      congr 1
      omega
  dsimp only
  rw [if_pos hle, hmant]


/-! ### Adding zero -/

theorem alignTo_zero (neg : Bool) (ea e : Int) : alignTo neg 0 ea e = 0 := by
  unfold alignTo
  rw [Nat.zero_shiftLeft]
  cases neg <;> rfl

theorem alignTo_natAbs (neg : Bool) (m : Nat) (ea e : Int) : (alignTo neg m ea e).natAbs = m <<< (ea - e).toNat := by
  unfold alignTo
  cases neg
  · rfl
  · exact Int.natAbs_neg _

theorem alignTo_neg_iff (neg : Bool) {m : Nat} (hm : m ≠ 0) (ea e : Int) : alignTo neg m ea e < 0 ↔ neg = true := by
  have hpos : 0 < m <<< (ea - e).toNat := Nat.pos_of_ne_zero fun h => hm (Nat.shiftLeft_eq_zero_iff.mp h)
  unfold alignTo
  generalize m <<< (ea - e).toNat = z at hpos
  simp only [Int.ofNat_eq_natCast]
  cases neg
  · simp
  · simp only [if_true, iff_true]
    omega

/-- A sum of which one number is zero is the other number, with its sign. -/
theorem R.add_zero_datum {x y : R} {a b : Bool} {m : Nat} {e : Int} (hx : x.unpack = .fin a m e)
    (hy : y.unpack = .fin b 0 (-1074)) (hm : m ≠ 0) (hp : Nat.log2 m < 53) (he : -1074 ≤ e) :
    R.add x y = R.ofDyadic a m e ∧ R.add y x = R.ofDyadic a m e := by
  have hround : roundBits 53 (-1074) infBits64 (m <<< (e - -1074).toNat) (-1074) =
      roundBits 53 (-1074) infBits64 m e := by
    have h := roundBits_shiftLeft (-1074) infBits64 (e - -1074).toNat hp he
    rwa [show e - ((e - -1074).toNat : Int) = -1074 by omega] at h
  have hsign : decide (alignTo a m e (-1074) < 0) = a := by
    rw [Bool.eq_iff_iff, decide_eq_true_eq]
    exact alignTo_neg_iff a hm e (-1074)
  have hne : alignTo a m e (-1074) ≠ 0 := by
    rw [← Int.natAbs_ne_zero, alignTo_natAbs]
    exact fun h => hm (Nat.shiftLeft_eq_zero_iff.mp h)
  have hsum : R.ofDyadic (decide (alignTo a m e (-1074) < 0)) (alignTo a m e (-1074)).natAbs (-1074) =
      R.ofDyadic a m e := by
    rw [hsign, alignTo_natAbs]
    exact congrArg (R.pack a) hround
  unfold R.add
  rw [hx, hy]
  dsimp only
  rw [Int.min_eq_right he, Int.min_eq_left he, alignTo_zero, Int.add_zero, Int.zero_add, if_neg hne, if_neg hne, hsum]
  exact ⟨rfl, rfl⟩

end Sys2Proof
end

section
/-!
The sample's way into its bank: the bank map of its address, the expansion of its bytes, the coefficients of the two
filters, and DECODE, which takes the fault of the first check that fails and else fills the bank
(40_decode_filters.md R81 to R87).
-/

namespace Sys2Proof.Machine

/-! ### The bank map (R84) -/

/-- In a 24-bit address nothing stands above the selector. -/
theorem bankBase_of_lt {addr : Nat} (h : addr < 0x1000000) : bankBase addr =
    (if addr / 0x100000 = 0 then some (addr % 0x100000)
     else if addr / 0x100000 = 1 ∨ addr / 0x100000 = 2 then some (0x100000 + addr % 0x100000)
     else if addr / 0x100000 = 4 then some (0x200000 + addr % 0x100000)
     else none) := by
  have hsel : addr / 0x100000 % 16 = addr / 0x100000 := Nat.mod_eq_of_lt (by omega)
  unfold bankBase
  rw [hsel]

/-- Settles O29: the selector of a 24-bit address is its quotient; the examples are computed. -/
theorem bankMap : Obligations.BankMap :=
  ⟨fun _ h => bankBase_of_lt h, by decide, by decide, by decide, by decide⟩

/-! ### The expansion of a byte (R85) -/

/-- `wrap32` takes multiples of 2^32 away until the value is in the signed range. -/
theorem wrap32_spec (v : Int) :
    ∃ k : Int, wrap32 v = v + k * 2 ^ 32 ∧ -2147483648 ≤ wrap32 v ∧ wrap32 v ≤ 2147483647 := by
  unfold wrap32
  exact ⟨-((v + 2147483648) / 4294967296), by omega, by omega, by omega⟩

theorem expandWord_eq (b : Byte) (shift : Nat) : expandWord b shift = wrap32 (b.toInt * 2 ^ shift * 2 ^ 14) := by
  have hpow : Int.ofNat (Nat.pow 2 shift) = 2 ^ shift := Int.natCast_pow 2 shift
  unfold expandWord
  rw [hpow]
  rfl

/-- Silence stays silence under every shift. -/
theorem expandWord_zero (shift : Nat) : expandWord 0x00 shift = 0 := by
  rw [expandWord_eq, show (0x00 : Byte).toInt = 0 from rfl, Int.zero_mul, Int.zero_mul]
  rfl

theorem nibbleShift_eq (nb : Byte) (i : Nat) :
    nibbleShift nb i = if i.testBit 4 then nb.toNat >>> 4 else nb.toNat &&& 0x0F := by
  have hlow : nb.toNat &&& 0x0F = nb.toNat % 16 := Nat.and_two_pow_sub_one_eq_mod _ 4
  unfold nibbleShift
  rw [Nat.testBit_eq_decide_div_mod_eq, Nat.shiftRight_eq_div_pow, hlow]
  simp only [decide_eq_true_eq, Nat.reducePow]

/-! ### The coefficients (R81, R82) -/

theorem riaaCoeffs_reference {p : Params} (h : p.riaaMap = .reference) : riaaCoeffs p = riaaRef p.numerics := by
  unfold riaaCoeffs
  rw [h]

/-- The two zeros and the two poles of the de-emphasis. -/
theorem riaaRoot_reference :
    riaaRoot .reference (R.ofRat 318 1000000) = ⟨0x3fed01426be6f932#64⟩ ∧
      riaaRoot .reference (R.ofRat 318 100000000) = ⟨0x3f0c4c01e970ab8b#64⟩ ∧
      riaaRoot .reference (R.ofRat 3180 1000000) = ⟨0x3fefafe4203ad327#64⟩ ∧
      riaaRoot .reference (R.ofRat 75 1000000) = ⟨0x3fe5187fce5cf883#64⟩ := by
  refine ⟨R.eq_of_bits ?_, R.eq_of_bits ?_, R.eq_of_bits ?_, R.eq_of_bits ?_⟩
  all_goals
    unfold riaaRoot Numerics.exp R.exp expFixed R.ofDyadic roundBits roundShift
    simp -zeta only [two_pow_eq_shiftLeft]
    decide

/-- The de-emphasis coefficients to the last bit, from their zeros and poles. -/
theorem riaaRef_reference : riaaRef .reference =
    { n0 := ⟨0x3fe117112160cc52#64⟩, n1 := ⟨0xbfdefba0562f84a8#64⟩, n2 := ⟨0x3efb6558d97efca1#64⟩
      d1 := ⟨0xbffa6431f74be5d5#64⟩, d2 := ⟨0x3fe4e3b02ea882ee#64⟩ } := by
  obtain ⟨hz1, hz2, hp1, hp2⟩ := riaaRoot_reference
  unfold riaaRef
  rw [hz1, hz2, hp1, hp2]
  exact Coeffs.eq_of_bits (by decide) (by decide) (by decide) (by decide) (by decide)

/-- The sums of R81 where `w2t2` and the damping term are zero. -/
theorem sums_with_zero : R.add (R.ofInt 4) R.zero = R.ofInt 4 ∧ R.sub (R.ofInt 4) R.zero = R.ofInt 4 ∧
    R.sub R.zero (R.ofInt 8) = R.ofInt (-8) := by
  have hfour : (R.ofInt 4).unpack = .fin false 0x10000000000000 (-50) := by decide
  have height : (R.ofInt 8).negate.unpack = .fin true 0x10000000000000 (-49) := by decide
  have hzero : R.zero.unpack = .fin false 0 (-1074) := by decide
  have hnegZero : R.zero.negate.unpack = .fin true 0 (-1074) := by decide
  obtain ⟨hadd, -⟩ := R.add_zero_datum hfour hzero (by decide) (by decide) (by decide)
  obtain ⟨hsub, -⟩ := R.add_zero_datum hfour hnegZero (by decide) (by decide) (by decide)
  obtain ⟨-, hneg⟩ := R.add_zero_datum height hzero (by decide) (by decide) (by decide)
  exact ⟨hadd.trans (R.eq_of_bits (by decide)), hsub.trans (R.eq_of_bits (by decide)),
    hneg.trans (R.eq_of_bits (by decide))⟩

/-- A closed low-pass filter: no input passes, and both poles stand at 1. -/
theorem lpCoeffs_zero_cutoff : lpCoeffs .reference R.zero (R.ofRat 7071067811865476 10000000000000000) 32000 =
    { n0 := R.zero, n1 := R.zero, n2 := R.zero, d1 := R.ofInt (-2), d2 := R.one } := by
  obtain ⟨hadd, hsub, hneg⟩ := sums_with_zero
  have hw : R.mul (R.mul (R.ofInt 2) PI) R.zero = R.zero := by decide
  have hsquare : R.mul R.zero R.zero = R.zero := by decide
  have hscale : R.mul R.zero (R.mul (R.div R.one (R.ofInt (32000 : Nat))) (R.div R.one (R.ofInt (32000 : Nat)))) =
      R.zero := by decide
  have htwo : R.mul (R.ofInt 2) R.zero = R.zero := by decide
  have ha : R.mul (R.mul (R.div R.zero (R.ofRat 7071067811865476 10000000000000000)) (R.ofInt 2))
      (R.div R.one (R.ofInt (32000 : Nat))) = R.zero := by decide
  have hn0 : R.div R.zero (R.ofInt 4) = R.zero := by decide
  have hd1 : R.div (R.ofInt (-8)) (R.ofInt 4) = R.ofInt (-2) := R.eq_of_bits (by decide)
  have hd2 : R.div (R.ofInt 4) (R.ofInt 4) = R.one := R.eq_of_bits (by decide)
  unfold lpCoeffs Numerics.add Numerics.sub Numerics.mul Numerics.div
  simp only [hw, hsquare, hscale, ha, hadd, hsub, htwo, hneg, hn0, hd1, hd2]

/-- The TVF at its reference cutoff and quality, at 32 kHz. -/
theorem lpCoeffs_8kHz : lpCoeffs .reference (R.ofInt 8000) (R.ofRat 7071067811865476 10000000000000000) 32000 =
    { n0 := R.ofRat 22615369971864097 100000000000000000, n1 := R.ofRat 45230739943728193 100000000000000000
      n2 := R.ofRat 22615369971864097 100000000000000000, d1 := R.ofRat (-2809457378614873) 10000000000000000
      d2 := R.ofRat 1855605367360512 10000000000000000 } :=
  Coeffs.eq_of_bits (by decide) (by decide) (by decide) (by decide) (by decide)

/-- Settles O28: the formulas for every argument, the worked expansions and coefficients by evaluation. -/
theorem decodeExamples : Obligations.DecodeExamples := by
  refine ⟨fun b shift => ?expansion, nibbleShift_eq, fun _ => rfl, fun _ => riaaCoeffs_reference, fun _ _ _ _ => rfl,
    lpCoeffs_zero_cutoff, by decide, by decide, by decide, by decide, by decide, by decide, by decide,
    fun k _ => expandWord_zero k, riaaRef_reference, lpCoeffs_8kHz⟩
  case expansion =>
    rw [expandWord_eq]
    exact wrap32_spec _

/-! ### The checks of DECODE (R84, R87) -/

theorem decodeChecks_index {s : State} {i : Nat} (hi : s.params.ns ≤ i) : decodeChecks s i = .error .index :=
  if_pos hi

section
variable {s : State} {i : Nat} (hi : i < s.params.ns)
include hi

theorem decodeChecks_unloaded (hl : s.sdtLoaded i = false) : decodeChecks s i = .error .unloaded := by
  unfold decodeChecks
  rw [if_neg (Nat.not_le.mpr hi), hl]
  rfl

variable (hl : s.sdtLoaded i = true)
include hl

theorem decodeChecks_busy (hbusy : ∃ v, v < s.params.nv ∧ (s.voice v).active = true ∧ (s.voice v).s = i) :
    decodeChecks s i = .error .busy := by
  have hsome : (s.someActive fun v => v.s == i) = true := by
    rw [someActive_true]
    simpa using hbusy
  unfold decodeChecks
  rw [if_neg (Nat.not_le.mpr hi), hl, hsome]
  rfl

variable (hidle : ∀ v, v < s.params.nv → (s.voice v).active = true → (s.voice v).s ≠ i)
include hidle

/-- Where the sample is loaded and no voice plays it, its address decides. -/
theorem decodeChecks_address : (bankBase (s.sdtData i 0) = none → decodeChecks s i = .error .bankSel) ∧
    ∀ base, bankBase (s.sdtData i 0) = some base → decodeChecks s i =
      if s.params.romSize ≤ base + s.sdtData i 1 then .error .romRange else .ok base := by
  have hnone : (s.someActive fun v => v.s == i) = false := by
    rw [someActive_false]
    simpa using hidle
  unfold decodeChecks
  rw [if_neg (Nat.not_le.mpr hi), hl, hnone]
  exact ⟨fun hb => by rw [hb]; rfl, fun base hb => by rw [hb]; rfl⟩

end

/-! ### DECODE (R87) -/

theorem exec_decode_error {s : State} {i : Nat} {c : Cause} (h : decodeChecks s i = .error c) :
    exec (.decode i) s = .next (raise c (encode (.decode i)) s) := by
  show execDecode i s = _
  unfold execDecode
  rw [h]

/-- The loop reads the ROM inside its size, by the last check, and starts from zero histories. -/
theorem exec_decode_ok {s : State} {i base : Nat} (h : decodeChecks s i = .ok base) :
    ∃ l, exec (.decode i) s =
        finishCommand (encode (.decode i)) s (.ok (s.setBank i { decoded := true, data := l })) ∧
      l.length = s.sdtData i 1 + 1 ∧ ∀ k, k ≤ s.sdtData i 1 → l[k]? =
        some (decodedElement s.params.numerics (riaaCoeffs s.params) (expanded s base) k) := by
  obtain ⟨-, -, -, -, hrange⟩ := decodeChecks_ok h
  obtain ⟨l, hl, hlen, hget⟩ := decodeElements_ok s (riaaCoeffs s.params) base (s.sdtData i 1 + 1) 0 (by omega)
  have hzero : decodeElements s (riaaCoeffs s.params) base (s.sdtData i 1 + 1) 0 History.zero History.zero = .ok l := hl
  refine ⟨l, ?_, hlen, fun k hk => ?_⟩
  · show execDecode i s = _
    unfold execDecode
    rw [h]
    dsimp only
    rw [hzero]
  · rw [hget k (Nat.lt_succ_of_le hk), Nat.zero_add]

/-- Settles O30: each clause names the first check that fails. -/
theorem decodeFaults : Obligations.DecodeFaults := by
  refine fun i s => ⟨fun hi => exec_decode_error (decodeChecks_index hi),
    fun hi hl => exec_decode_error (decodeChecks_unloaded hi hl),
    fun hi hl hbusy => exec_decode_error (decodeChecks_busy hi hl hbusy), fun hi hl hidle => ?_⟩
  obtain ⟨hsel, hbase⟩ := decodeChecks_address hi hl hidle
  exact ⟨fun hb => exec_decode_error (hsel hb),
    fun base hb hr => exec_decode_error ((hbase base hb).trans (if_pos hr))⟩

/-- Settles O31: the checks pass, so the loop's elements are written into the one bank. -/
theorem decodeCompletes : Obligations.DecodeCompletes := by
  intro i base s hi hl hidle hb hr
  have hchecks : decodeChecks s i = .ok base :=
    ((decodeChecks_address hi hl hidle).2 base hb).trans (if_neg (Nat.not_le.mpr hr))
  obtain ⟨l, hexec, hlen, hget⟩ := exec_decode_ok hchecks
  have hsame := bankOf_setBank_same s i { decoded := true, data := l }
  refine ⟨{ s.setBank i { decoded := true, data := l } with cp := s.cp + 1 }, hexec, ?decoded, ?length, ?element,
    fun j hj => (bankOf_setBank s i { decoded := true, data := l } j).trans (if_neg hj), rfl, fun _ => rfl⟩
  case decoded => exact congrArg Bank.decoded hsame
  case length => exact (congrArg (fun b => b.data.length) hsame).trans hlen
  case element => exact fun k hk => (congrArg (fun b => b.data[k]?) hsame).trans (hget k hk)

end Sys2Proof.Machine
end

section
/-!
The configuration commands and the writes of a register or a table field: each takes the fault of the first check that fails,
or writes the one piece of state it names (41_parameters.md R93 to R102).
-/

namespace Sys2Proof.Machine

/-! ### Commands without operands -/

/-- A word of a command without operands is its encoding, or has a reserved field set. -/
theorem execWord_noOperands_of_ne {w : Word} {op : Nat} (hop : opField w = op) (hmem : op ∈ [0x00, 0x01, 0x35, 0x40])
    (hw : w ≠ packWord op 0 0 0) (s : State) : execWord w s = .next (raise .rsvd w s) := by
  refine execWord_noOperands_reserved (hop ▸ hmem) (fun hzero => hw ?_) s
  obtain ⟨ha, hb, hd⟩ := hzero
  rw [← packWord_fields w, hop, ha, hb, hd]

/-- Settles O16: NOP answers its own state, and the all-zero word decodes to it. -/
theorem nopCompletes : Obligations.NopCompletes :=
  ⟨rfl, fun _ s hop hw => execWord_noOperands_of_ne hop (by decide) hw s,
    fun s => ⟨rfl, execWord_of_decode (decode_encode (i := .nop) rfl) s⟩⟩

/-! ### SETFMT and SETINTERP -/

theorem exec_setfmt (fs channels : Nat) (s : State) :
    exec (.setfmt fs channels) s = finishCommand (encode (.setfmt fs channels)) s
      (if channels ≠ 2 ∨ fs < 128 then .error .value
       else if s.someActive fun _ => true then .error .busy
       else .ok { s with fs := BitVec.ofNat 32 fs }) := rfl

/-- Settles O17: the operands are checked before the voices. -/
theorem setfmtCompletes : Obligations.SetfmtCompletes := by
  intro fs channels s hfs
  rw [exec_setfmt]
  refine ⟨fun h => ?value, fun hc hr hbusy => ?busy, fun hc hr hidle => ?completes⟩
  case value => rw [if_pos h, finishCommand_error]
  case busy =>
    have hsome : (s.someActive fun _ => true) = true := by
      rw [someActive_true]
      simpa using hbusy
    rw [if_neg (by omega), if_pos hsome, finishCommand_error]
  case completes =>
    have hnone : ¬ (s.someActive fun _ => true) = true := by
      rw [Bool.not_eq_true, someActive_false]
      simpa using hidle
    rw [if_neg (by omega), if_neg hnone, finishCommand_ok]
    exact ⟨_, rfl, (BitVec.toNat_ofNat fs 32).trans (Nat.mod_eq_of_lt hfs), rfl⟩

theorem exec_setinterp (mode : Nat) (s : State) :
    exec (.setinterp mode) s = finishCommand (encode (.setinterp mode)) s
      (if 2 < mode then .error .value else .ok { s with interp := BitVec.ofNat 2 mode }) := rfl

/-- Settles O18: a legal mode fits its two bits. -/
theorem setinterpCompletes : Obligations.SetinterpCompletes := by
  intro mode s
  rw [exec_setinterp]
  refine ⟨fun h => ?value, fun h => ?completes⟩
  case value => rw [if_pos h, finishCommand_error]
  case completes =>
    rw [if_neg (Nat.not_lt.mpr h), finishCommand_ok]
    exact ⟨_, rfl, (BitVec.toNat_ofNat mode 2).trans (Nat.mod_eq_of_lt (by omega)), rfl⟩

/-! ### The end of a field write

A write to a field ends in one of three ways, by the greatest legal value of the field (60_exceptions.md R145). -/

section
variable {limit : Option Nat} {value m : Nat} (w : Word) (s effect : State)

theorem finishField_index (h : limit = none) :
    finishCommand w s (checkField limit value effect) = .next (raise .index w s) := by
  rw [h, checkField_none, finishCommand_error]

theorem finishField_value (h : limit = some m) (hv : m < value) :
    finishCommand w s (checkField limit value effect) = .next (raise .value w s) := by
  rw [h, checkField_value hv, finishCommand_error]

theorem finishField_ok (h : limit = some m) (hv : value ≤ m) :
    finishCommand w s (checkField limit value effect) = .next { effect with cp := effect.cp + 1 } := by
  rw [h, checkField_ok hv, finishCommand_ok]

end

/-! Where the field belongs to an entry of a table, the entry is checked first. -/

section
variable {bound i : Nat} {limit : Option Nat} {value m : Nat} (w : Word) (s effect : State)

theorem finishEntry_index (h : bound ≤ i ∨ limit = none) :
    finishCommand w s (if bound ≤ i then .error .index else checkField limit value effect) =
      .next (raise .index w s) := by
  by_cases hi : bound ≤ i
  · rw [if_pos hi, finishCommand_error]
  · rw [if_neg hi]
    exact finishField_index w s effect (h.resolve_left hi)

theorem finishEntry_value (hi : i < bound) (h : limit = some m) (hv : m < value) :
    finishCommand w s (if bound ≤ i then .error .index else checkField limit value effect) =
      .next (raise .value w s) := by
  rw [if_neg (Nat.not_le.mpr hi)]
  exact finishField_value w s effect h hv

theorem finishEntry_ok (hi : i < bound) (h : limit = some m) (hv : value ≤ m) :
    finishCommand w s (if bound ≤ i then .error .index else checkField limit value effect) =
      .next { effect with cp := effect.cp + 1 } := by
  rw [if_neg (Nat.not_le.mpr hi)]
  exact finishField_ok w s effect h hv

end

/-! ### The columns of the fields (10_state.md R27, R31, R32, R33, R35) -/

theorem sysMax_none {id : Nat} (h : 3 < id) : sysMax id = none := by
  unfold sysMax
  rw [if_neg (by omega), if_neg (by omega)]

theorem sysMax_some {id : Nat} (h : id ≤ 3) : sysMax id = some (if id = 0 then 0xFFFF else 127) := by
  unfold sysMax
  rw [if_pos h]
  split <;> rfl

theorem drumMax_none {field : Nat} (h : 1 < field) : drumMax field = none := by
  unfold drumMax
  rw [if_neg (by omega), if_neg (by omega)]

theorem drumMax_some {field : Nat} (h : field ≤ 1) : drumMax field = some (if field = 0 then 127 else 1) := by
  unfold drumMax
  split
  · rfl
  · rw [if_pos (by omega)]

theorem sdtMax_none {field : Nat} (h : 7 < field) : sdtMax field = none := by
  unfold sdtMax
  rw [if_neg (by omega), if_neg (by omega), if_neg (by omega), if_neg (by omega), if_neg (by omega), if_neg (by omega)]

theorem sdtMax_some {field : Nat} (h : field ≤ 7) : sdtMax field = some
    (if field ≤ 2 then 0xFFFFFF else if field = 3 then 2 else if field = 5 ∨ field = 7 then 0xFFFF else 127) := by
  interval_cases field <;> rfl

theorem pdtMax_none {ntv field : Nat}
    (h : ¬ (field ≤ 3 ∨ (0x10 ≤ field ∧ field ≤ 0x2F) ∨ (0x40 ≤ field ∧ field < 0x40 + ntv))) :
    pdtMax ntv field = none := by
  unfold pdtMax
  rw [if_neg (by omega), if_neg (by omega), if_neg (by omega), if_neg (by omega)]

theorem pdtMax_some {ntv field : Nat}
    (h : field ≤ 3 ∨ (0x10 ≤ field ∧ field ≤ 0x2F) ∨ (0x40 ≤ field ∧ field < 0x40 + ntv)) :
    pdtMax ntv field = some (if field < 0x20 then 127 else if field ≤ 0x2F then 0xFFFF else 0xFF) := by
  unfold pdtMax
  rcases h with hlow | hsplit | htv
  · rw [if_pos hlow, if_pos (by omega)]
  · by_cases hbreak : field ≤ 0x1F
    · rw [if_neg (by omega), if_pos ⟨hsplit.1, hbreak⟩, if_pos (by omega)]
    · rw [if_neg (by omega), if_neg (by omega), if_pos (by omega), if_neg (by omega), if_pos hsplit.2]
  · rw [if_neg (by omega), if_neg (by omega), if_neg (by omega), if_pos htv, if_neg (by omega), if_neg (by omega)]

theorem vsMax_none {p : Params} {field : Nat} (h : ¬ (field ≤ 5 ∨ (0x10 ≤ field ∧ field < 0x10 + p.nit))) :
    vsMax p field = none := by
  unfold vsMax
  rw [if_neg (by omega), if_neg (by omega), if_neg (by omega), if_neg (by omega)]

theorem vsMax_some {p : Params} {field : Nat} (h : field ≤ 5 ∨ (0x10 ≤ field ∧ field < 0x10 + p.nit)) :
    vsMax p field =
      some (if field = 0 then p.nPart - 1 else if field = 3 then 3 else if field ≤ 5 then 127 else 0xFF) := by
  unfold vsMax
  rcases h with hlow | htv
  · rw [if_pos hlow, if_pos hlow]
    split_ifs <;> rfl
  · rw [if_neg (by omega), if_neg (by omega), if_neg (by omega), if_pos htv, if_neg (by omega), if_neg (by omega),
      if_neg (by omega)]

/-! ### SYSPARAM and DRUMPARAM -/

theorem exec_sysparam (id value : Nat) (s : State) : exec (.sysparam id value) s =
    finishCommand (encode (.sysparam id value)) s (checkField (sysMax id) value (s.setSysReg id value)) := rfl

/-- Settles O19, by the three outcomes of the field check. -/
theorem sysparamCompletes : Obligations.SysparamCompletes := by
  intro id value s limit
  rw [exec_sysparam]
  refine ⟨fun h => finishField_index _ s _ (sysMax_none h), fun h hv => finishField_value _ s _ (sysMax_some h) hv,
    fun h hv => ⟨_, finishField_ok _ s _ (sysMax_some h) hv, sysReg_setSysReg s id value, rfl, fun _ => rfl⟩⟩

theorem exec_drumparam (map key field value : Nat) (s : State) : exec (.drumparam map key field value) s =
    finishCommand (encode (.drumparam map key field value)) s
      (checkField (drumMax field) value (s.setDrumReg map key field value)) := rfl

/-- Settles O22, by the three outcomes of the field check. -/
theorem drumparamCompletes : Obligations.DrumparamCompletes := by
  intro m k field value s _ hk limit
  rw [exec_drumparam]
  refine ⟨fun h => finishField_index _ s _ (drumMax_none h), fun h hv => finishField_value _ s _ (drumMax_some h) hv,
    fun h hv => ⟨_, finishField_ok _ s _ (drumMax_some h) hv, fun m' k' f' hk' hf' => ?_, rfl, fun _ => rfl⟩⟩
  exact drumReg_setDrumReg s m value m' hk (by omega) hk' hf'

/-! ### SDT_WR, PDT_WR and VSETUP -/

theorem exec_sdtWr (i field value : Nat) (s : State) : exec (.sdtWr i field value) s =
    finishCommand (encode (.sdtWr i field value)) s
      (if s.params.ns ≤ i then .error .index else checkField (sdtMax field) value (sdtEffect i field value s)) := rfl

theorem sdtField_sdtEffect (s : State) {field f : Nat} (i value j : Nat) (hfield : field < 256) (hf : f < 256) :
    (sdtEffect i field value s).sdtField j f =
      if j = i ∧ f = field then { written := true, data := value } else s.sdtField j f :=
  sdtField_setSdtField s i value j hfield hf

theorem bankOf_sdtEffect (s : State) (i field value j : Nat) : (sdtEffect i field value s).bankOf j =
    if j = i then { decoded := false, data := (s.bankOf i).data } else s.bankOf j :=
  bankOf_setBank (s.setSdtField i field value) i { decoded := false, data := (s.bankOf i).data } j

/-- Settles O23: the index, then the field check; the effect writes one field and one bank. -/
theorem sdtWrCompletes : Obligations.SdtWrCompletes := by
  intro i field value s limit
  have hself : (sdtEffect i field value s).bankOf i = { decoded := false, data := (s.bankOf i).data } :=
    (bankOf_sdtEffect s i field value i).trans (if_pos rfl)
  have hdata : ((sdtEffect i field value s).bankOf i).data = (s.bankOf i).data := by rw [hself]
  rw [exec_sdtWr]
  exact ⟨fun h => finishEntry_index _ s _ (h.imp_right sdtMax_none),
    fun hi h hv => finishEntry_value _ s _ hi (sdtMax_some h) hv,
    fun hi h hv => ⟨_, finishEntry_ok _ s _ hi (sdtMax_some h) hv,
      fun j f hf => sdtField_sdtEffect s i value j (by omega) hf, congrArg Bank.decoded hself, hdata,
      fun j hj => (bankOf_sdtEffect s i field value j).trans (if_neg hj), rfl, fun _ => rfl⟩⟩

theorem exec_pdtWr (q field value : Nat) (s : State) : exec (.pdtWr q field value) s =
    finishCommand (encode (.pdtWr q field value)) s
      (if s.params.np ≤ q then .error .index
       else checkField (pdtMax s.params.ntv field) value (s.setPdtField q field value)) := rfl

/-- Settles O24: the index, then the field check; an assigned field of a legal `NTV` has its own key in the table. -/
theorem pdtWrCompletes : Obligations.PdtWrCompletes := by
  intro q field value s hntv assigned limit
  rw [exec_pdtWr]
  refine ⟨fun h => finishEntry_index _ s _ (h.imp_right pdtMax_none),
    fun hq h hv => finishEntry_value _ s _ hq (pdtMax_some h) hv,
    fun hq h hv => ⟨_, finishEntry_ok _ s _ hq (pdtMax_some h) hv, fun j f hf => ?_, rfl, fun _ => rfl⟩⟩
  exact pdtField_setPdtField s q value j (pdtMax_lt hntv (pdtMax_some h)) hf

theorem exec_vsetup (v field value : Nat) (s : State) : exec (.vsetup v field value) s =
    finishCommand (encode (.vsetup v field value)) s
      (if s.params.nv ≤ v then .error .index
       else checkField (vsMax s.params field) value (s.setVsReg v field value)) := rfl

/-- Settles O25: the index, then the field check; an assigned field of a legal `NIT` has its own key in the file. -/
theorem vsetupCompletes : Obligations.VsetupCompletes := by
  intro v field value s hnit assigned limit
  rw [exec_vsetup]
  refine ⟨fun h => finishEntry_index _ s _ (h.imp_right vsMax_none),
    fun hv h hval => finishEntry_value _ s _ hv (vsMax_some h) hval,
    fun hv h hval => ⟨_, finishEntry_ok _ s _ hv (vsMax_some h) hval, fun j f hf => ?_, rfl, fun _ => rfl⟩⟩
  exact vsReg_setVsReg s v value j (vsMax_lt hnit (vsMax_some h)) hf

end Sys2Proof.Machine
end

section
/-!
The values derived from the registers of a part, and the commands that compute them: the controller matrix and the
accumulated modulation, PARTPARAM, and RESET (41_parameters.md R88 to R92, R94, R98).
-/

namespace Sys2Proof.Machine

/-! ### The controller matrix (R88 to R90) -/

theorem bias_eq (d : Nat) : bias d = if d ∈ [0, 1, 2, 3, 7] then 0x40 else 0 := by
  unfold bias
  refine if_congr ?_ rfl rfl
  simp only [List.mem_cons, List.not_mem_nil, or_false]
  omega

/-- A legal scale: the reference's, or one the constraint of `MTAB` lets through. -/
theorem mTabScale_cases (c : Choice) (d : Nat) : mTabScale c d = 1 ∨ mTabScale c d = 2 ∨ mTabScale c d = 4 := by
  cases c with
  | reference => exact .inl rfl
  | other n =>
    have hcases := orReference_cases (Config.mTabScale n d == 1 || Config.mTabScale n d == 2 || Config.mTabScale n d == 4)
      (Config.mTabScale n d) 1
    rcases hcases with ⟨hlegal, he⟩ | he
    · rw [show mTabScale (.other n) d = _ from he]
      simpa [or_assoc] using hlegal
    · exact .inl he

theorem srcVal_reference {s : State} (h : s.params.srcVal = .reference) (p src : Nat) : srcVal s p src =
    if src = 1 then Int.ofNat (s.partReg p 0x21 / 128) else Int.ofNat (s.partReg p (0x20 + src)) := by
  unfold srcVal
  rw [h, Nat.shiftRight_eq_div_pow]
  rfl

section
variable (s : State) (p : Nat) {d src : Nat} (hd : d < 11) (hs : src < 6)

theorem matrixEntry_recomputeMatrix_other {q : Nat} (hq : q ≠ p) (d src : Nat) :
    (recomputeMatrix p s).matrixEntry q d src = s.matrixEntry q d src :=
  (matrixEntry_setMatrix s p _ q d src).trans (if_neg hq)

include hd hs

theorem matrixEntry_recomputeMatrix_same :
    (recomputeMatrix p s).matrixEntry p d src = matrixValue s p d src :=
  ((matrixEntry_setMatrix s p _ p d src).trans (if_pos rfl)).trans (matrixOf_entry s p hd hs)

theorem matrixValue_congr {t : State} (hpart : t.part = s.part) (hparams : t.params = s.params) :
    matrixValue t p d src = matrixValue s p d src := by
  rw [← matrixOf_entry t p hd hs, matrixOf_congr hpart hparams, matrixOf_entry s p hd hs]

end

/-! ### The accumulated modulation (R91) -/

theorem modSum_eq (s : State) (p d : Nat) : modSum s p d =
    s.matrixEntry p d 0 + s.matrixEntry p d 1 + s.matrixEntry p d 2 + s.matrixEntry p d 3 + s.matrixEntry p d 4 +
      s.matrixEntry p d 5 := by
  show 0 + s.matrixEntry p d 0 + _ + _ + _ + _ + _ = _
  rw [Int.zero_add]

theorem modAcc_eq (s : State) (p d : Nat) : modAcc s p d =
    if modSum s p d < 0 then
      -((min (modSum s p d).natAbs (mTabLimit s.params.mTab d) * mTabGain s.params.mTab d / 65536 : Nat) : Int)
    else (min (modSum s p d).natAbs (mTabLimit s.params.mTab d) * mTabGain s.params.mTab d / 65536 : Nat) := by
  unfold modAcc
  simp only [Nat.shiftRight_eq_div_pow]
  rfl

/-- The reference limit cuts nothing off a sum below it, and the reference gain is undone by the shift. -/
theorem modAcc_reference {s : State} (h : s.params.mTab = .reference) {p d : Nat} (hsum : (modSum s p d).natAbs < 2 ^ 31) :
    modAcc s p d = modSum s p d := by
  have hmag : min (modSum s p d).natAbs 0x7FFFFFFF * 0x10000 / 65536 = (modSum s p d).natAbs := by omega
  rw [modAcc_eq, h]
  unfold mTabLimit mTabGain
  dsimp only
  rw [hmag]
  omega

/-- Settles O26, from the entries of a recomputed matrix and the sum of `modAcc`. -/
theorem controllerMatrix : Obligations.ControllerMatrix := by
  refine ⟨fun s p d src hd hs => ?entry, fun s p q d src hq => matrixEntry_recomputeMatrix_other s p hq d src,
    mTabScale_cases, fun s p src h _ => srcVal_reference h p src, fun s p d => ?modulation, fun s p d h => ?reference⟩
  case entry =>
    have hbias : (Int.ofNat (bias d)) = if d ∈ [0, 1, 2, 3, 7] then 0x40 else 0 := by
      rw [bias_eq]
      split <;> rfl
    rw [matrixEntry_recomputeMatrix_same s p hd hs, ← hbias]
    rfl
  case modulation =>
    intro m sum r
    have hsum : modSum s p d = sum := modSum_eq s p d
    rw [modAcc_eq, hsum]
  case reference =>
    intro m sum hsum
    rw [← show modSum s p d = sum from modSum_eq s p d] at hsum ⊢
    exact modAcc_reference h hsum

/-! ### PARTPARAM (R98) -/

theorem isControllerId_iff (id : Nat) : isControllerId id = true ↔ 0x20 ≤ id ∧ id ≤ 0x25 := by
  unfold isControllerId
  exact decide_eq_true_iff

theorem exec_partparam (p id value : Nat) (s : State) : exec (.partparam p id value) s =
    finishCommand (encode (.partparam p id value)) s
      (if s.params.nPart ≤ p then .error .index else checkField (partMax id) value (partEffect p id value s)) := rfl

section
variable (p id value : Nat) (s : State)

theorem partReg_partEffect (q f : Nat) :
    (partEffect p id value s).partReg q f = (s.setPartReg p id value).partReg q f := by
  obtain ⟨m, b, h⟩ := partEffect_shape p id value s
  rw [h]
  rfl

/-- The two recomputations write different tables, so each is what it would be alone. -/
theorem matrixEntry_partEffect (q d src : Nat) : (partEffect p id value s).matrixEntry q d src =
    if isControllerId id then (recomputeMatrix p (s.setPartReg p id value)).matrixEntry q d src
    else s.matrixEntry q d src := by
  unfold partEffect
  split <;> split <;> rfl

theorem pbfOf_partEffect (q : Nat) : (partEffect p id value s).pbfOf q =
    if id = 0x21 ∨ id = 0x50 then (recomputePbf p (s.setPartReg p id value)).pbfOf q else s.pbfOf q := by
  show _ = if id = 0x21 ∨ id = depthId 1 0 then _ else _
  unfold partEffect
  split <;> split <;> rfl

/-- A write to a controller value leaves the matrix of its part as the registers then give it. -/
theorem matrixEntry_partEffect_controller (hid : 0x20 ≤ id ∧ id ≤ 0x25) {d src : Nat} (hd : d < 11) (hs : src < 6) :
    (partEffect p id value s).matrixEntry p d src = matrixValue (partEffect p id value s) p d src := by
  obtain ⟨m, b, hshape⟩ := partEffect_shape p id value s
  have hvalue : matrixValue (partEffect p id value s) p d src = matrixValue (s.setPartReg p id value) p d src :=
    matrixValue_congr _ p hd hs (by rw [hshape]) (by rw [hshape])
  rw [hvalue, matrixEntry_partEffect, if_pos ((isControllerId_iff id).mpr hid),
    matrixEntry_recomputeMatrix_same _ p hd hs]

theorem matrixEntry_partEffect_other {q : Nat} (h : ¬ (q = p ∧ 0x20 ≤ id ∧ id ≤ 0x25)) (d src : Nat) :
    (partEffect p id value s).matrixEntry q d src = s.matrixEntry q d src := by
  rw [matrixEntry_partEffect]
  split
  · next hid =>
    have hq : q ≠ p := fun hq => h ⟨hq, (isControllerId_iff id).mp hid⟩
    rw [matrixEntry_recomputeMatrix_other _ p hq, setPartReg_matrixEntry]
  · rfl

/-- A write to the bend or its control leaves the bend factor of its part as the registers then give it. -/
theorem pbfOf_partEffect_bend (hid : id = 0x21 ∨ id = 0x50) : (partEffect p id value s).pbfOf p =
    pbfValue s.params.numerics ((partEffect p id value s).partReg p 0x21)
      ((partEffect p id value s).partReg p 0x50) := by
  rw [partReg_partEffect, partReg_partEffect, pbfOf_partEffect, if_pos hid]
  exact (pbfOf_setPbf _ p _ p).trans (if_pos rfl)

theorem pbfOf_partEffect_other {q : Nat} (h : ¬ (q = p ∧ (id = 0x21 ∨ id = 0x50))) :
    (partEffect p id value s).pbfOf q = s.pbfOf q := by
  rw [pbfOf_partEffect]
  split
  · next hid =>
    have hq : q ≠ p := fun hq => h ⟨hq, hid⟩
    exact (pbfOf_setPbf _ p _ q).trans (if_neg hq)
  · rfl

end

/-- Settles O20: the part, then the field check; the effect is the write and the recomputations its id triggers. -/
theorem partparamCompletes : Obligations.PartparamCompletes := by
  intro p id value s
  rw [exec_partparam]
  refine ⟨fun hp => finishEntry_index _ s _ (.inl hp), fun _ h => finishEntry_index _ s _ (.inr h),
    fun m hp h hv => finishEntry_value _ s _ hp h hv, fun m hp h hv => ?completes⟩
  case completes =>
    obtain ⟨mx, b, hshape⟩ := partEffect_shape p id value s
    refine ⟨_, finishEntry_ok _ s _ hp h hv, fun q f hf => ?register,
      fun hlow hhigh d src hd hs => matrixEntry_partEffect_controller p id value s ⟨hlow, hhigh⟩ hd hs,
      fun q d src hq => matrixEntry_partEffect_other p id value s hq d src,
      fun hid => pbfOf_partEffect_bend p id value s hid, fun q hq => pbfOf_partEffect_other p id value s hq,
      ?frame, fun a => ?rom⟩
    case register => exact (partReg_partEffect p id value s q f).trans (partReg_setPartReg s p value q (partMax_lt h) hf)
    case frame =>
      rw [hshape]
      rfl
    case rom =>
      rw [hshape]
      rfl

/-! ### RESET (R94) -/

theorem exec_reset (s : State) : exec .reset s = .next { softResetState s with cp := (softResetState s).cp + 1 } := rfl

theorem softResetState_partReg (s : State) (p : Nat) {id : Nat} (hid : id < 256) :
    (softResetState s).partReg p id = partReset id := by
  obtain ⟨m, f, h⟩ := softResetState_shape s
  rw [h]
  exact resetOf_partReg s.params s.rom p hid

theorem softResetState_drumReg (s : State) (m : Nat) {k field : Nat} (hk : k < 128) (hf : field < 256) :
    (softResetState s).drumReg m k field = drumReset k field := by
  obtain ⟨mx, f, h⟩ := softResetState_shape s
  rw [h]
  exact resetOf_drumReg s.params s.rom m hk hf

theorem softResetState_vsReg (s : State) (v : Nat) {field : Nat} (hf : field < 256) :
    (softResetState s).vsReg v field = vsReset field := by
  obtain ⟨m, f, h⟩ := softResetState_shape s
  rw [h]
  exact resetOf_vsReg s.params s.rom v hf

/-- Every depth register resets to its bias, so no source moves any destination. -/
theorem matrixValue_softReset (s : State) (p : Nat) {d src : Nat} (hd : d < 11) (hs : src < 6) :
    matrixValue (softResetState s) p d src = 0 := by
  have hdepth : (softResetState s).partReg p (depthId src d) = bias d := by
    rw [softResetState_partReg s p (by unfold depthId; omega), bias_eq]
    exact partReset_depth (by omega) (by omega)
  unfold matrixValue
  rw [hdepth, Int.sub_self, Int.zero_mul, Int.zero_tdiv]

theorem softResetState_matrixEntry (s : State) {p d src : Nat} (hp : p < s.params.nPart) (hd : d < 11) (hs : src < 6) :
    (softResetState s).matrixEntry p d src = 0 := by
  obtain ⟨m, f, h⟩ := softResetState_shape s
  have hread : Table.read zeroMatrix (softResetState s).matrix p = matrixOf (resetVoices (resetRegisters s)) p :=
    (recomputeParts_spec s.params.nPart (resetVoices (resetRegisters s)) p).1.trans (if_pos hp)
  have hmatrix : matrixOf (resetVoices (resetRegisters s)) p = matrixOf (softResetState s) p :=
    (matrixOf_congr (by rw [h]; rfl) (by rw [h]; rfl) p).symm
  unfold State.matrixEntry
  rw [hread, hmatrix, matrixOf_entry _ p hd hs, matrixValue_softReset s p hd hs]

/-- The bend resets to its centre and its control to its bias. -/
theorem softResetState_pbfOf (s : State) {p : Nat} (hp : p < s.params.nPart) : (softResetState s).pbfOf p = R.one := by
  obtain ⟨m, f, h⟩ := softResetState_shape s
  have hparams : (softResetState s).params = s.params := by rw [h]; rfl
  rw [PbfCurrent.softReset s p (hparams ▸ hp), softResetState_partReg s p (by decide),
    softResetState_partReg s p (by decide)]
  exact pbfValue_centred _

/-- Settles O15, piece by piece of what RESET writes; the frame is `softResetState_shape`. -/
theorem resetCommand : Obligations.ResetCommand := by
  refine ⟨rfl, fun w s hop hw => execWord_noOperands_of_ne hop (by decide) hw s, fun s => ?_⟩
  obtain ⟨m, f, h⟩ := softResetState_shape s
  refine ⟨_, exec_reset s, fun id => ?sys, fun p _ hid => softResetState_partReg s p hid,
    fun m _ _ hk hf => softResetState_drumReg s m hk hf, fun v _ hf => softResetState_vsReg s v hf,
    fun v hv => (softResetState_voice s v).trans (if_pos hv),
    fun _ _ _ hp hd hs => softResetState_matrixEntry s hp hd hs, fun _ hp => softResetState_pbfOf s hp,
    rfl, rfl, rfl, rfl, ?frame, fun a => ?rom⟩
  case sys =>
    rw [h]
    rfl
  case frame =>
    rw [h]
    rfl
  case rom =>
    rw [h]
    rfl

end Sys2Proof.Machine
end

section
/-!
The bend factor at rest: a zero bend or a zero control makes the exponent a zero in every arithmetic, and `exp` of a zero is
1.0 (00_scope.md R15, 41_parameters.md R92). What binary64 needs for this: a zero times a finite number, and a zero divided by
one that is not zero, are zeros, and integers and quotients that do not overflow are finite.
-/

namespace Sys2Proof

/-! ### Finite results -/

theorem roundShift_le (m k : Nat) : roundShift m k ≤ m >>> k + 1 := by
  unfold roundShift
  split
  · next hk =>
    rw [hk]
    exact Nat.le_succ m
  · dsimp only
    split <;> omega

/-- A number below 2^1023 does not round to infinity. -/
theorem roundBits_lt_inf {m : Nat} {e : Int} (h : e + Nat.log2 m ≤ 1022) :
    roundBits 53 (-1074) infBits64 m e < infBits64 := by
  have hinf : infBits64 = 2047 * 2 ^ 52 := rfl
  by_cases hm : m = 0
  · rw [hm]
    exact show 0 < infBits64 by decide
  have hlt : m < 2 ^ (Nat.log2 m + 1) := (Nat.log2_lt hm).mp (Nat.lt_succ_self _)
  unfold roundBits
  rw [if_neg hm]
  extract_lets q mant
  have hq : q = max (e + Nat.log2 m - 52) (-1074) := by
    show max (e + Int.ofNat (Nat.log2 m + 1) - Int.ofNat 53) (-1074) = _
    simp only [Int.ofNat_eq_natCast]
    omega
  have hmant : mant ≤ 2 ^ 53 := by
    unfold mant
    split
    · have hpow : 2 ^ (Nat.log2 m + 1) * 2 ^ (e - q).toNat ≤ 2 ^ 53 := by
        rw [← Nat.pow_add]
        exact Nat.pow_le_pow_right (by decide) (by omega)
      rw [Nat.shiftLeft_eq]
      exact (Nat.mul_le_mul_right _ hlt.le).trans hpow
    · have hpow : 2 ^ (Nat.log2 m + 1) ≤ 2 ^ 53 * 2 ^ (q - e).toNat := by
        rw [← Nat.pow_add]
        exact Nat.pow_le_pow_right (by decide) (by omega)
      have hquot : m >>> (q - e).toNat < 2 ^ 53 := by
        rw [Nat.shiftRight_eq_div_pow, Nat.div_lt_iff_lt_mul (Nat.two_pow_pos _)]
        exact hlt.trans_le hpow
      exact (roundShift_le m _).trans hquot
  have hexp : (q - -1074).toNat * Nat.pow 2 52 ≤ 2044 * 2 ^ 52 := Nat.mul_le_mul_right _ (by omega)
  refine (Nat.min_le_left _ _).trans_lt ?_
  show (q - -1074).toNat * Nat.pow 2 52 + mant < _
  omega

theorem R.isFinite_ofDyadic (neg : Bool) {m : Nat} {e : Int} (h : e + Nat.log2 m ≤ 1022) :
    (R.ofDyadic neg m e).isFinite = true := by
  have hlt := roundBits_lt_inf h
  have hinf : infBits64 < 0x8000000000000000 := by decide
  unfold R.isFinite R.ofDyadic
  rw [R.mag_pack neg (hlt.trans hinf), Nat.blt_eq]
  exact hlt

theorem R.isFinite_ofInt {n : Int} (h : n.natAbs < 2 ^ 64) : (R.ofInt n).isFinite = true := by
  have hlog : Nat.log2 n.natAbs < 64 := by
    by_cases hn : n.natAbs = 0
    · rw [hn]
      decide
    · exact (Nat.log2_lt hn).mpr h
  exact R.isFinite_ofDyadic _ (by omega)

/-- The exact number of a finite datum. -/
theorem R.unpack_of_isFinite {x : R} (h : x.isFinite = true) :
    ∃ m e, x.unpack = .fin x.neg? m e ∧ m < 2 ^ 53 ∧ e ≤ 971 ∧ (m = 0 ↔ x.isZero = true) := by
  have hmag : x.mag < infBits64 := by rwa [R.isFinite, Nat.blt_eq] at h
  have hinf : infBits64 = 2047 * 2 ^ 52 := rfl
  have hzero : x.isZero = true ↔ x.mag = 0 := by
    unfold R.isZero
    exact beq_iff_eq
  rw [hzero]
  unfold R.unpack
  dsimp only
  rw [if_neg (by omega), if_neg (by omega)]
  split
  · exact ⟨_, _, rfl, by omega, by decide, by omega⟩
  · exact ⟨_, _, rfl, by omega, by simp only [Int.ofNat_eq_natCast]; omega, by omega⟩

/-- A finite number divided by one of magnitude at least 2 is finite. -/
theorem R.isFinite_div {x y : R} {b : Bool} {n : Nat} {eb : Int} (hx : x.isFinite = true) (hy : y.unpack = .fin b n eb)
    (hn : n ≠ 0) (hbig : 1 ≤ eb + Nat.log2 n) : (R.div x y).isFinite = true := by
  obtain ⟨m, e, hunpack, hm, he, -⟩ := R.unpack_of_isFinite hx
  unfold R.div
  rw [hunpack, hy]
  dsimp only
  rw [if_neg hn]
  unfold R.ofQuotient
  extract_lets k q sticky
  have hq : q ≤ m * 2 ^ 66 := by
    have hself := Nat.log2_self_le hn
    have hnum : m <<< k = m * 2 ^ 66 * 2 ^ Nat.log2 n := by
      rw [Nat.shiftLeft_eq, show k = 66 + Nat.log2 n from rfl, Nat.pow_add, Nat.mul_assoc]
    show m <<< k / n ≤ _
    rw [hnum]
    exact Nat.div_le_of_le_mul (by rw [Nat.mul_comm n]; exact Nat.mul_le_mul_left _ hself)
  have hsticky : sticky ≤ 1 := by
    unfold sticky
    split <;> omega
  have hlog : Nat.log2 (2 * q + sticky) < 120 := by
    by_cases hzero : 2 * q + sticky = 0
    · rw [hzero]
      decide
    · rw [Nat.log2_lt hzero]
      omega
  refine R.isFinite_ofDyadic _ ?_
  rw [show k = 66 + Nat.log2 n from rfl]
  simp only [Int.ofNat_eq_natCast]
  omega

/-! ### Zeros -/

theorem R.isFinite_of_isZero {x : R} (h : x.isZero = true) : x.isFinite = true := by
  have hmag : x.mag = 0 := beq_iff_eq.mp h
  unfold R.isFinite
  rw [hmag]
  decide

theorem R.isZero_pack (neg : Bool) : (R.pack neg 0).isZero = true := by cases neg <;> decide

theorem R.isZero_ofDyadic (neg : Bool) (e : Int) : (R.ofDyadic neg 0 e).isZero = true := R.isZero_pack neg

theorem R.isZero_mul {x y : R} (hx : x.isFinite = true) (hy : y.isFinite = true)
    (h : x.isZero = true ∨ y.isZero = true) : (R.mul x y).isZero = true := by
  obtain ⟨m, e, hunpack, -, -, hm⟩ := R.unpack_of_isFinite hx
  obtain ⟨n, e', hunpack', -, -, hn⟩ := R.unpack_of_isFinite hy
  have hzero : m * n = 0 := Nat.mul_eq_zero.mpr (h.imp hm.mpr hn.mpr)
  unfold R.mul
  rw [hunpack, hunpack']
  dsimp only
  rw [hzero]
  exact R.isZero_ofDyadic ..

theorem R.isZero_div {x y : R} (hx : x.isZero = true) (hy : y.isFinite = true) (hy0 : y.isZero = false) :
    (R.div x y).isZero = true := by
  obtain ⟨m, e, hunpack, -, -, hm⟩ := R.unpack_of_isFinite (R.isFinite_of_isZero hx)
  obtain ⟨n, e', hunpack', -, -, hn⟩ := R.unpack_of_isFinite hy
  have hn0 : n ≠ 0 := fun h => by rw [hn.mp h] at hy0; cases hy0
  unfold R.div
  rw [hunpack, hunpack', hm.mpr hx]
  dsimp only
  rw [if_neg hn0]
  unfold R.ofQuotient
  dsimp only
  rw [Nat.zero_shiftLeft, Nat.zero_div, Nat.zero_mod]
  exact R.isZero_ofDyadic ..

end Sys2Proof

namespace Sys2Proof.Machine

/-! Every arithmetic is exact on these operands (log entry 3). -/

theorem Numerics.isZero_mul (N : Numerics) {x y : R} (hx : x.isFinite = true) (hy : y.isFinite = true)
    (h : x.isZero = true ∨ y.isZero = true) : (N.mul x y).isZero = true := by
  have hexact : exactAtZero x y = true := by
    unfold exactAtZero
    rw [hx, hy, Bool.and_true, Bool.and_true, Bool.or_eq_true]
    exact h
  rw [Numerics.mul_exact N hexact]
  exact R.isZero_mul hx hy h

theorem Numerics.isZero_div (N : Numerics) {x y : R} (hx : x.isZero = true) (hy : y.isFinite = true)
    (hy0 : y.isZero = false) : (N.div x y).isZero = true := by
  rw [Numerics.div_exact N (by rw [hx, hy, hy0]; rfl)]
  exact R.isZero_div hx hy hy0

theorem Numerics.exp_of_isZero (N : Numerics) {x : R} (hx : x.isZero = true) : N.exp x = R.one := by
  have hmag : x.mag = 0 := beq_iff_eq.mp hx
  obtain ⟨m, e, hunpack, -, -, hm⟩ := R.unpack_of_isFinite (R.isFinite_of_isZero hx)
  cases N with
  | reference =>
    show R.exp x = R.one
    unfold R.exp
    rw [hunpack]
    exact if_pos (hm.mpr hx)
  | other n =>
    have heqv : R.eqv x R.zero = true := by
      unfold R.eqv R.isNaN R.key
      rw [hmag]
      cases x.neg? <;> decide
    exact if_pos heqv

/-! ### The bend factor (41_parameters.md R92) -/

/-- Where the bend times its control is a zero, the factor is 1.0. -/
theorem exp_bend_of_isZero (N : Numerics) {x : R} (hx : x.isZero = true) :
    N.exp (N.div (N.mul x LN2) (R.ofInt 12)) = R.one := by
  have hproduct : (N.mul x LN2).isZero = true :=
    Numerics.isZero_mul N (R.isFinite_of_isZero hx) (by decide) (.inl hx)
  exact Numerics.exp_of_isZero N (Numerics.isZero_div N hproduct (by decide) (by decide))

/-- The centre of the bend, whatever its control. -/
theorem pbfValue_centre (N : Numerics) {pbpc : Nat} (h : pbpc ≤ 127) : pbfValue N 8192 pbpc = R.one := by
  have hbend : (N.div (R.ofInt (Int.ofNat 8192 - 8192)) (R.ofInt 8192)).isZero = true :=
    Numerics.isZero_div N (by decide) (by decide) (by decide)
  have hcontrol : (R.ofInt (Int.ofNat pbpc - 0x40)).isFinite = true :=
    R.isFinite_ofInt (by simp only [Int.ofNat_eq_natCast]; omega)
  exact exp_bend_of_isZero N (Numerics.isZero_mul N (R.isFinite_of_isZero hbend) hcontrol (.inl hbend))

/-- The bias of the control, whatever the bend: in the reference the bend is a finite number. -/
theorem pbfValue_reference_bias {pb : Nat} (h : pb ≤ 16383) : pbfValue .reference pb 0x40 = R.one := by
  have hpb : (R.ofInt (Int.ofNat pb - 8192)).isFinite = true :=
    R.isFinite_ofInt (by simp only [Int.ofNat_eq_natCast]; omega)
  have hunpack : (R.ofInt 8192).unpack = .fin false 0x10000000000000 (-39) := by decide
  have hbend : (R.div (R.ofInt (Int.ofNat pb - 8192)) (R.ofInt 8192)).isFinite = true :=
    R.isFinite_div hpb hunpack (by decide) (by decide)
  exact exp_bend_of_isZero .reference (Numerics.isZero_mul .reference hbend (by decide) (.inr (by decide)))

/-- Twelve semitones down halve the pitch, to the last bit. -/
theorem pbfValue_octave_down : pbfValue .reference 0 0x4C = R.ofRat 1 2 := by
  refine R.eq_of_bits ?_
  unfold pbfValue Numerics.exp R.exp expFixed R.ofDyadic roundBits roundShift
  simp -zeta only [two_pow_eq_shiftLeft]
  decide

/-- Settles O27: the formula is the definition's, and each neutral case makes the exponent a zero. -/
theorem neutralBend : Obligations.NeutralBend :=
  ⟨fun _ _ _ => rfl, fun N _ h => pbfValue_centre N h, fun _ h => pbfValue_reference_bias h, pbfValue_octave_down⟩

end Sys2Proof.Machine
end

section
/-!
What a voice reads between its refreshes: the format, the banks, the parameters, the bend factor and the pan
of its part (41_parameters.md R91, 70_reset_and_hazards.md R163, R164; log entry 26).
-/

namespace Sys2Proof.Machine

/-- Between refreshes only the refresh counter moves before the phase does (43_oscillator.md R115). -/
theorem refreshIfDue_of_ne_zero (s : State) {x : Voice} (h : x.refreshCnt ≠ 0) :
    refreshIfDue s x = { x with refreshCnt := (x.refreshCnt + 1) % refreshPeriod s } := if_neg h

/-- The state `t` with the system and part registers and the controller matrix of `s`. -/
def State.withControls (t s : State) : State := { t with sys := s.sys, part := s.part, matrix := s.matrix }

section
variable {s t : State} (hpan : ∀ p, t.partReg p 0x1A = s.partReg p 0x1A)
include hpan

/-- Of these, sounding a voice reads the pan of its part. -/
theorem soundVoice_withControls (x : Voice) : soundVoice (t.withControls s) x = soundVoice t x := by
  have hpart : (t.withControls s).partReg x.part 0x1A = t.partReg x.part 0x1A := (hpan x.part).symm
  unfold soundVoice
  rw [hpart]
  rfl

theorem voiceStep_withControls {x : Voice} (h : x.refreshCnt ≠ 0) :
    voiceStep (t.withControls s) x = voiceStep t x := by
  unfold voiceStep advanceVoice
  rw [refreshIfDue_of_ne_zero _ h, refreshIfDue_of_ne_zero _ h, funext (soundVoice_withControls hpan)]
  rfl

end

/-- Settles O48: with the controls of `s` in it, `t` has every input of `s`; and between refreshes it steps as it does
without them. -/
theorem writesWaitForRefresh : Obligations.WritesWaitForRefresh := by
  intro s t x hcnt hfs hinterp hbank hparams hpbf hpan
  have hinputs : SameInputs s (t.withControls s) := ⟨hfs, hinterp, rfl, rfl, rfl, hpbf, hbank, hparams⟩
  rw [← voiceStep_withControls hpan hcnt, hinputs.voiceStep]

end Sys2Proof.Machine
end

section
/-!
The commands that write one voice, and what VSTART builds: the sample a shifted key resolves to, the static key shift, the
checks, the started voice, the note-off and the kill (42_voice.md R103 to R113).
-/

namespace Sys2Proof.Machine

/-! ### The sample of a shifted key (R104) -/

/-- Breakpoint `j` of partial `q` is at least `t`, or is the terminator. -/
def BreakHit (s : State) (q : Nat) (t : Int) (j : Nat) : Prop :=
  t ≤ Int.ofNat (s.pdtData q (0x10 + j)) ∨ s.pdtData q (0x10 + j) = 0x7F

section
variable {s : State} {q : Nat} {t : Int}

theorem findBreak_succ_of_hit {j : Nat} (h : BreakHit s q t j) (n : Nat) : findBreak s q t (n + 1) j = some j :=
  if_pos h

theorem findBreak_succ_of_not_hit {j : Nat} (h : ¬ BreakHit s q t j) (n : Nat) :
    findBreak s q t (n + 1) j = findBreak s q t n (j + 1) := if_neg h

theorem findBreak_eq_none {n j : Nat} (h : ∀ k, j ≤ k → k < j + n → ¬ BreakHit s q t k) :
    findBreak s q t n j = none := by
  induction n generalizing j with
  | zero => rfl
  | succ n ih =>
    rw [findBreak_succ_of_not_hit (h j (Nat.le_refl j) (by omega))]
    exact ih fun k hjk hk => h k (by omega) (by omega)

/-- The search from `j` on stops at the first hit, `d` entries further. -/
theorem findBreak_eq_some {d n j : Nat} (hn : d < n) (hhit : BreakHit s q t (j + d))
    (hleast : ∀ k, j ≤ k → k < j + d → ¬ BreakHit s q t k) : findBreak s q t n j = some (j + d) := by
  induction d generalizing n j with
  | zero =>
    obtain ⟨m, rfl⟩ := Nat.exists_eq_succ_of_ne_zero (Nat.ne_of_gt hn)
    exact findBreak_succ_of_hit hhit m
  | succ d ih =>
    obtain ⟨m, rfl⟩ := Nat.exists_eq_succ_of_ne_zero (Nat.ne_of_gt (Nat.zero_lt_of_lt hn))
    have hnext : j + (d + 1) = j + 1 + d := by omega
    rw [findBreak_succ_of_not_hit (hleast j (Nat.le_refl j) (by omega)), hnext]
    rw [hnext] at hhit
    exact ih (by omega) hhit fun k hjk hk => hleast k (by omega) (by omega)

theorem resolveSample_of_none (h : ∀ j, j < 16 → ¬ BreakHit s q t j) : resolveSample s q t = .error .noSample := by
  have hnone : findBreak s q t 16 0 = none := findBreak_eq_none fun k _ hk => h k (by omega)
  unfold resolveSample
  rw [hnone]

/-- The least hit selects the sample beside it. -/
theorem resolveSample_of_least {j : Nat} (hj : j < 16) (hhit : BreakHit s q t j)
    (hleast : ∀ k, k < j → ¬ BreakHit s q t k) : resolveSample s q t =
      if s.pdtData q (0x20 + j) = 0xFFFF then .error .noSample
      else if s.params.ns ≤ s.pdtData q (0x20 + j) then .error .index
      else .ok (s.pdtData q (0x20 + j)) := by
  have hzero : 0 + j = j := Nat.zero_add j
  have hsome : findBreak s q t 16 0 = some (0 + j) :=
    findBreak_eq_some hj (hzero.symm ▸ hhit) fun k _ hk => hleast k (by omega)
  unfold resolveSample
  rw [hsome, hzero]

end

/-- Settles O32: the search finds the least hit, and the sample beside it is absent, out of the table, or the answer. -/
theorem sampleResolution : Obligations.SampleResolution := by
  intro s q t
  refine ⟨resolveSample_of_none, fun j hj hhit hleast => ?_⟩
  have hresolve := resolveSample_of_least (q := q) hj hhit hleast
  exact ⟨fun habsent => hresolve.trans (if_pos habsent),
    fun hpresent hout => hresolve.trans ((if_neg hpresent).trans (if_pos hout)),
    fun hpresent hin => hresolve.trans ((if_neg hpresent).trans (if_neg (Nat.not_le.mpr hin)))⟩

/-! ### The static key shift (R103) -/

section
variable {s : State} {v : Nat}

theorem setupDrum_eq_false (h : s.vsReg v 3 % 2 = 0) : setupDrum s v = false :=
  decide_eq_false (by omega)

theorem setupDrum_eq_true (h : s.vsReg v 3 % 2 = 1) : setupDrum s v = true := decide_eq_true h

theorem keyShiftOf_melodic (h : s.vsReg v 3 % 2 = 0) : keyShiftOf s v =
    centred (s.partReg (s.vsReg v 0) 0x00) + centred (s.sysReg 2) + centred (s.partReg (s.vsReg v 0) 0x01) :=
  if_pos (setupDrum_eq_false h)

theorem keyShiftOf_drum (h : s.vsReg v 3 % 2 = 1) : keyShiftOf s v =
    if Generation.sc55mk2.rank ≤ s.params.gen.rank
      then centred (s.partReg (s.vsReg v 0) 0x00) + centred (s.partReg (s.vsReg v 0) 0x01)
      else centred (s.partReg (s.vsReg v 0) 0x00) :=
  if_neg (by rw [setupDrum_eq_true h]; decide)

/-- The SC55 is the one generation before the SC55mk2 (00_scope.md R3). -/
theorem mk2_rank_le_iff (g : Generation) : Generation.sc55mk2.rank ≤ g.rank ↔ g ≠ .sc55 := by
  cases g <;> decide

theorem keyShiftOf_drum_sc55 (h : s.vsReg v 3 % 2 = 1) (hgen : s.params.gen = .sc55) :
    keyShiftOf s v = centred (s.partReg (s.vsReg v 0) 0x00) :=
  (keyShiftOf_drum h).trans (if_neg (by rw [mk2_rank_le_iff]; exact fun hne => hne hgen))

theorem keyShiftOf_drum_mk2 (h : s.vsReg v 3 % 2 = 1) (hgen : s.params.gen ≠ .sc55) :
    keyShiftOf s v = centred (s.partReg (s.vsReg v 0) 0x00) + centred (s.partReg (s.vsReg v 0) 0x01) :=
  (keyShiftOf_drum h).trans (if_pos ((mk2_rank_le_iff _).mpr hgen))

/-- A centred 7-bit register. -/
theorem centred_bounds {byte : Nat} (h : byte ≤ 127) : -64 ≤ centred byte ∧ centred byte ≤ 63 := by
  unfold centred
  simp only [Int.ofNat_eq_natCast]
  omega

/-- Each of the up to three summands is a centred register. -/
theorem keyShiftOf_bounds (h : RegistersLegal s) (v : Nat) : -192 ≤ keyShiftOf s v ∧ keyShiftOf s v ≤ 189 := by
  have hcoarse := centred_bounds (h.part (s.vsReg v 0) 0x00 127 rfl)
  have hpart := centred_bounds (h.part (s.vsReg v 0) 0x01 127 rfl)
  have hsys := centred_bounds (h.sys 2 127 rfl)
  rcases Nat.mod_two_eq_zero_or_one (s.vsReg v 3) with hmelodic | hdrum
  · rw [keyShiftOf_melodic hmelodic]
    omega
  · by_cases hgen : s.params.gen = .sc55
    · rw [keyShiftOf_drum_sc55 hdrum hgen]
      omega
    · rw [keyShiftOf_drum_mk2 hdrum hgen]
      omega

end

/-- Settles O33, from the shift of each kind of voice in each generation. -/
theorem keyShift : Obligations.KeyShift := fun _ v =>
  ⟨keyShiftOf_melodic, keyShiftOf_drum_sc55, keyShiftOf_drum_mk2, fun h => keyShiftOf_bounds h v⟩

/-! ### A command that writes one voice -/

/-- The end of a command whose effect is one voice: that slot holds it, and nothing else but the position changes. -/
theorem finishCommand_setVoice (w : Word) (s : State) (v : Nat) (x : Voice) :
    ∃ t, finishCommand w s (.ok (s.setVoice v x)) = .next t ∧ t = { s with voices := t.voices, cp := s.cp + 1 } ∧
      SameRom s t ∧ ∀ u, t.voice u = if u = v then x else s.voice u :=
  ⟨_, rfl, rfl, fun _ => rfl, voice_setVoice s v x⟩

/-! ### VSTART: its checks (R110) -/

theorem exec_vstart_error {s : State} {v q : Nat} {c : Cause} (h : startChecks s v q = .error c) :
    exec (.vstart v q) s = .next (raise c (encode (.vstart v q)) s) := by
  show execVstart v q s = _
  unfold execVstart
  rw [h]
  rfl

theorem exec_vstart_ok {s : State} {v q i : Nat} (h : startChecks s v q = .ok i) : exec (.vstart v q) s =
    finishCommand (encode (.vstart v q)) s (.ok (s.setVoice v (startVoice s v q i))) := by
  show execVstart v q s = _
  unfold execVstart
  rw [h]

section
variable {s : State} {v q : Nat}

theorem startChecks_slot (hv : s.params.nv ≤ v) : startChecks s v q = .error .index := if_pos hv

variable (hv : v < s.params.nv)
include hv

theorem startChecks_partial (hq : s.params.np ≤ q) : startChecks s v q = .error .index :=
  (if_neg (Nat.not_le.mpr hv)).trans (if_pos hq)

variable (hq : q < s.params.np)
include hq

theorem startChecks_partialUnloaded (hl : s.pdtLoaded q = false) : startChecks s v q = .error .unloaded := by
  unfold startChecks
  rw [if_neg (Nat.not_le.mpr hv), if_neg (Nat.not_le.mpr hq), hl]
  rfl

variable (hl : s.pdtLoaded q = true)
include hl

/-- Where the partial is loaded, the resolution decides. -/
theorem startChecks_resolve_error {c : Cause}
    (h : resolveSample s q (Int.ofNat (s.vsReg v 1) + keyShiftOf s v) = .error c) : startChecks s v q = .error c := by
  unfold startChecks
  rw [if_neg (Nat.not_le.mpr hv), if_neg (Nat.not_le.mpr hq), hl, h]
  rfl

variable {i : Nat} (hi : resolveSample s q (Int.ofNat (s.vsReg v 1) + keyShiftOf s v) = .ok i)
include hi

/-- Where a sample is found, it decides. -/
theorem startChecks_sample : startChecks s v q =
    if !s.sdtLoaded i || !(s.bankOf i).decoded then .error .unloaded
    else if s.sdtData i 1 < s.sdtData i 2 then .error .loopGeom
    else .ok i := by
  unfold startChecks
  rw [if_neg (Nat.not_le.mpr hv), if_neg (Nat.not_le.mpr hq), hl, hi]
  rfl

theorem startChecks_sampleUnloaded (h : s.sdtLoaded i = false ∨ (s.bankOf i).decoded = false) :
    startChecks s v q = .error .unloaded :=
  (startChecks_sample hv hq hl hi).trans (if_pos (by simpa using h))

theorem startChecks_loop (hs : s.sdtLoaded i = true) (hb : (s.bankOf i).decoded = true) : startChecks s v q =
    if s.sdtData i 1 < s.sdtData i 2 then .error .loopGeom else .ok i :=
  (startChecks_sample hv hq hl hi).trans (if_neg (by simp [hs, hb]))

end

/-- Settles O34: each clause names the first check that fails. -/
theorem vstartFaults : Obligations.VstartFaults := by
  refine fun v q s => ⟨fun hv => exec_vstart_error (startChecks_slot hv),
    fun hv hq => exec_vstart_error (startChecks_partial hv hq),
    fun hv hq hl => exec_vstart_error (startChecks_partialUnloaded hv hq hl), fun hv hq hl => ?_⟩
  exact ⟨fun c hc => exec_vstart_error (startChecks_resolve_error hv hq hl hc),
    fun i hi hunloaded => exec_vstart_error (startChecks_sampleUnloaded hv hq hl hi hunloaded),
    fun i hi hs hb hloop => exec_vstart_error ((startChecks_loop hv hq hl hi hs hb).trans (if_pos hloop))⟩

/-! ### VSTART: the started voice (R105 to R109) -/

theorem keyDiffOf_eq (s : State) (v i : Nat) (shift : Int) : keyDiffOf s v i shift =
    if s.vsReg v 3 % 2 = 1 then (s.drumReg (s.vsReg v 3 / 2 % 2) (s.vsReg v 1) 0 : Int) - 60 + shift
    else (s.vsReg v 1 : Int) + shift - s.sdtData i 4 := by
  unfold keyDiffOf setupDrum
  simp only [decide_eq_true_eq]
  rfl

theorem fineVol_reference {p : Params} (h : p.fineVol = .reference) (vol fv : Nat) :
    fineVol p vol fv = fineVolRef p.numerics vol fv := by
  unfold fineVol
  rw [h]

/-- The started voice's generators are those `ENV.init` gives it. -/
theorem startVoice_eg (s : State) (v q i : Nat) (g : Gen) :
    ∃ inputs, (startVoice s v q i).eg g = envInit s.params.env g inputs := by
  obtain ⟨inputs, h⟩ := initGenerators_eg s (latchVoice s v q i (s.voice v)) g
  have hflags : (startVoice s v q i).eg g = (initGenerators s (latchVoice s v q i (s.voice v))).eg g := by
    cases g <;> rfl
  exact ⟨inputs, hflags.trans h⟩

theorem startVoice_eg_legal (s : State) (v q i : Nat) (g : Gen) :
    ((startVoice s v q i).eg g).stage.code ≤ 3 ∧ legalLevel g ((startVoice s v q i).eg g).level = true := by
  obtain ⟨inputs, h⟩ := startVoice_eg s v q i g
  rw [h]
  exact envInit_legal s.params.env g inputs

theorem startVoice_eg_reference {s : State} (h : s.params.env = .reference) (v q i : Nat) (g : Gen) :
    (startVoice s v q i).eg g = t0Init g := by
  obtain ⟨inputs, heg⟩ := startVoice_eg s v q i g
  rw [heg, h]
  rfl

/-- Settles O35: the checks pass, so the one voice written is the started one, with the fields `latchVoice` gives. -/
theorem vstartCompletes : Obligations.VstartCompletes := by
  intro v q i s hv hq hl hi hs hb hloop
  have hchecks : startChecks s v q = .ok i :=
    (startChecks_loop hv hq hl hi hs hb).trans (if_neg (Nat.not_lt.mpr hloop))
  obtain ⟨t, hexec, hframe, hrom, hvoices⟩ :=
    finishCommand_setVoice (encode (.vstart v q)) s v (startVoice s v q i)
  have hvoice : t.voice v = startVoice s v q i := (hvoices v).trans (if_pos rfl)
  refine ⟨t, (exec_vstart_ok hchecks).trans hexec, hframe, hrom, fun u hu => (hvoices u).trans (if_neg hu), ?_⟩
  rw [hvoice]
  refine ⟨rfl, rfl, rfl, rfl, rfl, rfl, rfl, rfl, rfl, rfl, rfl, rfl, rfl, rfl, rfl, rfl, rfl, rfl, rfl, rfl, rfl, rfl,
    rfl, rfl, rfl, rfl, ?loopStart, rfl, rfl, keyDiffOf_eq .., ⟨rfl, rfl, rfl, rfl, ?fineVolume⟩, rfl, rfl, rfl, rfl,
    startVoice_eg_legal s v q i, ?reference⟩
  case loopStart => exact (Int.ofNat_sub hloop).symm
  case fineVolume => exact fun h => fineVol_reference h ..
  case reference =>
    intro h
    have htva : (startVoice s v q i).egTva = t0Init .tva := startVoice_eg_reference h v q i .tva
    have htvp : (startVoice s v q i).egTvp = t0Init .tvp := startVoice_eg_reference h v q i .tvp
    have htvf : (startVoice s v q i).egTvf = t0Init .tvf := startVoice_eg_reference h v q i .tvf
    rw [htva, htvp, htvf]
    exact ⟨rfl, rfl, rfl, rfl, rfl, rfl⟩

/-! ### VNOTEOFF (R112) -/

theorem exec_vnoteoff (v : Nat) (s : State) : exec (.vnoteoff v) s = finishCommand (encode (.vnoteoff v)) s
    (if s.params.nv ≤ v then .error .index else .ok (s.setVoice v (noteOff s (s.voice v)))) := rfl

section
variable {s : State} {x : Voice}

theorem noteOff_of_stopped (h : x.active = false ∨ x.releasing = true) : noteOff s x = x := if_pos h

theorem noteOff_of_deafDrum (hdrum : x.drum = true) (hkey : s.drumReg x.map x.key 1 = 0) : noteOff s x = x := by
  unfold noteOff
  split
  · rfl
  · exact if_pos ⟨hdrum, hkey⟩

theorem noteOff_of_sounding (hactive : x.active = true) (hreleasing : x.releasing = false)
    (hkey : x.drum = false ∨ s.drumReg x.map x.key 1 ≠ 0) :
    noteOff s x = releaseGenerators s { x with releasing := true } := by
  have hstopped : ¬ (x.active = false ∨ x.releasing = true) := by simp [hactive, hreleasing]
  have hdeaf : ¬ (x.drum = true ∧ s.drumReg x.map x.key 1 = 0) := by
    rintro ⟨hdrum, hzero⟩
    rcases hkey with hmelodic | hne
    · rw [hmelodic] at hdrum
      cases hdrum
    · exact hne hzero
  exact (if_neg hstopped).trans (if_neg hdeaf)

end

theorem envRelease_of_ended (c : Choice) (g : Gen) (i : EnvInputs) {e : EG} (h : e.stage = .release ∨ e.stage = .done) :
    envRelease c g i e = e := if_pos h

/-- A release begins from every other stage, in every `ENV` and at any level (44_envelopes.md R126.3). -/
theorem envRelease_stage (c : Choice) (g : Gen) (i : EnvInputs) {e : EG} (hrelease : e.stage ≠ .release)
    (hdone : e.stage ≠ .done) : (envRelease c g i e).stage = .release := by
  unfold envRelease
  rw [if_neg (not_or.mpr ⟨hrelease, hdone⟩)]
  cases c with
  | reference => rfl
  | other n =>
    dsimp only
    rcases orReference_cases (legalRelease g (Config.envRelease n g i e)) (Config.envRelease n g i e) (t0Release e) with
      ⟨hlegal, h⟩ | h
    · rw [h]
      simp only [legalRelease, Bool.and_eq_true, beq_iff_eq] at hlegal
      obtain ⟨hstage, -⟩ := hlegal
      exact hstage
    · rw [h]
      rfl

/-- The release of a voice's generators: begun in each that has neither begun nor ended one. -/
theorem releaseGenerators_stage (s : State) (x : Voice) (g : Gen) :
    ((x.eg g).stage ≠ .release → (x.eg g).stage ≠ .done → ((releaseGenerators s x).eg g).stage = .release) ∧
      ((x.eg g).stage = .release ∨ (x.eg g).stage = .done → (releaseGenerators s x).eg g = x.eg g) := by
  obtain ⟨i, h⟩ := releaseGenerators_eg s x g
  rw [h]
  exact ⟨envRelease_stage _ g i, envRelease_of_ended _ g i⟩

/-- Settles O36: a slot out of range faults; the voice written into one in range is the voice itself where the note-off
does nothing, and the one with its generators released where it does something. -/
theorem vnoteoffCompletes : Obligations.VnoteoffCompletes := by
  refine fun v s => ⟨fun hv => ?index, fun hv => ?completes⟩
  case index => rw [exec_vnoteoff, if_pos hv, finishCommand_error]
  case completes =>
    obtain ⟨t, hexec, hframe, hrom, hvoices⟩ :=
      finishCommand_setVoice (encode (.vnoteoff v)) s v (noteOff s (s.voice v))
    have hvoice : t.voice v = noteOff s (s.voice v) := (hvoices v).trans (if_pos rfl)
    refine ⟨t, ?exec, hframe, hrom, fun u hu => (hvoices u).trans (if_neg hu),
      fun h => hvoice.trans (noteOff_of_stopped h), fun hdrum hkey => hvoice.trans (noteOff_of_deafDrum hdrum hkey),
      fun hactive hreleasing hkey => ?released⟩
    case exec => rw [exec_vnoteoff, if_neg (Nat.not_le.mpr hv), hexec]
    case released =>
      rw [hvoice, noteOff_of_sounding hactive hreleasing hkey]
      refine ⟨rfl, fun g => ?_⟩
      have heg : ({ s.voice v with releasing := true } : Voice).eg g = (s.voice v).eg g := by cases g <;> rfl
      rw [← heg]
      exact releaseGenerators_stage s _ g

/-! ### VKILL (R113) -/

theorem encode_vkill (v : Nat) : encode (.vkill v) = BitVec.ofNat 64 (0x33 + v * 65536) :=
  congrArg (BitVec.ofNat 64) (by show 0x33 + 0 * 256 + v * 65536 + 0 * 4294967296 = _; omega)

theorem exec_vkill (v : Nat) (s : State) : exec (.vkill v) s = finishCommand (encode (.vkill v)) s
    (if s.params.nv ≤ v then .error .index else .ok (s.setVoice v { s.voice v with active := false })) := rfl

/-- Settles O37, from the reserved fields of a command with an index in `b` and the two outcomes of VKILL. -/
theorem vkillCompletes : Obligations.VkillCompletes := by
  refine ⟨fun w s hop h => ?reserved, fun v s _ => ⟨encode_vkill v, fun hv => ?index, fun hv => ?completes⟩⟩
  case reserved => exact execWord_index_reserved (by simp [hop]) (by omega) s
  case index => rw [exec_vkill, if_pos hv, finishCommand_error]
  case completes =>
    obtain ⟨t, hexec, hframe, hrom, hvoices⟩ :=
      finishCommand_setVoice (encode (.vkill v)) s v { s.voice v with active := false }
    refine ⟨t, ?_, hvoices, hframe, hrom⟩
    rw [exec_vkill, if_neg (Nat.not_le.mpr hv), hexec]

end Sys2Proof.Machine
end

section
/-!
The reference arithmetic at its worked points: a finite number plus zero is itself and over itself is 1.0, so an offset of
0 Hz changes no pitch; the other values are evaluated (42_voice.md R106 to R108, 43_oscillator.md R116 to R123,
44_envelopes.md R134).
-/

namespace Sys2Proof

/-! ### Exact sums and quotients -/

/-- A number whose last bit stands at its quantum is not rounded. -/
theorem roundBits_exact {m : Nat} {e : Int} (hm : m ≠ 0)
    (hq : max (e + Int.ofNat (Nat.log2 m + 1) - Int.ofNat 53) (-1074) = e) :
    roundBits 53 (-1074) infBits64 m e = min ((e - -1074).toNat * 2 ^ 52 + m) infBits64 := by
  unfold roundBits
  rw [if_neg hm, hq]
  dsimp only
  rw [if_pos (Int.le_refl e), Int.sub_self]
  rfl

theorem R.pack_neg_mag (x : R) : R.pack x.neg? x.mag = x := by
  refine R.eq_of_bits (BitVec.eq_of_toNat_eq ?_)
  have hlt := x.bits.isLt
  unfold R.pack R.neg? R.mag
  simp only [BitVec.toNat_ofNat, Nat.ble_eq]
  split <;> omega

/-- A finite number that is not zero is the rounding of the exact number it stands for, which fits the precision. -/
theorem R.ofDyadic_unpack {x : R} (hfin : x.isFinite = true) (hne : x.isZero = false) :
    ∃ m e, x.unpack = .fin x.neg? m e ∧ m ≠ 0 ∧ Nat.log2 m < 53 ∧ -1074 ≤ e ∧ R.ofDyadic x.neg? m e = x := by
  have hmag : x.mag < infBits64 := by rwa [R.isFinite, Nat.blt_eq] at hfin
  have hpos : x.mag ≠ 0 := by simpa [R.isZero] using hne
  have hinf : infBits64 = 2047 * 2 ^ 52 := rfl
  have hpack {m : Nat} {e : Int} (h : roundBits 53 (-1074) infBits64 m e = x.mag) : R.ofDyadic x.neg? m e = x :=
    (congrArg (R.pack x.neg?) h).trans x.pack_neg_mag
  unfold R.unpack
  dsimp only
  rw [if_neg (by omega), if_neg (by omega)]
  by_cases hex : x.mag / 0x10000000000000 = 0
  · have hfr : x.mag % 0x10000000000000 = x.mag := by omega
    have hlog : Nat.log2 x.mag < 52 := (Nat.log2_lt hpos).mpr (by omega)
    rw [if_pos hex, hfr]
    refine ⟨_, _, rfl, hpos, by omega, Int.le_refl _, hpack ?_⟩
    rw [roundBits_exact hpos (by simp only [Int.ofNat_eq_natCast]; omega)]
    omega
  · rw [if_neg hex]
    have hm : 0x10000000000000 + x.mag % 0x10000000000000 ≠ 0 := by omega
    have hlog : Nat.log2 (0x10000000000000 + x.mag % 0x10000000000000) = 52 := (Nat.log2_eq_iff hm).mpr (by omega)
    refine ⟨_, _, rfl, hm, by omega, by simp only [Int.ofNat_eq_natCast]; omega, hpack ?_⟩
    rw [roundBits_exact hm (by rw [hlog]; simp only [Int.ofNat_eq_natCast]; omega)]
    simp only [Int.ofNat_eq_natCast]
    omega

theorem R.unpack_of_isZero {x : R} (h : x.isZero = true) : x.unpack = .fin x.neg? 0 (-1074) := by
  have hmag : x.mag = 0 := beq_iff_eq.mp h
  unfold R.unpack
  rw [hmag]
  rfl

section
variable {x y : R} (hfin : x.isFinite = true) (hne : x.isZero = false) (hy : y.isZero = true)
include hfin hne hy

theorem R.add_isZero : R.add x y = x := by
  obtain ⟨m, e, hunpack, hm, hlog, he, hround⟩ := R.ofDyadic_unpack hfin hne
  obtain ⟨hadd, -⟩ := R.add_zero_datum hunpack (R.unpack_of_isZero hy) hm hlog he
  exact hadd.trans hround

theorem R.isZero_add : R.add y x = x := by
  obtain ⟨m, e, hunpack, hm, hlog, he, hround⟩ := R.ofDyadic_unpack hfin hne
  obtain ⟨-, hadd⟩ := R.add_zero_datum hunpack (R.unpack_of_isZero hy) hm hlog he
  exact hadd.trans hround

end

/-- The quotient of two equal numbers is 1 followed by zero bits, which rounds to 1.0. -/
theorem R.div_self {x : R} (hfin : x.isFinite = true) (hne : x.isZero = false) : R.div x x = R.one := by
  obtain ⟨m, e, hunpack, hm, -⟩ := R.ofDyadic_unpack hfin hne
  have hdiv (k : Nat) : m <<< k / m = 1 <<< k := by
    rw [Nat.shiftLeft_eq, Nat.one_shiftLeft, Nat.mul_div_cancel_left _ (Nat.pos_of_ne_zero hm)]
  have hmod (k : Nat) : m <<< k % m = 0 := by
    rw [Nat.shiftLeft_eq]
    exact Nat.mul_mod_right ..
  have hquotient : R.ofQuotient false m m 0 = R.ofDyadic false 1 0 := by
    unfold R.ofQuotient
    dsimp only
    generalize 66 + Nat.log2 m = k
    have hround := roundBits_shiftLeft (m := 1) (p := 53) (-1074) infBits64 (k + 1) (e := 0) (by decide) (by decide)
    have hbits : 2 * 1 <<< k + 0 = 1 <<< (k + 1) := by
      rw [Nat.one_shiftLeft, Nat.one_shiftLeft, Nat.pow_succ]
      omega
    have hexp : (0 : Int) - Int.ofNat k - 1 = 0 - ((k + 1 : Nat) : Int) := by
      simp only [Int.ofNat_eq_natCast]
      omega
    rw [hdiv, hmod, if_pos rfl, hbits, hexp]
    exact congrArg (R.pack false) hround
  unfold R.div
  rw [hunpack]
  dsimp only
  rw [if_neg hm, bne_self_eq_false, Int.sub_self, hquotient]
  decide

end Sys2Proof

namespace Sys2Proof.Machine

/-! ### Pitch and volume (42_voice.md R107, R108) -/

/-- A root key below and one above 60, with key follows other than 1.0; fine tune and sample pitch add nothing. -/
theorem centsOf_reference :
    centsOf .reference 0x40 0x40 1024 48 24 (R.ofRat 1 2) = R.ofInt 1800 ∧
      centsOf .reference 0x42 0x40 1024 72 (-12) (R.ofRat 3 2) = R.ofInt (-1000) := by
  refine ⟨?_, ?_⟩
  all_goals
    unfold centsOf Numerics.add Numerics.mul Numerics.sub Numerics.div
    simp (disch := decide) only [R.add_isZero, R.isZero_add]
    exact R.eq_of_bits (by decide)

/-- An octave up, 26 cents up, and five octaves down at a twenty-fifth of the reference rate. -/
theorem staticPitchOf_reference :
    staticPitchOf .reference (centsOf .reference 0x40 0x40 1024 60 12 R.one) 32000 = R.ofInt 2 ∧
      staticPitchOf .reference (centsOf .reference 0x40 0x50 1184 60 0 R.one) 32000 =
        R.ofRat 10151315285859748 10000000000000000 ∧
      staticPitchOf .reference (centsOf .reference 0x04 0x40 1024 60 0 R.one) 1280 = R.ofRat 25 32 := by
  refine ⟨?_, ?_, ?_⟩
  all_goals
    unfold staticPitchOf centsOf Numerics.add Numerics.mul Numerics.sub Numerics.div Numerics.pow2
    simp (disch := decide) only [R.add_isZero, R.isZero_add]
    refine R.eq_of_bits ?_
    unfold R.pow2 expFixed R.ofDyadic roundBits roundShift
    simp -zeta only [two_pow_eq_shiftLeft]
    decide

theorem volconv_reference :
    volconv .reference (R.ofInt 64) = R.ofRat 23480984068445707 100000000000000000 ∧
      volconv .reference (R.ofInt 127) = R.ofRat 10000095519228722 10000000000000000 := by
  refine ⟨R.eq_of_bits ?_, R.eq_of_bits ?_⟩
  all_goals
    unfold volconv Numerics.pow2 R.pow2 expFixed R.ofDyadic roundBits roundShift
    simp -zeta only [two_pow_eq_shiftLeft]
    decide

/-- The fine volume 1024 adds nothing to the volume. -/
theorem fineVol_neutral : fineVol referenceParams 127 1024 = R.ofInt 127 := by
  have hfine : (R.div (R.ofInt (Int.ofNat 1024 - 1024)) (R.ofInt 1000)).isZero = true := by decide
  rw [fineVol_reference rfl]
  unfold fineVolRef Numerics.add Numerics.div referenceParams
  exact R.add_isZero (by decide) (by decide) hfine

/-- Full volume everywhere: three times the conversion of 127. -/
theorem staticVolumeOf_full :
    staticVolumeOf referenceParams 127 127 1024 127 = R.ofRat 10000286560423353 10000000000000000 := by
  obtain ⟨-, hfull⟩ := volconv_reference
  show R.mul (R.mul (volconv .reference (R.ofInt 127)) (volconv .reference (fineVol referenceParams 127 1024)))
    (volconv .reference (R.ofInt 127)) = _
  rw [fineVol_neutral, hfull]
  exact R.eq_of_bits (by decide)

/-! ### The tuning factors (43_oscillator.md R117) -/

/-- Middle C and the concert pitch. -/
theorem keyFreq_reference :
    [60, 69].map (keyFreq .reference) = [R.ofRat 2616255653005986 10000000000000, R.ofInt 440] := by
  simp only [List.map_cons, List.map_nil, List.cons.injEq, and_true]
  refine ⟨R.eq_of_bits ?_, R.eq_of_bits ?_⟩
  all_goals
    unfold keyFreq Numerics.pow2 R.pow2 expFixed R.ofDyadic roundBits roundShift
    simp -zeta only [two_pow_eq_shiftLeft]
    decide

/-- The frequencies of an octave's twelve keys are neither infinite nor zero. -/
theorem keyFreq_octave {octave : Nat} (h : octave < 11) : ∀ note < 12,
    (keyFreq .reference (12 * octave + note)).isFinite = true ∧
      (keyFreq .reference (12 * octave + note)).isZero = false := by
  unfold keyFreq Numerics.pow2 R.pow2 expFixed R.ofDyadic roundBits roundShift
  simp -zeta only [two_pow_eq_shiftLeft]
  interval_cases octave
  all_goals decide

/-- The offset 0x80 adds 0 Hz to the frequency of a key, whose quotient by itself is 1.0 (R117). -/
theorem pitchOffsetOf_centre {k : Nat} (hk : k < 128) : pitchOffsetOf .reference k 0x80 = R.one := by
  obtain ⟨hfin, hne⟩ := keyFreq_octave (octave := k / 12) (by omega) (k % 12) (by omega)
  rw [Nat.div_add_mod] at hfin hne
  have hoffset : (R.div (R.ofInt (Int.ofNat 0x80 - 0x80)) (R.ofInt 10)).isZero = true := by decide
  unfold pitchOffsetOf Numerics.add Numerics.div
  dsimp only
  rw [R.add_isZero hfin hne hoffset, R.div_self hfin hne]

/-- The three tuning controls, each away from its neutral value with the other two at theirs. -/
theorem pitchExpOf_reference :
    pitchExpOf .reference 0x44F 0x40 0x4000 = R.ofRat 10045736462769368 10000000000000000 ∧
      pitchExpOf .reference 0x400 0x40 0 = R.ofRat 9438743126816935 10000000000000000 ∧
      pitchExpOf .reference 0x400 0x41 0x4000 = R.ofRat 10005777895065548 10000000000000000 := by
  refine ⟨?_, ?_, ?_⟩
  all_goals
    unfold pitchExpOf Numerics.add Numerics.div Numerics.mul Numerics.exp
    simp (disch := decide) only [R.add_isZero, R.isZero_add]
    refine R.eq_of_bits ?_
    unfold R.exp expFixed R.ofDyadic roundBits roundShift
    simp -zeta only [two_pow_eq_shiftLeft]
    decide

/-! ### The interpolators (43_oscillator.md R123) -/

/-- Half an element into a sample: 0.5 − 0 is 0.5, and its kernel row is 128. -/
theorem splitPhase_half : splitPhase .reference (R.ofRat 1 2) = (0, 128) := by
  have hfloor : (R.ofRat 1 2).floor = 0 := by decide
  have hzero : (R.ofInt 0).negate.isZero = true := by decide
  have hsub : R.sub (R.ofRat 1 2) (R.ofInt 0) = R.ofRat 1 2 := R.add_isZero (by decide) (by decide) hzero
  unfold splitPhase Numerics.sub
  rw [hfloor]
  dsimp only
  rw [hsub]
  decide

theorem readSample_linear {s : State} {v : Voice} {k m : Int} (hi : s.interp = 1)
    (hkm : splitPhase s.params.numerics v.phase = (k, m)) : readSample s v = readLinear s v k m := by
  unfold readSample
  rw [hkm, hi]
  rfl

theorem readSample_cubic {s : State} {v : Voice} {k m : Int} (hi : s.interp = 2)
    (hkm : splitPhase s.params.numerics v.phase = (k, m)) : readSample s v = readCubic s v k m := by
  unfold readSample
  rw [hkm, hi]
  rfl

/-- Settles O41: each value is evaluated to the last bit; the groups above hold those in which a zero is added or an
exponential taken. -/
theorem voiceExamples : Obligations.VoiceExamples := by
  obtain ⟨hcentsBelow, hcentsAbove⟩ := centsOf_reference
  obtain ⟨hoctave, hfine, hlow⟩ := staticPitchOf_reference
  obtain ⟨hvolume64, hvolume127⟩ := volconv_reference
  obtain ⟨hsystemTune, hfineTune, hscaleTuning⟩ := pitchExpOf_reference
  refine ⟨?keyFollow, R.eq_of_bits (by decide), hoctave, R.eq_of_bits (by decide), hfine, hlow, hcentsBelow, hcentsAbove,
    R.eq_of_bits (by decide), staticVolumeOf_full, ?pans, by decide, hvolume64, hvolume127, ?linearRows, ?cubicRows,
    by decide, keyFreq_reference, R.eq_of_bits (by decide), hsystemTune, hfineTune, hscaleTuning,
    fun k hk => pitchOffsetOf_centre hk, R.eq_of_bits (by decide), ?nearest, ?linear, ?cubic, ?cubicAroundLoop,
    ?linearAtLoop, ?cubicAtLoop⟩
  case linear => exact (readSample_linear rfl splitPhase_half).trans (R.eq_of_bits (by decide))
  case cubic => exact (readSample_cubic rfl splitPhase_half).trans (R.eq_of_bits (by decide))
  case nearest | cubicAroundLoop | linearAtLoop | cubicAtLoop => exact R.eq_of_bits (by decide)
  case linearRows | cubicRows =>
    simp only [List.map_cons, List.map_nil, List.cons.injEq, and_true]
    decide
  case keyFollow | pans =>
    simp only [List.map_cons, List.map_nil, List.cons.injEq, and_true]
    and_intros
    all_goals exact R.eq_of_bits (by decide)

end Sys2Proof.Machine
end

section
/-!
The refresh of a voice and what is left of it after the frame: the LFOs before the generators, the tuning factors from the
registers, and the counter that says when the next one is due (43_oscillator.md R115, R117, 44_envelopes.md R128, R131).
-/

namespace Sys2Proof.Machine

/-! ### Where a refresh is due -/

/-- The counter moves before the refresh, which does not read it. -/
theorem refreshIfDue_of_zero (s : State) {x : Voice} (h : x.refreshCnt = 0) :
    refreshIfDue s x = refreshVoice s { x with refreshCnt := (x.refreshCnt + 1) % refreshPeriod s } := if_pos h

/-- The LFOs are refreshed first; the generators read the refreshed ones (R128). -/
theorem refreshVoice_generators (s : State) (x : Voice) :
    (refreshVoice s x).lfo1 = lfoRefresh s.params.lfo .lfo1 (refreshInputs s x) x.lfo1 ∧
      (refreshVoice s x).lfo2 = lfoRefresh s.params.lfo .lfo2 (refreshInputs s x) x.lfo2 ∧
      ∀ g, (refreshVoice s x).eg g =
        envRefresh s.params.env g (envInputs s (refreshInputs s x) (refreshVoice s x)) (x.eg g) := by
  unfold refreshVoice
  obtain ⟨c, k, htvf⟩ := refreshTvf_fields s (refreshGenerators s (refreshTuning s x))
  rw [htvf]
  exact ⟨rfl, rfl, fun g => by cases g <;> rfl⟩

/-- The tuning factors are those of the current registers (R117). -/
theorem refreshVoice_tuning (s : State) (x : Voice) :
    (refreshVoice s x).pitchExp =
        pitchExpOf s.params.numerics (s.sysReg 0) (s.partReg x.part (4 + x.key % 12)) (s.partReg x.part 2) ∧
      (refreshVoice s x).pitchOffsetHz = pitchOffsetOf s.params.numerics x.key (s.partReg x.part 3) := by
  unfold refreshVoice
  obtain ⟨c, k, htvf⟩ := refreshTvf_fields s (refreshGenerators s (refreshTuning s x))
  rw [htvf]
  exact ⟨rfl, rfl⟩

/-! ### What the frame leaves of it -/

/-- After the refresh a voice step moves neither the counter nor the tuning factors. -/
theorem voiceStep_tuning (s : State) (x : Voice) :
    (voiceStep s x).voice.refreshCnt = (refreshIfDue s x).refreshCnt ∧
      (voiceStep s x).voice.pitchExp = (refreshIfDue s x).pitchExp ∧
      (voiceStep s x).voice.pitchOffsetHz = (refreshIfDue s x).pitchOffsetHz := by
  rcases voiceStep_cases s x with ⟨p, e, -⟩ | ⟨p, e, -⟩ | ⟨p, b, hist, -, -, -, ⟨l, r, e, -⟩ | e⟩ <;> rw [e] <;>
    exact ⟨rfl, rfl, rfl⟩

/-- The end of a voice sets its flags alone, so the slot holds the counter, factors and TVF that the refresh made. -/
theorem frameVoice_refreshed (s : State) (v : Nat) :
    (frameVoice s v).refreshCnt = (refreshIfDue s (s.voice v)).refreshCnt ∧
      (frameVoice s v).pitchExp = (refreshIfDue s (s.voice v)).pitchExp ∧
      (frameVoice s v).pitchOffsetHz = (refreshIfDue s (s.voice v)).pitchOffsetHz ∧
      (frameVoice s v).tvf.coeffs = (refreshIfDue s (s.voice v)).tvf.coeffs ∧
      (frameVoice s v).tvf.key = (refreshIfDue s (s.voice v)).tvf.key := by
  unfold frameVoice
  obtain ⟨a, f, hend⟩ := endVoice_shape (frameStep s v).voice
  rw [hend]
  obtain ⟨hcnt, hexp, hoffset⟩ := voiceStep_tuning s (s.voice v)
  obtain ⟨hkey, hcoeffs⟩ := voiceStep_tvf s (s.voice v)
  exact ⟨hcnt, hexp, hoffset, hcoeffs, hkey⟩

/-- FRAME completes, and an active slot holds its voice after the frame (45_mixer.md R143). -/
theorem exec_frame_voice {s : State} {v : Nat} (hv : v < s.params.nv) (hact : (s.voice v).active = true) :
    ∃ t, exec .frame s = .next t ∧ t.voice v = frameVoice s v :=
  ⟨{ frameState s with cp := (frameState s).cp + 1 }, rfl, (frameState_voice s v).trans (if_pos ⟨hv, hact⟩)⟩

/-- Settles O47: the voice after the frame has the counter, factors and TVF of the refreshed one, which is a refresh of
the old voice where the counter was 0 and else the old voice with its counter moved. -/
theorem refreshCounter : Obligations.RefreshCounter := by
  refine ⟨fun s x => ⟨fun hzero => ?_, fun hcnt => ?_⟩, fun s v hv hact => ?_⟩
  · rw [refreshIfDue_of_zero s hzero]
    exact refreshVoice_generators s { x with refreshCnt := (x.refreshCnt + 1) % refreshPeriod s }
  · rw [refreshIfDue_of_ne_zero s hcnt]
    exact ⟨rfl, rfl, fun g => by cases g <;> rfl⟩
  · obtain ⟨t, ht, hvoice⟩ := exec_frame_voice hv hact
    obtain ⟨hcnt, hexp, hoffset, hcoeffs, hkey⟩ := frameVoice_refreshed s v
    obtain ⟨-, -, -, -, -, -, hmoved, -⟩ := refreshIfDue_fields s (s.voice v)
    refine ⟨t, ht, ?_⟩
    rw [hvoice, hcnt, hexp, hoffset, hcoeffs, hkey]
    refine ⟨hmoved, fun hzero => ?_, fun hne => ?_⟩
    · rw [refreshIfDue_of_zero s hzero]
      exact refreshVoice_tuning s { s.voice v with refreshCnt := ((s.voice v).refreshCnt + 1) % refreshPeriod s }
    · rw [refreshIfDue_of_ne_zero s hne]
      exact ⟨rfl, rfl, rfl, rfl⟩

end Sys2Proof.Machine
end

section
/-!
The voice step after its refresh: the phase moves, wraps at most once and is checked, and a running voice sounds with what
the refresh made of it (43_oscillator.md R118 to R120, 44_envelopes.md R132 to R134, 45_mixer.md R137, R138).
-/

namespace Sys2Proof.Machine

/-! ### The phase (R119) -/

/-- A finite phase at or past the end. -/
def Voice.reachesEnd (x : Voice) (phase : R) : Bool := phase.isFinite && R.le x.endPhase phase

/-- The phase after the single wrap of the loop modes. -/
def Voice.wrapPhase (N : Numerics) (x : Voice) (phase : R) : R :=
  if x.reachesEnd phase then N.sub phase (R.ofInt (x.loopLen + 1)) else phase

section
variable {N : Numerics} {x : Voice} {pitch phase : R}

theorem advancePhase_oneShotEnd (hmode : x.loopMode = 2) (hend : x.reachesEnd (N.add x.phase pitch) = true) :
    advancePhase N x pitch = .oneShotEnd { x with phase := N.add x.phase pitch } :=
  (if_pos hend).trans (if_pos hmode)

/-- Every other voice settles at its wrapped phase; a one-shot voice that comes here is short of its end, or its phase is
not finite (log entry 17). -/
theorem advancePhase_settle (h : ¬ (x.loopMode = 2 ∧ x.reachesEnd (N.add x.phase pitch) = true)) :
    advancePhase N x pitch = settlePhase x (x.wrapPhase N (N.add x.phase pitch)) := by
  unfold Voice.wrapPhase
  by_cases hend : x.reachesEnd (N.add x.phase pitch) = true
  · have hmode : x.loopMode ≠ 2 := fun hmode => h ⟨hmode, hend⟩
    rw [if_pos hend]
    exact (if_pos hend).trans (if_neg hmode)
  · rw [if_neg hend]
    exact if_neg hend

theorem settlePhase_outOfRange (h : (R.le R.zero phase && R.lt phase x.endPhase) = false) :
    settlePhase x phase = .outOfRange { x with phase := phase } :=
  if_neg (Bool.eq_false_iff.mp h)

theorem settlePhase_running (h : (R.le R.zero phase && R.lt phase x.endPhase) = true) :
    settlePhase x phase = .running { x with
      phase := phase, isLooping := x.isLooping || (x.loopMode != 2 && R.lt (R.ofInt x.loopStart) phase) } :=
  if_pos h

end

/-! ### The refreshed voice -/

theorem refreshVoice_shape (s : State) (x : Voice) : ∃ offset exp tvp tvf tva lfo1 lfo2 coeffs key,
    refreshVoice s x = { x with
      pitchOffsetHz := offset, pitchExp := exp, egTvp := tvp, egTvf := tvf, egTva := tva, lfo1 := lfo1, lfo2 := lfo2
      tvf := { x.tvf with coeffs := coeffs, key := key } } := by
  obtain ⟨coeffs, key, htvf⟩ := refreshTvf_fields s (refreshGenerators s (refreshTuning s x))
  exact ⟨_, _, _, _, _, _, _, coeffs, key, htvf⟩

/-- Whether or not a refresh was due, the rest of the voice, with the filter's history, is what it was. -/
theorem refreshIfDue_shape (s : State) (x : Voice) : ∃ cnt offset exp tvp tvf tva lfo1 lfo2 coeffs key,
    refreshIfDue s x = { x with
      refreshCnt := cnt, pitchOffsetHz := offset, pitchExp := exp, egTvp := tvp, egTvf := tvf, egTva := tva
      lfo1 := lfo1, lfo2 := lfo2, tvf := { x.tvf with coeffs := coeffs, key := key } } := by
  by_cases h : x.refreshCnt = 0
  · rw [refreshIfDue_of_zero s h]
    exact ⟨_, refreshVoice_shape s _⟩
  · rw [refreshIfDue_of_ne_zero s h]
    exact ⟨_, _, _, _, _, _, _, _, _, _, rfl⟩

/-! ### The reference pan and the tick (R133, R134) -/

theorem panMap_reference {p : Params} (h : p.panMap = .reference) (b pp : Nat) :
    panMap p b pp = p.numerics.div (R.ofInt (min (max ((b : Int) + pp - 64) 0) 127)) (R.ofInt 127) := by
  unfold panMap
  rw [h]
  rfl

/-- Every generator ticks with the LFO outputs from before the tick. -/
theorem tickGenerators_eg_eq (s : State) (x : Voice) (g : Gen) :
    (tickGenerators s x).eg g = envTick s.params.env g (envInputs s (frameInputs s x) x) (x.eg g) := by
  cases g <;> rfl

/-- Settles O45: the three outcomes of the phase are those of `advancePhase` on the refreshed voice, whose other fields are
the old voice's; what a running voice answers is `soundVoice` written out. -/
theorem phaseRule : Obligations.PhaseRule := by
  unfold Obligations.PhaseRule voiceStep
  intro s x
  obtain ⟨_, _, _, _, _, _, _, _, _, _, hrefreshed⟩ := refreshIfDue_shape s x
  rw [hrefreshed]
  intro y N pitch moved atEnd wrapped inside o
  have step_eq {w : PhaseStep} (h : advancePhase N y pitch = w) : o = w.out (soundVoice s) :=
    congrArg (PhaseStep.out (soundVoice s)) h
  refine ⟨fun hmode hend => ?oneShotEnd, fun hnot hout => ?outOfRange, fun hnot hin => ?running,
    fun hpan => panMap_reference hpan, rfl, tickGenerators_eg_eq s x, rfl, rfl⟩
  case oneShotEnd =>
    have ho := step_eq (advancePhase_oneShotEnd (x := y) hmode hend)
    rw [ho]
    exact ⟨rfl, rfl, rfl, rfl⟩
  case outOfRange =>
    have ho := step_eq ((advancePhase_settle (x := y) hnot).trans (settlePhase_outOfRange hout))
    rw [ho]
    exact ⟨rfl, rfl, rfl, rfl⟩
  case running => exact step_eq ((advancePhase_settle (x := y) hnot).trans (settlePhase_running hin))

end Sys2Proof.Machine
end

section
/-!
The strict order of the binary64 numbers against the other one.
-/

namespace Sys2Proof

theorem R.not_le_of_lt {x y : R} (h : R.lt x y = true) : ¬ R.le y x = true := by
  simp only [R.lt, R.le, Bool.and_eq_true, decide_eq_true_eq] at h ⊢
  exact fun hle => absurd hle.2 (not_le.mpr h.2)

end Sys2Proof
end

section
/-!
The generators through a frame: which moves of a stage leave a voice held, released or done, what the voice step does to the
generators, and which voices their TVA ends (44_envelopes.md R126, R135, R136).
-/

namespace Sys2Proof.Machine

/-! ### The legal moves of a stage (R126) -/

/-- Before its release a generator stays before its release. -/
theorem forwardMove_held {old new : Stage} (h : forwardMove old new = true) (hrelease : old ≠ .release)
    (hdone : old ≠ .done) : new ≠ .release ∧ new ≠ .done := by
  have hcode : new.code ≤ 3 := by
    cases old with
    | release => exact absurd rfl hrelease
    | done => exact absurd rfl hdone
    | attack | decay | approach | sustain =>
      simp only [forwardMove, Bool.and_eq_true, decide_eq_true_eq] at h
      exact h.2
  constructor <;> rintro rfl <;> exact absurd hcode (by decide)

theorem forwardMove_release {new : Stage} (h : forwardMove .release new = true) : new = .release ∨ new = .done := by
  simpa only [forwardMove, Bool.or_eq_true, beq_iff_eq] using h

/-- A move that does not end a generator neither begins nor undoes its release. -/
theorem forwardMove_release_iff {old new : Stage} (h : forwardMove old new = true) (hold : old ≠ .done)
    (hnew : new ≠ .done) : new = .release ↔ old = .release := by
  constructor
  · intro hrelease
    by_contra hheld
    exact (forwardMove_held h hheld hold).1 hrelease
  · rintro rfl
    exact (forwardMove_release h).resolve_right hnew

/-! ### The generators after the voice step (45_mixer.md R137) -/

/-- A step that ends or aborts the voice at its phase leaves the generators as the refresh made them; any other ticks
them. -/
theorem voiceStep_eg (s : State) (x : Voice) (g : Gen) :
    ((voiceStep s x).voice.active = false ∧ (voiceStep s x).voice.eg g = (refreshIfDue s x).eg g) ∨
      ∃ i, (voiceStep s x).voice.eg g = envTick s.params.env g i ((refreshIfDue s x).eg g) := by
  rcases voiceStep_cases s x with ⟨p, e, -⟩ | ⟨p, e, -⟩ | ⟨p, b, hist, -, -, -, ⟨l, r, e, -⟩ | e⟩ <;> rw [e]
  · exact .inl ⟨rfl, by cases g <;> rfl⟩
  · exact .inl ⟨rfl, by cases g <;> rfl⟩
  · exact .inr ⟨_, by cases g <;> rfl⟩
  · exact .inr ⟨_, by cases g <;> rfl⟩

/-- Refresh and tick together make a legal move (R126.2, R126.4, R126.6). -/
theorem voiceStep_legal {s : State} {x : Voice} {g : Gen} (h : legalLevel g (x.eg g).level = true) :
    forwardMove (x.eg g).stage ((voiceStep s x).voice.eg g).stage = true ∧
      legalLevel g ((voiceStep s x).voice.eg g).level = true := by
  obtain ⟨hmove, hlevel, -⟩ := refreshIfDue_legal s x g h
  rcases voiceStep_eg s x g with ⟨-, e⟩ | ⟨i, e⟩ <;> rw [e]
  · exact ⟨hmove, hlevel⟩
  · obtain ⟨htick, hticked, -⟩ := envTick_legal s.params.env g i ((refreshIfDue s x).eg g) hlevel
    exact ⟨forwardMove_trans hmove htick, hticked⟩

/-- A voice that neither faults nor, being one-shot, reaches its end is active after its step (R118, R119, R138). -/
theorem voiceStep_stays_active {s : State} {x : Voice} (hact : x.active = true) (hfault : (voiceStep s x).fault = none)
    (hend : x.loopMode = 2 → R.lt (voiceStep s x).voice.phase x.endPhase = true) :
    (voiceStep s x).voice.active = true := by
  obtain ⟨-, hrefresh, -⟩ := refreshIfDue_fields s x
  rcases voiceStep_cases s x with ⟨p, e, hmode, -, hle⟩ | ⟨p, e, -⟩ | ⟨p, b, hist, -, -, -, ⟨l, r, e, -⟩ | e⟩
  · have hlt := hend hmode
    rw [e] at hlt
    exact absurd hle (R.not_le_of_lt hlt)
  · rw [e] at hfault; cases hfault
  · rw [e]; exact hrefresh.trans hact
  · rw [e] at hfault; cases hfault

/-! ### The completion test (R135) -/

theorem endVoice_of_done {x : Voice} (hact : x.active = true) (hdone : x.egTva.stage = .done) :
    endVoice x = x.finish := (if_pos hact).trans (if_pos hdone)

theorem endVoice_of_ne_done {x : Voice} (h : x.egTva.stage ≠ .done) : endVoice x = x := by
  unfold endVoice completeVoice
  rw [if_neg h, ite_self]

/-- The TVA of a voice that is active after its frame is not done. -/
theorem endVoice_active_stage {x : Voice} (h : (endVoice x).active = true) : x.egTva.stage ≠ .done := by
  intro hdone
  obtain ⟨hact, -⟩ := endVoice_active h
  rw [endVoice_of_done hact hdone] at h
  cases h

theorem endVoice_eg (x : Voice) (g : Gen) : (endVoice x).eg g = x.eg g := by
  obtain ⟨a, f, h⟩ := endVoice_shape x
  rw [h]
  cases g <;> rfl

end Sys2Proof.Machine
end

section
/-!
The envelope invariant, voice by voice: every command that writes a voice leaves legal levels, and a legal stage where the
voice is active (44_envelopes.md R125, R126).
-/

namespace Sys2Proof.Machine

/-- Where the voice is active its TVA is not DONE, and is in RELEASE exactly when the voice is releasing. -/
def Voice.StageLegal (x : Voice) : Prop :=
  x.active = true → x.egTva.stage ≠ .done ∧ (x.releasing = true ↔ x.egTva.stage = .release)

/-- Every level is finite, the TVA's not negative. -/
def Voice.LevelsLegal (x : Voice) : Prop := ∀ g, legalLevel g (x.eg g).level = true

theorem envelopesLegal_iff (s : State) : EnvelopesLegal s ↔
    (∀ v, v < s.params.nv → (s.voice v).StageLegal) ∧ ∀ v, (s.voice v).LevelsLegal :=
  ⟨fun h => ⟨h.stage, h.level⟩, fun ⟨hstage, hlevel⟩ => ⟨hstage, hlevel⟩⟩

/-! ### The voice of a frame -/

theorem frameVoice_levelsLegal {s : State} {v : Nat} (h : (s.voice v).LevelsLegal) : (frameVoice s v).LevelsLegal := by
  intro g
  unfold frameVoice
  rw [endVoice_eg]
  exact (voiceStep_legal (h g)).2

/-- A voice still active after its frame has a TVA that is not done, so its move has neither begun nor undone a release. -/
theorem frameVoice_stageLegal {s : State} {v : Nat} (hact : (s.voice v).active = true)
    (hstage : (s.voice v).StageLegal) (hlevels : (s.voice v).LevelsLegal) : (frameVoice s v).StageLegal := by
  intro h
  unfold frameVoice at h ⊢
  have hnew : (frameStep s v).voice.egTva.stage ≠ .done := endVoice_active_stage h
  rw [endVoice_of_ne_done hnew]
  obtain ⟨hold, hreleasing⟩ := hstage hact
  have hmove : forwardMove (s.voice v).egTva.stage (frameStep s v).voice.egTva.stage = true :=
    (voiceStep_legal (hlevels .tva)).1
  have hfixed : (frameStep s v).voice.fixed = (s.voice v).fixed := voiceStep_fixed s (s.voice v)
  obtain ⟨-, -, hkept, -⟩ := Voice.fixed_fields hfixed
  rw [hkept, hreleasing]
  exact ⟨hnew, (forwardMove_release_iff hmove hold hnew).symm⟩

/-! ### The voice of a voice command -/

theorem startVoice_stageLegal (s : State) (v q e : Nat) : (startVoice s v q e).StageLegal := by
  have hcode : (startVoice s v q e).egTva.stage.code ≤ 3 := (startVoice_eg_legal s v q e .tva).1
  have hnot (stage : Stage) (h : 3 < stage.code) : (startVoice s v q e).egTva.stage ≠ stage := by
    intro hs
    rw [hs] at hcode
    omega
  exact fun _ => ⟨hnot .done (by decide), fun h => absurd h Bool.false_ne_true,
    fun h => absurd h (hnot .release (by decide))⟩

/-- A note-off sets the flag and releases the TVA together (42_voice.md R112). -/
theorem noteOff_stageLegal {s : State} {x : Voice} (h : x.StageLegal) : (noteOff s x).StageLegal := by
  unfold noteOff
  split
  · exact h
  · next hplays =>
    split
    · exact h
    · intro hact
      obtain ⟨hdone, hreleasing⟩ := h hact
      have hheld : x.egTva.stage ≠ .release := fun hs => hplays (.inr (hreleasing.mpr hs))
      have hstage : (releaseGenerators s { x with releasing := true }).egTva.stage = .release :=
        (releaseGenerators_stage s { x with releasing := true } .tva).1 hheld hdone
      rw [hstage]
      exact ⟨by decide, fun _ => rfl, fun _ => rfl⟩

theorem noteOff_levelsLegal {s : State} {x : Voice} (h : x.LevelsLegal) : (noteOff s x).LevelsLegal := by
  unfold noteOff
  split
  · exact h
  split
  · exact h
  · intro g
    obtain ⟨i, e⟩ := releaseGenerators_eg s { x with releasing := true } g
    have heg : ({ x with releasing := true } : Voice).eg g = x.eg g := by cases g <;> rfl
    rw [e, heg]
    exact (envRelease_legal s.params.env g i (x.eg g) (h g)).1

theorem VoiceWrite.stageLegal {s : State} {i : Instr} {v : Nat} {x : Voice} (hx : VoiceWrite s i v x)
    (h : (s.voice v).StageLegal) : x.StageLegal := by
  cases hx with
  | start hc => exact startVoice_stageLegal s v _ _
  | noteOff => exact noteOff_stageLegal h
  | kill => exact fun ha => absurd ha Bool.false_ne_true

theorem VoiceWrite.levelsLegal {s : State} {i : Instr} {v : Nat} {x : Voice} (hx : VoiceWrite s i v x)
    (h : (s.voice v).LevelsLegal) : x.LevelsLegal := by
  cases hx with
  | start hc => exact fun g => (startVoice_eg_legal s v _ _ g).2
  | noteOff => exact noteOff_levelsLegal h
  | kill => exact fun g => by cases g <;> exact h _

/-! ### RESET -/

theorem softReset_stageLegal (x : Voice) : x.softReset.StageLegal := fun ha => absurd ha Bool.false_ne_true

/-- RESET puts the TVA at level 0.0 and keeps the other levels (41_parameters.md R94). -/
theorem softReset_levelsLegal {x : Voice} (h : x.LevelsLegal) : x.softReset.LevelsLegal := by
  intro g
  cases g with
  | tva => exact legalLevel_zero .tva
  | tvp => exact h .tvp
  | tvf => exact h .tvf

/-! ### A step -/

theorem EnvelopesLegal.transfer {s t : State} (h : EnvelopesLegal s) (hparams : t.params = s.params)
    (hvoice : ∀ v, t.voice v = s.voice v) : EnvelopesLegal t where
  stage v hv := by
    rw [hvoice]
    exact h.stage v (hparams ▸ hv)
  level v := by
    rw [hvoice]
    exact h.level v

theorem EnvelopesLegal.effect {i : Instr} {s t : State} (h : EnvelopesLegal s) (he : Effect i s t) :
    EnvelopesLegal t := by
  obtain ⟨-, hparams, -, -⟩ := he.control
  obtain ⟨hstage, hlevel⟩ := (envelopesLegal_iff s).mp h
  rw [envelopesLegal_iff, hparams]
  rcases he.kinds with ⟨-, rfl⟩ | ⟨-, rfl⟩ | ⟨j, x, hx, rfl⟩ | hk
  · refine ⟨fun v hv => ?_, fun v => ?_⟩
    · rw [frameState_voice]
      split
      · next hact => exact frameVoice_stageLegal hact.2 (hstage v hv) (hlevel v)
      · exact hstage v hv
    · rw [frameState_voice]
      split
      · exact frameVoice_levelsLegal (hlevel v)
      · exact hlevel v
  · refine ⟨fun v hv => ?_, fun v => ?_⟩
    · rw [softResetState_voice, if_pos hv]
      exact softReset_stageLegal _
    · rw [softResetState_voice]
      split
      · exact softReset_levelsLegal (hlevel v)
      · exact hlevel v
  · refine ⟨fun v hv => ?_, fun v => ?_⟩
    · rw [voice_setVoice]
      split
      · next hj => exact hx.stageLegal (hj ▸ hstage v hv)
      · exact hstage v hv
    · rw [voice_setVoice]
      split
      · exact hx.levelsLegal (hlevel j)
      · exact hlevel v
  · simp only [hk.voice]
    exact ⟨hstage, hlevel⟩

theorem EnvelopesLegal.execWord {w : Word} {s t : State} (h : EnvelopesLegal s) (ht : execWord w s = .next t) :
    EnvelopesLegal t := by
  rcases execWord_cases w s with ⟨c, w', hr⟩ | ⟨i, u, -, hu, he⟩
  · cases hr.symm.trans ht
    exact h.transfer rfl fun _ => rfl
  · cases hu.symm.trans ht
    exact (h.effect he).transfer rfl fun _ => rfl

/-- Settles O58: FRAME makes legal moves and ends a voice whose TVA is done, VSTART begins before RELEASE, VNOTEOFF moves
flag and stage together, and no other effect touches an active voice's TVA. -/
theorem envelopesKept : Obligations.EnvelopesKept := by
  intro s t h hs
  rcases step_cases hs with rfl | ⟨w, rest, -, hw⟩
  · exact h
  · have hport : EnvelopesLegal { s with port := rest } := h.transfer rfl fun _ => rfl
    exact hport.execWord hw

end Sys2Proof.Machine
end

section
/-!
What a frame makes of one voice: it depends on that voice alone, keeps a voice that is held and ends one whose TVA is done
(44_envelopes.md R124, R126, R135, R136, 45_mixer.md R137).
-/

namespace Sys2Proof.Machine

/-- Settles O49: the slot's step reads `SameInputs` and the voice, and FRAME writes the slot from that step alone. -/
theorem voicesIndependent : Obligations.VoicesIndependent := by
  intro s s' v _ hinputs hvoice
  refine ⟨frameStep_congr hinputs hvoice, _, _, rfl, rfl, ?_⟩
  show (frameState s').voice v = (frameState s).voice v
  rw [frameState_voice, frameState_voice, hvoice, hinputs.params, frameVoice_congr hinputs hvoice]

/-- Settles O50: the step leaves the voice active, and a TVA before its release stays before it, so it is not done. -/
theorem heldUntilRelease : Obligations.HeldUntilRelease := by
  intro s v h hv hact hheld hfault hend
  obtain ⟨t, ht, hvoice⟩ := exec_frame_voice hv hact
  obtain ⟨hdone, hreleasing⟩ := h.stage v hv hact
  have hrelease : (s.voice v).egTva.stage ≠ .release := fun hs => by
    rw [hreleasing.mpr hs] at hheld
    cases hheld
  have hmove : forwardMove (s.voice v).egTva.stage (frameStep s v).voice.egTva.stage = true :=
    (voiceStep_legal (h.level v .tva)).1
  refine ⟨t, ht, ?_⟩
  rw [hvoice, frameVoice, endVoice_of_ne_done (forwardMove_held hmove hrelease hdone).2]
  exact voiceStep_stays_active hact hfault hend

/-! ### The reference `ENV` (R136) -/

theorem envTick_reference_of_release {e : EG} (h : e.stage = .release) (g : Gen) (i : EnvInputs) :
    envTick .reference g i e = { e with stage := .done, level := if g = .tva then R.zero else e.level } := if_pos h

theorem envTick_reference_of_ne_release {e : EG} (h : e.stage ≠ .release) (g : Gen) (i : EnvInputs) :
    envTick .reference g i e = e := if_neg h

theorem envRelease_reference {e : EG} (hrelease : e.stage ≠ .release) (hdone : e.stage ≠ .done) (g : Gen)
    (i : EnvInputs) : envRelease .reference g i e = { e with stage := .release } := if_neg (not_or.mpr ⟨hrelease, hdone⟩)

/-- A refresh by the reference leaves the generators alone. -/
theorem refreshIfDue_eg_reference {s : State} (henv : s.params.env = .reference) (x : Voice) (g : Gen) :
    (refreshIfDue s x).eg g = x.eg g := by
  rcases refreshIfDue_eg s x g with h | ⟨i, h⟩
  · exact h
  · rw [h, henv]
    rfl

/-- The reference ends a released TVA in the one tick of its next frame, if the step does not end the voice before. -/
theorem voiceStep_tva_reference {s : State} {x : Voice} (henv : s.params.env = .reference)
    (hrelease : x.egTva.stage = .release) (hact : (voiceStep s x).voice.active = true) :
    (voiceStep s x).voice.egTva = { x.egTva with stage := .done, level := R.zero } := by
  rcases voiceStep_eg s x .tva with ⟨hended, -⟩ | ⟨i, h⟩
  · rw [hended] at hact
    cases hact
  · rw [henv, refreshIfDue_eg_reference henv] at h
    exact h.trans (envTick_reference_of_release hrelease .tva i)

/-- Settles O51: the clauses of R136 case by case; then the step leaves the voice active with its TVA done at 0.0, and the
completion test finishes it. -/
theorem releaseEndsVoice : Obligations.ReleaseEndsVoice := by
  refine ⟨fun g i e => ⟨fun h => envTick_reference_of_release h g i, fun h => envTick_reference_of_ne_release h g i, rfl,
    fun hrelease hdone => envRelease_reference hrelease hdone g i, rfl, rfl⟩, fun l i x => rfl, ?_⟩
  intro s v henv hv hact hrelease hfault hend
  obtain ⟨t, ht, hvoice⟩ := exec_frame_voice hv hact
  have hstep : (frameStep s v).voice.active = true := voiceStep_stays_active hact hfault hend
  have htva : (frameStep s v).voice.egTva = { (s.voice v).egTva with stage := .done, level := R.zero } :=
    voiceStep_tva_reference henv hrelease hstep
  have hdone : (frameStep s v).voice.egTva.stage = .done := congrArg EG.stage htva
  refine ⟨t, ht, ?_⟩
  rw [hvoice, frameVoice, endVoice_of_done hstep hdone]
  exact ⟨rfl, rfl, hdone, congrArg EG.level htva⟩

end Sys2Proof.Machine
end

section
/-!
FRAME as a whole: the mix is the one the statements name, the record is that of the voices' faults in ascending order and
then the mix's own, and the first voice to fault is the first one recorded (45_mixer.md R137 to R143, 60_exceptions.md
R145, R146).
-/

namespace Sys2Proof.Machine

/-! ### The mix (45_mixer.md R139 to R143) -/

theorem partGain_reference {s : State} (h : s.params.partGain = .reference) (p : Nat) :
    partGain s p = partGainRef s p := by
  unfold partGain
  rw [h]

theorem mPan_reference (l r : R) (masterPan : Nat) : mPan .reference l r masterPan = (l, r) := rfl

theorem frameMix_reference {s : State} (h : s.params.mPan = .reference) :
    frameMix s = (frameSide s VoiceOut.left, frameSide s VoiceOut.right) := by
  unfold frameMix
  rw [h, mPan_reference]

/-- The accumulators of the parts, weighted and added, are one side of the frame before the master gain. -/
theorem masterGain_sumParts {s t : State} (h : SameInputs s t) {acc : Table R} {side : VoiceOut → R}
    (hacc : ∀ p, accAt acc p = partSum s side p) : masterGain t (sumParts t acc) = frameSide s side := by
  unfold sumParts frameSide
  simp only [hacc, h.masterGain, h.partGain, h.params]

theorem masterPair_mixVoices (s : State) : masterPair (mixVoices s) = frameMix s := by
  have hspec := mixVoices_spec s
  have hinputs : SameInputs s (mixVoices s).st := hspec.inputs
  have hleft : ∀ p, accAt (mixVoices s).accL p = partSum s VoiceOut.left p := hspec.accL
  have hright : ∀ p, accAt (mixVoices s).accR p = partSum s VoiceOut.right p := hspec.accR
  unfold masterPair frameMix
  rw [masterGain_sumParts hinputs hleft, masterGain_sumParts hinputs hright, hinputs.params, hinputs.sysReg]

theorem mixVoices_silent (s : State) : (mixVoices s).silent = !(frameFaults s).isEmpty := (mixVoices_spec s).silent

/-- The mix leaves the record of the voices' faults and the voices after their steps. -/
theorem mixVoices_st (s : State) :
    (mixVoices s).st = { recordFrame (frameFaults s) s with voices := (mixVoices s).st.voices } := by
  have hstate : ({ (mixVoices s).st with voices := s.voices } : State) = recordFrame (frameFaults s) s :=
    (mixVoices_spec s).state
  rw [← hstate]

/-- What FRAME leaves, before the position advances: the whole record of the frame, its voices and its pair. -/
theorem frameState_eq (s : State) : frameState s =
    { frameRecord s with voices := (mixVoices s).st.voices, out := s.out ++ [framePair s] } := by
  have hfinite : ((masterPair (mixVoices s)).1.isFinite && (masterPair (mixVoices s)).2.isFinite) = frameFinite s := by
    rw [masterPair_mixVoices]
    rfl
  have hparams : (mixVoices s).st.params = s.params := (mixVoices_spec s).inputs.params
  have hout : (recordFrame (frameFaults s) s).out = s.out := by
    obtain ⟨f, c, v, w, h⟩ := recordFrame_shape (frameFaults s) s
    rw [h]
  unfold frameState frameRecord framePair
  rw [emitMix_eq, hfinite, mixVoices_silent, hparams, masterPair_mixVoices, mixVoices_st, ← hout]
  cases frameFinite s with
  | false => rfl
  | true => cases (frameFaults s).isEmpty <;> rfl

/-- The record of a frame touches the fault record alone. -/
theorem frameRecord_eq (s : State) : frameRecord s = { s with
    fault := (frameRecord s).fault, faultCause := (frameRecord s).faultCause, faultVoice := (frameRecord s).faultVoice
    faultCmd := (frameRecord s).faultCmd } := by
  obtain ⟨f, c, v, w, h⟩ := recordFrame_shape (frameFaults s) s
  unfold frameRecord
  rw [h]
  split <;> rfl

/-- FRAME answers the state of the frame at the next position. -/
theorem exec_frame (s : State) : exec .frame s = .next { frameState s with cp := (frameState s).cp + 1 } := rfl

/-- Settles O42: the sides, part gains and master pan as R139 to R141 write them; FRAME leaves the record, the voices and the
pair of its frame. -/
theorem frameCompletes : Obligations.FrameCompletes := by
  refine ⟨fun s side => rfl, fun s p h => partGain_reference h p, fun s h => frameMix_reference h,
    fun s => ⟨_, exec_frame s, frameState_voice s, ?pair, ?rest, ?rom⟩⟩
  case pair => rw [frameState_eq]
  case rest => rw [frameState_eq, frameRecord_eq]
  case rom =>
    rw [frameState_eq, frameRecord_eq]
    exact fun a => rfl

/-! ### The first fault (60_exceptions.md R145, R146) -/

/-- `t` keeps the fault record of `s`: a set bit stays set, and the record of a first fault stays. -/
def KeepsRecord (s t : State) : Prop :=
  (∀ b, s.fault &&& b = b → t.fault &&& b = b) ∧
    (s.fault ≠ 0 → t.faultCause = s.faultCause ∧ t.faultVoice = s.faultVoice ∧ t.faultCmd = s.faultCmd)

/-- A set bit stays set. -/
theorem or_and_of_and_eq {x b : BitVec 32} (h : x &&& b = b) (y : BitVec 32) : (x ||| y) &&& b = b := by
  ext i hi
  have hbit := congrArg (fun z : BitVec 32 => z[i]) h
  simp only [BitVec.getElem_and, BitVec.getElem_or] at hbit ⊢
  rw [Bool.and_or_distrib_right, hbit, Bool.or_eq_left_iff_imp, Bool.and_eq_true]
  exact And.right

theorem KeepsRecord.refl (s : State) : KeepsRecord s s := ⟨fun _ h => h, fun _ => ⟨rfl, rfl, rfl⟩⟩

theorem KeepsRecord.fault_ne_zero {s t : State} (h : KeepsRecord s t) (hs : s.fault ≠ 0) : t.fault ≠ 0 := by
  intro ht
  obtain ⟨hbits, -⟩ := h
  have hall := hbits s.fault BitVec.and_self
  rw [ht] at hall
  exact hs (hall.symm.trans BitVec.zero_and)

theorem KeepsRecord.trans {s t u : State} (h : KeepsRecord s t) (h' : KeepsRecord t u) : KeepsRecord s u := by
  have hne := h.fault_ne_zero
  obtain ⟨hbits, hfirst⟩ := h
  obtain ⟨hbits', hfirst'⟩ := h'
  refine ⟨fun b hb => hbits' b (hbits b hb), fun hs => ?_⟩
  obtain ⟨hcause, hvoice, hcmd⟩ := hfirst' (hne hs)
  rw [hcause, hvoice, hcmd]
  exact hfirst hs

theorem KeepsRecord.record (c : Cause) (voice : BitVec 8) (w : Word) (s : State) :
    KeepsRecord s (record c voice w s) :=
  ⟨fun _ hb => or_and_of_and_eq hb c.bit, fun hs => ⟨if_neg hs, if_neg hs, if_neg hs⟩⟩

theorem KeepsRecord.recordFrame (l : List (Nat × Cause)) (s : State) : KeepsRecord s (recordFrame l s) := by
  induction l generalizing s with
  | nil => exact KeepsRecord.refl s
  | cons e l ih => exact (KeepsRecord.record e.2 _ _ s).trans (ih _)

/-- The record of a frame in which a voice faults keeps the record of that fault alone. -/
theorem KeepsRecord.frameRecord {s : State} {v : Nat} {c : Cause} {rest : List (Nat × Cause)}
    (h : frameFaults s = (v, c) :: rest) :
    KeepsRecord (Machine.record c (BitVec.ofNat 8 v) (encode .frame) s) (frameRecord s) := by
  have hrest := KeepsRecord.recordFrame rest (Machine.record c (BitVec.ofNat 8 v) (encode .frame) s)
  unfold Machine.frameRecord
  rw [h]
  split
  · exact hrest
  · exact hrest.trans (KeepsRecord.record ..)

theorem faultsOf_append (s : State) (l k : List Nat) : faultsOf s (l ++ k) = faultsOf s l ++ faultsOf s k := by
  unfold faultsOf
  rw [List.filter_append, List.filterMap_append]

theorem faultsOf_quiet {s : State} {l : List Nat}
    (h : ∀ u ∈ l, (s.voice u).active = true → (frameStep s u).fault = none) : faultsOf s l = [] := by
  unfold faultsOf
  rw [List.filterMap_eq_nil_iff]
  intro u hu
  obtain ⟨hl, hact⟩ := List.mem_filter.mp hu
  rw [h u hl hact]
  rfl

theorem faultsOf_cons {s : State} {v : Nat} {c : Cause} (hact : (s.voice v).active = true)
    (hfault : (frameStep s v).fault = some c) (l : List Nat) : faultsOf s (v :: l) = (v, c) :: faultsOf s l := by
  unfold faultsOf
  rw [List.filter_cons_of_pos (p := fun v => (s.voice v).active) hact,
    filterMap_faults (fun v => (frameStep s v).fault), hfault]
  rfl

/-- The faults of a frame begin with that of the least slot whose voice faults. -/
theorem frameFaults_eq_cons {s : State} {v : Nat} {c : Cause} (hv : v < s.params.nv) (hact : (s.voice v).active = true)
    (hfault : (frameStep s v).fault = some c)
    (hbelow : ∀ u, u < v → (s.voice u).active = true → (frameStep s u).fault = none) :
    ∃ rest, frameFaults s = (v, c) :: rest := by
  obtain ⟨k, hk⟩ := Nat.exists_eq_add_of_lt hv
  have hrange : List.range s.params.nv = List.range v ++ v :: (List.range k).map (v + 1 + ·) := by
    rw [hk, Nat.add_right_comm, List.range_add, List.range_succ, List.append_assoc, List.singleton_append]
  refine ⟨faultsOf s ((List.range k).map (v + 1 + ·)), ?_⟩
  calc frameFaults s = faultsOf s (List.range v) ++ faultsOf s (v :: (List.range k).map (v + 1 + ·)) := by
        rw [← faultsOf_append, ← hrange]
        rfl
    _ = _ := by
        rw [faultsOf_quiet fun u hu => hbelow u (List.mem_range.mp hu), faultsOf_cons hact hfault, List.nil_append]

/-- A frame in which a voice faults is silent. -/
theorem framePair_of_fault {s : State} {e : Nat × Cause} {rest : List (Nat × Cause)} (h : frameFaults s = e :: rest) :
    framePair s = (0, 0) := by
  unfold framePair
  rw [h, List.isEmpty_cons, Bool.and_false]
  rfl

/-- Settles O43: the slot's fault heads the list of the frame, whose later ones keep the first one's record; the step has
already stopped the voice, and nothing finishes it after that. -/
theorem firstFaultOfFrame : Obligations.FirstFaultOfFrame := by
  intro s v c hv hact hfault hbelow
  obtain ⟨rest, hfaults⟩ := frameFaults_eq_cons hv hact hfault hbelow
  obtain ⟨hbits, hfirst⟩ := KeepsRecord.frameRecord hfaults
  obtain ⟨-, haborted, hstopped, -, -⟩ := voiceStep_fault s (s.voice v) hfault
  have hvoice : (frameState s).voice v = (frameStep s v).voice := by
    rw [frameState_voice, if_pos ⟨hv, hact⟩]
    exact if_neg (Bool.eq_false_iff.mp hstopped)
  refine ⟨_, exec_frame s, ?pair, ?bit, fun hclean => ?first, (congrArg Voice.aborted hvoice).trans haborted,
    (congrArg Voice.active hvoice).trans hstopped⟩
  all_goals rw [frameState_eq]
  case pair => rw [framePair_of_fault hfaults]
  case bit =>
    refine hbits c.bit ?_
    rw [record_fault, BitVec.or_comm]
    exact or_and_of_and_eq BitVec.and_self s.fault
  case first =>
    have hne := record_fault_ne_zero c (BitVec.ofNat 8 v) (encode .frame) s
    obtain ⟨hcause, hslot, hcmd⟩ := hfirst hne
    exact ⟨hcause.trans (if_pos hclean), hslot.trans (if_pos hclean), hcmd.trans (if_pos hclean)⟩

end Sys2Proof.Machine
end

section
/-!
The master stage at silence and at the ends of its range. Zeros stay zeros through the sums, gains and divisions of the mix,
so a frame without voices is silent; and the conversion saturates above and below (45_mixer.md R139 to R143).
-/

namespace Sys2Proof

/-! ### Zeros and finite products -/

theorem R.isZero_sum {x y : R} (hx : x.isZero = true) (hy : y.isZero = true) : (R.add x y).isZero = true := by
  unfold R.add
  rw [R.unpack_of_isZero hx, R.unpack_of_isZero hy]
  dsimp only
  rw [alignTo_zero, alignTo_zero, Int.add_zero, if_pos rfl]
  exact R.isZero_pack _

/-- The exact number of a datum of magnitude at most 1.0. -/
theorem R.unpack_of_mag_le_one {x : R} (h : x.mag ≤ R.one.mag) :
    ∃ m e, x.unpack = .fin x.neg? m e ∧ m < 2 ^ 53 ∧ e ≤ -52 := by
  have hone : R.one.mag = 1023 * 2 ^ 52 := rfl
  have hinf : infBits64 = 2047 * 2 ^ 52 := rfl
  unfold R.unpack
  dsimp only
  rw [if_neg (by omega), if_neg (by omega)]
  split
  · exact ⟨_, _, rfl, by omega, by decide⟩
  · exact ⟨_, _, rfl, by omega, by simp only [Int.ofNat_eq_natCast]; omega⟩

/-- The product of two numbers of magnitude at most 1.0 is finite. -/
theorem R.isFinite_mul_of_le_one {x y : R} (hx : x.mag ≤ R.one.mag) (hy : y.mag ≤ R.one.mag) :
    (R.mul x y).isFinite = true := by
  obtain ⟨m, e, hunpack, hm, he⟩ := R.unpack_of_mag_le_one hx
  obtain ⟨n, e', hunpack', hn, he'⟩ := R.unpack_of_mag_le_one hy
  have hlog : Nat.log2 (m * n) < 106 := by
    by_cases hzero : m * n = 0
    · rw [hzero]
      decide
    · rw [Nat.log2_lt hzero]
      calc m * n < 2 ^ 53 * 2 ^ 53 := Nat.mul_lt_mul'' hm hn
        _ = 2 ^ 106 := by decide
  unfold R.mul
  rw [hunpack, hunpack']
  exact R.isFinite_ofDyadic _ (by omega)

theorem R.isZero_ofInt {n : Nat} (hn : n ≠ 0) (hb : n < 2 ^ 53) : (R.ofInt (Int.ofNat n)).isZero = false := by
  obtain ⟨hmag, -⟩ := R.mag_ofInt hn ((Nat.log2_lt hn).mpr hb)
  have hpos : (R.ofInt (Int.ofNat n)).mag ≠ 0 := by omega
  exact beq_eq_false_iff_ne.mpr hpos

/-- A zero stands at 0 in the order of the numbers. -/
theorem R.key_of_isZero {x : R} (h : x.isZero = true) : x.key = 0 := by
  have hmag : x.mag = 0 := beq_iff_eq.mp h
  unfold R.key
  rw [hmag]
  split <;> rfl

theorem R.trunc_of_isZero {x : R} (h : x.isZero = true) : x.trunc = 0 := by
  have hshift : (0 : Nat) >>> (- -1074 : Int).toNat = 0 := Nat.zero_shiftRight _
  unfold R.trunc
  rw [R.unpack_of_isZero h]
  dsimp only
  rw [if_neg (show ¬ (0 : Int) ≤ -1074 by decide), hshift]
  cases x.neg? <;> rfl

theorem R.key_lt_of_lt {x y : R} (h : R.lt x y = true) : x.key < y.key := by
  unfold R.lt at h
  rw [Bool.and_eq_true, decide_eq_true_eq] at h
  exact h.2

theorem R.lt_asymm {x y : R} (h : R.lt x y = true) : ¬ R.lt y x = true :=
  fun h' => absurd (R.key_lt_of_lt h') (Int.not_lt.mpr (Int.le_of_lt (R.key_lt_of_lt h)))

theorem R.lt_trans {x y z : R} (h : R.lt x y = true) (h' : R.lt y z = true) : R.lt x z = true := by
  have hkey := Int.lt_trans (R.key_lt_of_lt h) (R.key_lt_of_lt h')
  unfold R.lt at h h' ⊢
  simp only [Bool.and_eq_true, decide_eq_true_eq] at h h' ⊢
  obtain ⟨⟨hx, -⟩, -⟩ := h
  obtain ⟨⟨-, hz⟩, -⟩ := h'
  exact ⟨⟨hx, hz⟩, hkey⟩

end Sys2Proof

namespace Sys2Proof.Machine

/-! ### The conversion to int16 (45_mixer.md R142) -/

section
variable {N : Numerics} {x : R}

theorem toInt16_above (h : R.lt (R.ofInt 32767) (N.mul x (R.ofInt 32767)) = true) :
    toInt16 N x = BitVec.ofInt 16 32767 := if_pos h

/-- A number below the range is not above it. -/
theorem toInt16_below (h : R.lt (N.mul x (R.ofInt 32767)) (R.ofInt (-32768)) = true) :
    toInt16 N x = BitVec.ofInt 16 (-32768) := by
  have hrange : R.lt (R.ofInt (-32768)) (R.ofInt 32767) = true := by decide
  exact (if_neg (R.lt_asymm (R.lt_trans h hrange))).trans (if_pos h)

theorem toInt16_of_isZero (hx : x.isZero = true) : toInt16 N x = 0 := by
  have hscaled : (N.mul x (R.ofInt 32767)).isZero = true :=
    Numerics.isZero_mul N (R.isFinite_of_isZero hx) (by decide) (.inl hx)
  have hkey := R.key_of_isZero hscaled
  have hhigh : ¬ R.lt (R.ofInt 32767) (N.mul x (R.ofInt 32767)) = true := fun h =>
    absurd ((R.key_lt_of_lt h).trans_eq hkey) (by decide)
  have hlow : ¬ R.lt (N.mul x (R.ofInt 32767)) (R.ofInt (-32768)) = true := fun h =>
    absurd (hkey.symm.trans_lt (R.key_lt_of_lt h)) (by decide)
  unfold toInt16
  dsimp only
  rw [if_neg hhigh, if_neg hlow, R.trunc_of_isZero hscaled]
  rfl

end

/-- Settles O54: the worked values are evaluated to the last bit, and what lies beyond the range takes its branch. -/
theorem outputConversion : Obligations.OutputConversion := by
  refine ⟨?gains, ?masters, fun N x h => by rw [toInt16_above h]; decide, fun N x h => by rw [toInt16_below h]; decide,
    ?values⟩
  case values => decide
  case gains | masters =>
    simp only [List.map_cons, List.map_nil, List.cons.injEq, and_true]
    and_intros
    all_goals exact R.eq_of_bits (by decide)

/-! ### Silence (45_mixer.md R143) -/

theorem Numerics.isZero_add (N : Numerics) {x y : R} (hx : x.isZero = true) (hy : y.isZero = true) :
    (N.add x y).isZero = true := by
  cases N with
  | reference => exact R.isZero_sum hx hy
  | other n =>
    have hexact : exactAtZero x y = true := by
      unfold exactAtZero
      rw [hx, R.isFinite_of_isZero hy]
      rfl
    have hadd : (Numerics.other n).add x y = R.add x y := if_pos hexact
    rw [hadd]
    exact R.isZero_sum hx hy

/-- The 128 quotients in rows of 16, which keeps the enumeration shallow. -/
theorem over_127_le_one_rows : ∀ row < 8, ∀ column < 16,
    (R.div (R.ofInt (Int.ofNat (16 * row + column))) (R.ofInt 127)).mag ≤ R.one.mag := by decide

/-- A legal volume or expression over 127 is at most 1.0. -/
theorem legal_over_127_le_one {a : Nat} (ha : a ≤ 127) :
    (R.div (R.ofInt (Int.ofNat a)) (R.ofInt 127)).mag ≤ R.one.mag := by
  have hrow := over_127_le_one_rows (a / 16) (by omega) (a % 16) (by omega)
  rwa [Nat.div_add_mod] at hrow

section
variable {s : State} (hN : s.params.numerics = .reference) (h : RegistersLegal s)
include hN h

theorem partGainRef_isFinite (p : Nat) : (partGainRef s p).isFinite = true := by
  have hvolume : s.partReg p 0x10 ≤ 127 := h.part p 0x10 127 rfl
  have hexpression : s.partReg p 0x11 ≤ 127 := h.part p 0x11 127 rfl
  unfold partGainRef
  rw [hN]
  exact R.isFinite_mul_of_le_one (legal_over_127_le_one hvolume) (legal_over_127_le_one hexpression)

/-- Every part gain is finite: an unknown one by its constraint, else the reference's. -/
theorem partGain_isFinite (p : Nat) : (partGain s p).isFinite = true := by
  have href := partGainRef_isFinite hN h p
  unfold partGain
  split
  · exact href
  · dsimp only
    unfold orReference
    split
    · next hfinite => exact hfinite
    · exact href

end

section
variable {s : State} (h : RegistersLegal s)
include h

theorem masterGain_isZero {x : R} (hx : x.isZero = true) : (masterGain s x).isZero = true := by
  have hvolume : s.sysReg 1 ≤ 127 := h.sys 1 127 rfl
  have hvolumeFinite : (R.ofInt (s.sysReg 1)).isFinite = true := R.isFinite_ofInt (by omega)
  have hrate := s.fs.isLt
  have hlegal := h.fs
  have hrateFinite : (R.ofInt s.fs.toNat).isFinite = true := R.isFinite_ofInt (by omega)
  have hrateZero : (R.ofInt s.fs.toNat).isZero = false := R.isZero_ofInt (by omega) (by omega)
  have hscaled := Numerics.isZero_mul s.params.numerics (R.isFinite_of_isZero hx) hvolumeFinite (.inl hx)
  have hvolumed := Numerics.isZero_div s.params.numerics (y := R.ofInt 127) hscaled (by decide) (by decide)
  have hraised := Numerics.isZero_mul s.params.numerics (y := R.ofInt 32000) (R.isFinite_of_isZero hvolumed) (by decide)
    (.inl hvolumed)
  exact Numerics.isZero_div s.params.numerics hraised hrateFinite hrateZero

end

/-- Every master pan keeps silence (log entry 2). -/
theorem mPan_isZero (c : Choice) {l r : R} (hl : l.isZero = true) (hr : r.isZero = true) (masterPan : Nat) :
    (mPan c l r masterPan).1.isZero = true ∧ (mPan c l r masterPan).2.isZero = true := by
  cases c with
  | reference => exact ⟨hl, hr⟩
  | other n =>
    unfold mPan
    dsimp only
    unfold orReference
    split
    · next hlegal =>
      unfold legalPan at hlegal
      rw [hl, hr] at hlegal
      simp only [Bool.and_true, Bool.not_true, Bool.false_or, Bool.and_eq_true] at hlegal
      exact hlegal.2
    · exact ⟨hl, hr⟩

section
variable {s : State} (hidle : ∀ v, v < s.params.nv → (s.voice v).active = false)
include hidle

theorem activeVoices_of_idle : activeVoices s = [] :=
  List.filter_eq_nil_iff.mpr fun v hv => by
    rw [hidle v (List.mem_range.mp hv)]
    decide

theorem frameFaults_of_idle : frameFaults s = [] := by
  unfold frameFaults
  rw [activeVoices_of_idle hidle]
  rfl

theorem partSum_of_idle (side : VoiceOut → R) (p : Nat) : partSum s side p = R.zero := by
  unfold partSum
  rw [activeVoices_of_idle hidle]
  rfl

theorem mixVoices_of_idle : mixVoices s = { st := s, silent := false, accL := [], accR := [] } := by
  refine List.foldlRecOn (motive := fun m : Mix => m = { st := s, silent := false, accL := [], accR := [] })
    _ _ rfl fun m hm v hv => ?_
  rw [hm]
  exact mixVoice_idle _ v (hidle v (List.mem_range.mp hv))

section
variable (hN : s.params.numerics = .reference) (h : RegistersLegal s)
include hN h

/-- The parts of an idle frame, each a finite gain times +0.0, add up to a zero. -/
theorem frameSide_isZero_of_idle (side : VoiceOut → R) : (frameSide s side).isZero = true := by
  have hpart : ∀ p, (s.params.numerics.mul (partGain s p) (partSum s side p)).isZero = true := fun p => by
    rw [partSum_of_idle hidle]
    exact Numerics.isZero_mul _ (partGain_isFinite hN h p) (by decide) (.inr (by decide))
  exact masterGain_isZero h (List.foldlRecOn (motive := (R.isZero · = true)) _ _ (by decide)
    fun _ hsum p _ => Numerics.isZero_add _ hsum (hpart p))

theorem frameMix_isZero_of_idle : (frameMix s).1.isZero = true ∧ (frameMix s).2.isZero = true :=
  mPan_isZero _ (frameSide_isZero_of_idle hidle hN h _) (frameSide_isZero_of_idle hidle hN h _) _

theorem frameFinite_of_idle : frameFinite s = true := by
  obtain ⟨hleft, hright⟩ := frameMix_isZero_of_idle hidle hN h
  unfold frameFinite
  rw [R.isFinite_of_isZero hleft, R.isFinite_of_isZero hright]
  rfl

theorem framePair_of_idle : framePair s = (0, 0) := by
  obtain ⟨hleft, hright⟩ := frameMix_isZero_of_idle hidle hN h
  unfold framePair
  rw [toInt16_of_isZero hleft, toInt16_of_isZero hright, ite_self]

theorem frameRecord_of_idle : frameRecord s = s := by
  unfold frameRecord
  rw [frameFinite_of_idle hidle hN h, frameFaults_of_idle hidle]
  rfl

end

end

/-- Settles O44: no slot takes a step, so both sides are zeros, which every master pan and the conversion keep, and the
frame's record and voices are those it began with. -/
theorem idleFrameIsSilent : Obligations.IdleFrameIsSilent := by
  intro s hN h hidle
  rw [exec_frame, frameState_eq, frameRecord_of_idle hidle hN h, framePair_of_idle hidle hN h, mixVoices_of_idle hidle]

end Sys2Proof.Machine
end

section
/-!
Faults (60_exceptions.md R144 to R147): what recording a fault writes, bit by bit, and that no command but FRAME and RESET
touches the fault record otherwise than by taking one command fault.
-/

namespace Sys2Proof.Machine

/-! ### The bits of FAULT (R144, R146) -/

/-- Every code has a bit of its own in the FAULT register. -/
theorem Cause.code_pred_lt (c : Cause) : c.code - 1 < 32 := by cases c <;> decide

theorem Cause.getLsbD_bit (c : Cause) (k : Nat) : c.bit.getLsbD k = (k == c.code - 1) := by
  have hpow : c.bit.getLsbD k = (decide (c.code - 1 < 32) && decide (c.code - 1 = k)) :=
    BitVec.getLsbD_twoPow (c.code - 1) k
  rw [hpow, decide_eq_true c.code_pred_lt, Bool.true_and, Bool.beq_eq_decide_eq]
  exact decide_eq_decide.mpr eq_comm

theorem record_fault_getLsbD (c : Cause) (v : BitVec 8) (w : Word) (s : State) (k : Nat) :
    (record c v w s).fault.getLsbD k = (s.fault.getLsbD k || k == c.code - 1) := by
  rw [record_fault, BitVec.getLsbD_or, c.getLsbD_bit]

/-! ### The record of the first fault (R146) -/

theorem record_first {s : State} (h : s.fault = 0) (c : Cause) (v : BitVec 8) (w : Word) :
    (record c v w s).faultCause = BitVec.ofNat 8 c.code ∧ (record c v w s).faultVoice = v ∧
      (record c v w s).faultCmd = w :=
  ⟨if_pos h, if_pos h, if_pos h⟩

theorem record_later {s : State} (h : s.fault ≠ 0) (c : Cause) (v : BitVec 8) (w : Word) :
    (record c v w s).faultCause = s.faultCause ∧ (record c v w s).faultVoice = s.faultVoice ∧
      (record c v w s).faultCmd = s.faultCmd :=
  ⟨if_neg h, if_neg h, if_neg h⟩

/-- Settles O13: the codes are those of R144, and a record is the first one or finds a fault already taken. -/
theorem faultRecording : Obligations.FaultRecording :=
  ⟨rfl,
    fun c v w s => ⟨(record_first · c v w), (record_later · c v w), record_fault_getLsbD c v w s, rfl⟩,
    raise_eq,
    fun _ _ _ => rfl⟩

/-! ### The commands (R145, R147) -/

/-- The effect of a command that is neither FRAME nor RESET leaves the fault record as it was. -/
theorem Effect.keepsFaultRecord {i : Instr} {s t : State} (he : Effect i s t) (hframe : i ≠ .frame)
    (hreset : i ≠ .reset) : t.fault = s.fault ∧ t.faultCause = s.faultCause ∧ t.faultVoice = s.faultVoice ∧
      t.faultCmd = s.faultCmd := by
  rcases he.kinds with ⟨hi, -⟩ | ⟨hi, -⟩ | ⟨v, x, -, rfl⟩ | hkeeps
  · exact absurd hi hframe
  · exact absurd hi hreset
  · exact ⟨rfl, rfl, rfl, rfl⟩
  · exact ⟨hkeeps.fault, hkeeps.faultCause, hkeeps.faultVoice, hkeeps.faultCmd⟩

/-- Settles O12: a command takes a command fault or has its effect, and then only the position moves beside it. -/
theorem faultOrNoRecord : Obligations.FaultOrNoRecord := by
  intro i s hframe hreset
  rcases exec_cases i s with ⟨-, hfault⟩ | ⟨t, hnext, he⟩
  · exact .inl hfault
  · exact .inr ⟨{ t with cp := t.cp + 1 }, hnext, he.keepsFaultRecord hframe hreset⟩

end Sys2Proof.Machine
end
